-- ==== Sys2Proof/Word.lean ====
section
/-! DEFINITION. The widths the spec gives data, commands and addresses (00_scope.md R12, R13). -/

namespace Sys2Proof

/-- A storage slot and a host datum: 64 bits (R12). -/
abbrev Word := BitVec 64

/-- A command word: 32 bits (R12, R70). -/
abbrev CmdWord := BitVec 32

/-- A byte address of the host window: 22 bits (R12, R50). -/
abbrev Addr := BitVec 22

end Sys2Proof
end

