-- ==== Sys2Proof/Syntax.lean ====
section
/-! DEFINITION. The commands of the opcode map (30_encoding.md R80), one constructor per row of
spec/opcode_table.json, with the operand fields of their formats (R72 to R79). -/

namespace Sys2Proof

/-- A scalar register number, naming V0 to V15 (R74, R79). -/
abbrev Reg := Fin 16

/-- A pair number, naming P0 to P7 (R75, R79). -/
abbrev PairNum := Fin 8

/-- The buffer select `b` of format P: 0 = INBUF, 1 = OUTBUF (R77). -/
inductive BufSel where
  | inbuf
  | outbuf
  deriving DecidableEq, Repr

/-- The nineteen commands (R80). -/
inductive Instr where
  /-- R180 -/
  | nop
  /-- `setcfg N, IW, FW` (R181) -/
  | setcfg (n : BitVec 16) (iw fw : BitVec 5)
  /-- R144 -/
  | fxadd (rd ra rb : Reg)
  /-- R146 -/
  | fxsub (rd ra rb : Reg)
  /-- R148 -/
  | fxneg (rd ra : Reg)
  /-- R152 -/
  | fxmul (rd ra rb : Reg)
  /-- R150 -/
  | fxsubu (rd ra rb : Reg)
  /-- R154 -/
  | fxmulu (rd ra rb : Reg)
  /-- `cmul p1, p2, p3`: p1 <- p2 * p3 (R131) -/
  | cmul (p1 p2 p3 : PairNum)
  /-- `bfly p1, p2, p3`: a, b, w (R133) -/
  | bfly (p1 p2 p3 : PairNum)
  /-- `bitrev width, j` (R92) -/
  | bitrev (w : BitVec 5) (j : BitVec 16)
  /-- `addrgen s, i` (R112) -/
  | addrgen (s : BitVec 5) (i : BitVec 16)
  /-- `twid p, k` (R98) -/
  | twid (p : PairNum) (k : BitVec 16)
  /-- `ldc p, b[j]` (R183) -/
  | ldc (p : PairNum) (b : BufSel) (j : BitVec 16)
  /-- `stc p, b[j]` (R184) -/
  | stc (p : PairNum) (b : BufSel) (j : BitVec 16)
  /-- R113 -/
  | permute
  /-- `stage s` (R115) -/
  | stage (s : BitVec 5)
  /-- R116 -/
  | fft
  /-- `spectrum mode`: 0 = MAG, 1 = REAL, 2 = POWER, 3 reserved (R78, R174) -/
  | spectrum (mode : BitVec 2)
  deriving DecidableEq, Repr

end Sys2Proof
end

