-- ==== Sys2Proof/WellFormed.lean ====
section
/-! DEFINITION. Which commands are legal as syntax. The operand types hold every bound the formats
give (30_encoding.md R72 to R79) but one: SPECTRUM's mode 3 is reserved (R78, R82). Range errors in
otherwise legal fields are no matter of form (R82); each command's own rule checks them. -/

namespace Sys2Proof

/-- SPECTRUM's legal modes: 0, 1 and 2 (R78). -/
def legalMode (mode : BitVec 2) : Bool := mode != 3#2

/-- A command the decoder can give (R81, R82). -/
def Instr.wellFormed : Instr → Bool
  | .nop => true
  | .setcfg _ _ _ => true
  | .fxadd _ _ _ => true
  | .fxsub _ _ _ => true
  | .fxneg _ _ => true
  | .fxmul _ _ _ => true
  | .fxsubu _ _ _ => true
  | .fxmulu _ _ _ => true
  | .cmul _ _ _ => true
  | .bfly _ _ _ => true
  | .bitrev _ _ => true
  | .addrgen _ _ => true
  | .twid _ _ => true
  | .ldc _ _ _ => true
  | .stc _ _ _ => true
  | .permute => true
  | .stage _ => true
  | .fft => true
  | .spectrum mode => legalMode mode

end Sys2Proof
end

