-- ==== Sys2Proof/Decode.lean ====
section
/-! DEFINITION. The decoder, total on every word (30_encoding.md R81, R82), the opcode map as a table
(R80) and the encoder. -/

namespace Sys2Proof

/-- Why a command word is illegal (R82); every one of them is reported as IllegalCommand (code 7). -/
inductive Reject where
  /-- data bits 63:32 of the CMD write are not 0 (R70) -/
  | highHalf
  /-- an opcode R80 does not list -/
  | reservedOpcode
  /-- a non-zero bit in a field marked "must be 0", FXNEG's rb, TWID's b and STAGE's imm16 among them -/
  | mustBeZero
  /-- SPECTRUM with mode 3 -/
  | reservedMode
  deriving DecidableEq, Repr

/-- The `len`-bit field of `c` whose lowest bit is bit `lo` (R71 to R79). -/
def bits (c : CmdWord) (lo len : Nat) : BitVec len := c.extractLsb' lo len

/-- A register field (R74). -/
def regField (c : CmdWord) (lo : Nat) : Reg := ⟨(bits c lo 4).toNat, (bits c lo 4).isLt⟩

/-- A pair field (R75, R77). -/
def pairField (c : CmdWord) (lo : Nat) : PairNum := ⟨(bits c lo 3).toNat, (bits c lo 3).isLt⟩

/-- The buffer select, bit 22 (R77). -/
def selField (c : CmdWord) : BufSel := if bits c 22 1 = 0#1 then .inbuf else .outbuf

/-- The low `len` bits of a field that starts at `lo` must be 0 (R82). -/
def zeroChecked (c : CmdWord) (lo len : Nat) (i : Instr) : Except Reject Instr :=
  if bits c lo len = 0#len then .ok i else .error .mustBeZero

/-- Format S (R73). -/
def decodeS (c : CmdWord) : Except Reject Instr := .ok (.setcfg (bits c 0 16) (bits c 21 5) (bits c 16 5))

/-- Format R (R74). -/
def decodeR (c : CmdWord) (mk : Reg → Reg → Reg → Instr) : Except Reject Instr :=
  zeroChecked c 0 14 (mk (regField c 22) (regField c 18) (regField c 14))

/-- Format C (R75). -/
def decodeC (c : CmdWord) (mk : PairNum → PairNum → PairNum → Instr) : Except Reject Instr :=
  zeroChecked c 0 17 (mk (pairField c 23) (pairField c 20) (pairField c 17))

/-- Format X (R76). -/
def decodeX (c : CmdWord) (mk : BitVec 5 → BitVec 16 → Instr) : Except Reject Instr :=
  zeroChecked c 16 5 (mk (bits c 21 5) (bits c 0 16))

/-- Format P (R77). -/
def decodeP (c : CmdWord) (mk : PairNum → BufSel → BitVec 16 → Instr) : Except Reject Instr :=
  zeroChecked c 16 6 (mk (pairField c 23) (selField c) (bits c 0 16))

/-- Format M (R78). -/
def decodeM (c : CmdWord) : Except Reject Instr :=
  if bits c 0 24 = 0#24 then
    if legalMode (bits c 24 2) then .ok (.spectrum (bits c 24 2)) else .error .reservedMode
  else .error .mustBeZero

/-- The decoder: the opcode selects the command and its format (R71, R80), and the fields follow. -/
def decodeWord (c : CmdWord) : Except Reject Instr :=
  match (bits c 26 6).toNat with
  | 0x00 => zeroChecked c 0 26 .nop
  | 0x01 => decodeS c
  | 0x02 => decodeR c .fxadd
  | 0x03 => decodeR c .fxsub
  | 0x04 => zeroChecked c 0 18 (.fxneg (regField c 22) (regField c 18))
  | 0x05 => decodeR c .fxmul
  | 0x06 => decodeR c .fxsubu
  | 0x07 => decodeR c .fxmulu
  | 0x10 => decodeC c .cmul
  | 0x11 => decodeC c .bfly
  | 0x18 => decodeX c .bitrev
  | 0x19 => decodeX c .addrgen
  | 0x1A => zeroChecked c 16 7 (.twid (pairField c 23) (bits c 0 16))
  | 0x20 => decodeP c .ldc
  | 0x21 => decodeP c .stc
  | 0x28 => zeroChecked c 0 26 .permute
  | 0x29 => zeroChecked c 0 21 (.stage (bits c 21 5))
  | 0x2A => zeroChecked c 0 26 .fft
  | 0x30 => decodeM c
  | _ => .error .reservedOpcode

/-- What a CMD write's 64-bit datum asks for: bits 63:32 must be 0, bits 31:0 are the command
(R70, 45_control.md R185). -/
def decodeData (d : Word) : Except Reject Instr :=
  if d.extractLsb' 32 32 = 0#32 then decodeWord (d.extractLsb' 0 32) else .error .highHalf

/-- The decoder on bytes, the first the one at the lowest address: the eight byte lanes of a CMD write,
little-endian (20_memory.md R53). A missing lane is read as 0 and a ninth byte belongs to no CMD
write. -/
def decodeBytes (bs : List (BitVec 8)) : Except Reject Instr :=
  decodeData (BitVec.ofNat 64 ((bs.take 8).foldr (fun b acc => b.toNat + 256 * acc) 0))

/-- A row of the opcode map (R80). -/
structure OpcodeRow where
  mnemonic : String
  value : CmdWord
  mask : CmdWord
  deriving DecidableEq, Repr

/-- The opcode map as R80 prints it. -/
def opcodeMap : List OpcodeRow :=
  [⟨"NOP", 0x00000000, 0xFFFFFFFF⟩, ⟨"SETCFG", 0x04000000, 0xFC000000⟩,
   ⟨"FXADD", 0x08000000, 0xFC003FFF⟩, ⟨"FXSUB", 0x0C000000, 0xFC003FFF⟩,
   ⟨"FXNEG", 0x10000000, 0xFC03FFFF⟩, ⟨"FXMUL", 0x14000000, 0xFC003FFF⟩,
   ⟨"FXSUBU", 0x18000000, 0xFC003FFF⟩, ⟨"FXMULU", 0x1C000000, 0xFC003FFF⟩,
   ⟨"CMUL", 0x40000000, 0xFC01FFFF⟩, ⟨"BFLY", 0x44000000, 0xFC01FFFF⟩,
   ⟨"BITREV", 0x60000000, 0xFC1F0000⟩, ⟨"ADDRGEN", 0x64000000, 0xFC1F0000⟩,
   ⟨"TWID", 0x68000000, 0xFC7F0000⟩, ⟨"LDC", 0x80000000, 0xFC3F0000⟩,
   ⟨"STC", 0x84000000, 0xFC3F0000⟩, ⟨"PERMUTE", 0xA0000000, 0xFFFFFFFF⟩,
   ⟨"STAGE", 0xA4000000, 0xFC1FFFFF⟩, ⟨"FFT", 0xA8000000, 0xFFFFFFFF⟩,
   ⟨"SPECTRUM", 0xC0000000, 0xFCFFFFFF⟩]

/-- `c` matches the row: `c & mask == match` (R81). -/
def OpcodeRow.matchesWord (r : OpcodeRow) (c : CmdWord) : Bool := c &&& r.mask == r.value

/-- The value check of R82 that no mask expresses: SPECTRUM's mode is not 3. -/
def OpcodeRow.valuesLegal (r : OpcodeRow) (c : CmdWord) : Bool :=
  r.mnemonic != "SPECTRUM" || legalMode (bits c 24 2)

/-- The mnemonic of a command, as R80 spells it. -/
def Instr.mnemonic : Instr → String
  | .nop => "NOP"
  | .setcfg _ _ _ => "SETCFG"
  | .fxadd _ _ _ => "FXADD"
  | .fxsub _ _ _ => "FXSUB"
  | .fxneg _ _ => "FXNEG"
  | .fxmul _ _ _ => "FXMUL"
  | .fxsubu _ _ _ => "FXSUBU"
  | .fxmulu _ _ _ => "FXMULU"
  | .cmul _ _ _ => "CMUL"
  | .bfly _ _ _ => "BFLY"
  | .bitrev _ _ => "BITREV"
  | .addrgen _ _ => "ADDRGEN"
  | .twid _ _ => "TWID"
  | .ldc _ _ _ => "LDC"
  | .stc _ _ _ => "STC"
  | .permute => "PERMUTE"
  | .stage _ => "STAGE"
  | .fft => "FFT"
  | .spectrum _ => "SPECTRUM"

/-- A register number as its 4-bit field (R74). -/
def regBits (r : Reg) : BitVec 4 := BitVec.ofNat 4 r.val

/-- A pair number as its 3-bit field (R75). -/
def pairBits (p : PairNum) : BitVec 3 := BitVec.ofNat 3 p.val

/-- The buffer select as its bit (R77). -/
def selBits : BufSel → BitVec 1
  | .inbuf => 0#1
  | .outbuf => 1#1

/-- A field of a command word whose lowest bit is bit `lo`, every other bit 0 (R71 to R78). -/
def place {n : Nat} (x : BitVec n) (lo : Nat) : CmdWord := x.setWidth 32 <<< lo

/-- Format Z (R72). -/
def wordZ (op : BitVec 6) : CmdWord := place op 26

/-- Format S (R73). -/
def wordS (op : BitVec 6) (iw fw : BitVec 5) (n : BitVec 16) : CmdWord :=
  place op 26 ||| place iw 21 ||| place fw 16 ||| place n 0

/-- Format R (R74). -/
def wordR (op : BitVec 6) (rd ra rb : BitVec 4) : CmdWord :=
  place op 26 ||| place rd 22 ||| place ra 18 ||| place rb 14

/-- Format C (R75). -/
def wordC (op : BitVec 6) (p1 p2 p3 : BitVec 3) : CmdWord :=
  place op 26 ||| place p1 23 ||| place p2 20 ||| place p3 17

/-- Format X (R76). -/
def wordX (op : BitVec 6) (a5 : BitVec 5) (imm : BitVec 16) : CmdWord :=
  place op 26 ||| place a5 21 ||| place imm 0

/-- Format P (R77). -/
def wordP (op : BitVec 6) (p : BitVec 3) (b : BitVec 1) (imm : BitVec 16) : CmdWord :=
  place op 26 ||| place p 23 ||| place b 22 ||| place imm 0

/-- Format M (R78). -/
def wordM (op : BitVec 6) (mode : BitVec 2) : CmdWord := place op 26 ||| place mode 24

/-- The encoder (R72 to R80, R84). -/
def encode : Instr → CmdWord
  | .nop => wordZ 0x00#6
  | .setcfg n iw fw => wordS 0x01#6 iw fw n
  | .fxadd rd ra rb => wordR 0x02#6 (regBits rd) (regBits ra) (regBits rb)
  | .fxsub rd ra rb => wordR 0x03#6 (regBits rd) (regBits ra) (regBits rb)
  | .fxneg rd ra => wordR 0x04#6 (regBits rd) (regBits ra) 0#4
  | .fxmul rd ra rb => wordR 0x05#6 (regBits rd) (regBits ra) (regBits rb)
  | .fxsubu rd ra rb => wordR 0x06#6 (regBits rd) (regBits ra) (regBits rb)
  | .fxmulu rd ra rb => wordR 0x07#6 (regBits rd) (regBits ra) (regBits rb)
  | .cmul p1 p2 p3 => wordC 0x10#6 (pairBits p1) (pairBits p2) (pairBits p3)
  | .bfly p1 p2 p3 => wordC 0x11#6 (pairBits p1) (pairBits p2) (pairBits p3)
  | .bitrev w j => wordX 0x18#6 w j
  | .addrgen s i => wordX 0x19#6 s i
  | .twid p k => wordP 0x1A#6 (pairBits p) 0#1 k
  | .ldc p b j => wordP 0x20#6 (pairBits p) (selBits b) j
  | .stc p b j => wordP 0x21#6 (pairBits p) (selBits b) j
  | .permute => wordZ 0x28#6
  | .stage s => wordX 0x29#6 s 0#16
  | .fft => wordZ 0x2A#6
  | .spectrum mode => wordM 0x30#6 mode

/-- The datum of the CMD write that issues a command: `zext_64(encoding)` (R85). -/
def encodeData (i : Instr) : Word := (encode i).zeroExtend 64

/-- The datum of the CMD write whose low `nbits` bits are those of `w` and whose other bits are 0
(R70; log entry 13). -/
def tableData (nbits w : Nat) : Word := BitVec.ofNat 64 (w % 2 ^ nbits)

/-- The command the decoder reads from a word numbered as spec/opcode_table.json numbers it. -/
def decodeTableWord (nbits w : Nat) : Option Instr := (decodeData (tableData nbits w)).toOption

end Sys2Proof
end

