-- ==== Sys2Proof/Config.lean ====
section
/-! DEFINITION. What an implementation fixes (the synthesis parameters, 00_scope.md R9 to R11) and the
free values (45_control.md R187). -/

namespace Sys2Proof

/-- TWQ: how a real number is rounded into fixed point (R10). -/
inductive Twq where
  | trunc    -- magnitude truncated toward zero
  | nearest  -- magnitude rounded to nearest, ties away from zero
  deriving DecidableEq, Repr

/-- The three synthesis parameters, fixed for one machine. They are no state of the core (R23); the
model carries them in `State.params` so that every statement about a state holds for every choice
of them (log entry 2). -/
structure Params where
  /-- LOGN_MAX (R9). -/
  lognMax : Nat
  /-- TWQ (R10). -/
  twq : Twq
  /-- USUB_CHECKED (R11). -/
  usubChecked : Bool
  deriving DecidableEq, Repr

/-- The spec's defaults: LOGN_MAX = 10, TWQ = TRUNC, USUB_CHECKED = 1 (R9, R10, R11). -/
def Params.default : Params := { lognMax := 10, twq := .trunc, usubChecked := true }

/-- LOGN_MAX lies in `[1, 15]` (R9). -/
abbrev Params.wf (p : Params) : Prop := 1 ≤ p.lognMax ∧ p.lognMax ≤ 15

/-- NMAX = 2^LOGN_MAX, the number of entries of INBUF and OUTBUF (R9). -/
def Params.nmax (p : Params) : Nat := 2 ^ p.lognMax

/-- FREE VALUE: what the `n`-th unspecified host read returns (R187: drawn freshly, nothing may be
assumed about it; 93_implementation_defined.md U5; log entry 3). It has no body. -/
opaque Config.freeRead : Nat → Word

end Sys2Proof
end

