-- ==== Sys2Proof/Machine/State.lean ====
section
/-! DEFINITION. The state of the machine as plain data (10_state.md R20 to R42) and the state after
reset (R41). -/

namespace Sys2Proof.Machine

/-- The error codes of 60_exceptions.md R200; codes 9 to 15 are never produced (log entry 17). -/
inductive ErrCode where
  | ok
  | invalidSize
  | invalidWidth
  | widthMismatch
  | uninitializedOperand
  | notConfigured
  | operandRange
  | illegalCommand
  | underflow
  deriving DecidableEq, Repr

/-- CFG (R24). Bits 63:31 hold nothing. -/
structure Cfg where
  /-- bits 15:0, the transform size N -/
  n : BitVec 16
  /-- bits 20:16, the fraction width F -/
  fw : BitVec 5
  /-- bits 25:21, the integer width I -/
  iw : BitVec 5
  /-- bit 26, VALID -/
  valid : Bool
  /-- bits 30:27, L = log2(N) -/
  log2n : BitVec 4
  deriving DecidableEq, Repr

/-- CFG with every field 0: unconfigured (R24, R182). -/
def Cfg.unconfigured : Cfg := { n := 0#16, fw := 0#5, iw := 0#5, valid := false, log2n := 0#4 }

/-- STATUS (R26). CONFIGURED is equal to CFG.VALID, so it is stored there alone. -/
structure Status where
  /-- bits 3:0, LASTERR -/
  lastErr : ErrCode
  /-- bits 7:4, FIRSTERR -/
  firstErr : ErrCode
  /-- bit 9, BUSY: 0 in every state the model exposes (R21, log entry 5) -/
  busy : Bool
  deriving DecidableEq, Repr

/-- STATUS = 0 (R41). -/
def Status.clear : Status := { lastErr := .ok, firstErr := .ok, busy := false }

/-- A width tag (iw, fw) (R28). -/
structure Tag where
  iw : BitVec 5
  fw : BitVec 5
  deriving DecidableEq, Repr

/-- A tagged word that is not EMPTY: its tag and its raw pattern, held in a 64-bit slot (R12, R28;
log entry 9). An EMPTY word is `none`. -/
structure TWord where
  tag : Tag
  raw : Word
  deriving DecidableEq, Repr

/-- A buffer: its written slots with their contents, strictly rising by slot number; an unlisted
slot is EMPTY or invalid (R28, R33 to R35, R41; log entry 6). -/
structure Memory (α : Type) where
  cells : List (Nat × α)
  deriving DecidableEq, Repr

/-- A buffer nothing has written yet (R41). -/
def Memory.empty {α : Type} : Memory α := { cells := [] }

/-- One thing the world outside does to the core (70_reset_and_hazards.md R224). -/
inductive HostAction where
  /-- a host read of `size` bytes -/
  | read (addr : Addr) (size : Nat)
  /-- a host write of `size` bytes -/
  | write (addr : Addr) (size : Nat) (data : Word)
  /-- the platform's reset (R220) -/
  | reset
  deriving DecidableEq, Repr

/-- The host's side of the window. It is no state of the core (R23): it is what the host will do,
what its reads have returned (R225), and how many free values its reads have drawn (R187). -/
structure HostPort where
  /-- the actions still to come, first first (log entry 1) -/
  pending : List HostAction
  /-- the values the reads so far returned, oldest first (log entry 1) -/
  returned : List Word
  /-- the number of unspecified reads so far: the index of the next free value (log entry 3) -/
  draws : Nat
  deriving DecidableEq, Repr

/-- A host with nothing to do, at the start of a run. -/
def HostPort.idle : HostPort := { pending := [], returned := [], draws := 0 }

/-- The complete architectural state (R23), the synthesis parameters (R9 to R11; log entry 2) and the
host's side. -/
structure State where
  params : Params
  cfg : Cfg
  status : Status
  res0 : Word
  res1 : Word
  res2 : Word
  v : Vector (Option TWord) 16
  inbuf : Memory TWord
  outbuf : Memory TWord
  spec : Memory Word
  host : HostPort
  deriving DecidableEq, Repr

/-- The machine right after reset (R41, R220), with the spec's default parameters (log entry 2). -/
def State.reset : State :=
  { params := Params.default
    cfg := Cfg.unconfigured
    status := Status.clear
    res0 := 0#64
    res1 := 0#64
    res2 := 0#64
    v := Vector.replicate 16 none
    inbuf := Memory.empty
    outbuf := Memory.empty
    spec := Memory.empty
    host := HostPort.idle }

/-- Why a step can stop with a fault: never. The core has no trap and never halts (60_exceptions.md
R209, 70_reset_and_hazards.md R225); a failing command ends in a next state with its code in STATUS
(R203). -/
inductive Fault where
  deriving DecidableEq, Repr

/-- Why a step has no meaning. -/
inductive Refusal where
  /-- raised by exec for a command that has no meaning yet; safe -/
  | notModelled (mnemonic : String)
  /-- raised by a host access of a size other than 8 bytes or at a misaligned address, which R55 says
  the model refuses; safe (log entry 4) -/
  | accessOutsideInterface
  /-- raised by a host access other than a STATUS read while BUSY = 1, which R223 says has no meaning
  in the model; safe (log entry 5) -/
  | accessWhileBusy
  deriving DecidableEq, Repr

end Sys2Proof.Machine
end

