-- ==== Sys2Proof/Machine/Ops.lean ====
section
/-! DEFINITION. The named operations over buffers, registers and STATUS, and the one way a command
ends: with its results, or with an error code and nothing else (60_exceptions.md R203, R204). -/

namespace Sys2Proof.Machine

/-! ### Buffers -/

/-- The canonical form of a buffer: slot numbers strictly rising (log entry 6). -/
abbrev Memory.wf {α : Type} (m : Memory α) : Prop := (m.cells.map Prod.fst).Pairwise (· < ·)

/-- The content of slot `k` in a list of cells; `none` is EMPTY or invalid. -/
def lookupCell {α : Type} : List (Nat × α) → Nat → Option α
  | [], _ => none
  | (k', a) :: rest, k => if k' = k then some a else lookupCell rest k

/-- The list of at most one cell that holds `w` at slot `k`. -/
def oneCell {α : Type} (k : Nat) : Option α → List (Nat × α)
  | none => []
  | some a => [(k, a)]

/-- Slot `k` takes the content `w`; the slots stay in rising order, and an EMPTY slot is not listed. -/
def storeCell {α : Type} : List (Nat × α) → Nat → Option α → List (Nat × α)
  | [], k, w => oneCell k w
  | (k', a) :: rest, k, w =>
    if k < k' then oneCell k w ++ (k', a) :: rest
    else if k = k' then oneCell k w ++ rest
    else (k', a) :: storeCell rest k w

/-- The content of slot `k`; `none` is EMPTY (R28) or invalid (R35). -/
def Memory.get {α : Type} (m : Memory α) (k : Nat) : Option α := lookupCell m.cells k

/-- Slot `k` takes the content `w` as a whole (90_conflicts.md C11). -/
def Memory.put {α : Type} (m : Memory α) (k : Nat) (w : Option α) : Memory α :=
  { cells := storeCell m.cells k w }

/-- The slot of the word `re` or `lo` of entry `j` (20_memory.md R52, bit 3 = 0). -/
def reSlot (j : Nat) : Nat := 2 * j

/-- The slot of the word `im` or `hi` of entry `j` (R52, bit 3 = 1). -/
def imSlot (j : Nat) : Nat := 2 * j + 1

/-- Both words of an entry (R33 to R35). -/
def Memory.putEntry {α : Type} (m : Memory α) (j : Nat) (re im : Option α) : Memory α :=
  (m.put (reSlot j) re).put (imSlot j) im

/-- The raw pattern of a slot. The commands that use it have checked that the slot is not EMPTY
(41_butterfly_stage.md R115, 44_spectrum.md R174); on an EMPTY slot, which they never read, it is 0. -/
def Memory.raw (m : Memory TWord) (k : Nat) : Word :=
  match m.get k with
  | some w => w.raw
  | none => 0#64

/-! ### Registers -/

/-- V[r] (R14, R29). -/
def State.reg (s : State) (r : Reg) : Option TWord := s.v.get r

/-- V[r] <- w (R14, R29). -/
def State.setReg (s : State) (r : Reg) (w : Option TWord) : State :=
  { s with v := s.v.set r.val w r.isLt }

/-- The register of the real part of pair `p`: V[2p] (R29). -/
def reReg (p : PairNum) : Reg := ⟨2 * p.val, by omega⟩

/-- The register of the imaginary part of pair `p`: V[2p+1] (R29). -/
def imReg (p : PairNum) : Reg := ⟨2 * p.val + 1, by omega⟩

/-- P[p] <- (re, im), the real part first (R14, R29). -/
def State.setPair (s : State) (p : PairNum) (re im : Option TWord) : State :=
  (s.setReg (reReg p) re).setReg (imReg p) im

/-- The buffer that format P's `b` selects (30_encoding.md R77). -/
def State.buffer (s : State) : BufSel → Memory TWord
  | .inbuf => s.inbuf
  | .outbuf => s.outbuf

/-- The selected buffer is replaced by `m`. -/
def State.setBuffer (s : State) : BufSel → Memory TWord → State
  | .inbuf, m => { s with inbuf := m }
  | .outbuf, m => { s with outbuf := m }

/-! ### STATUS and the end of a command -/

/-- `raise Error(e)`: LASTERR takes the code, and FIRSTERR takes it if it was 0 (R203). -/
def State.raise (s : State) (e : ErrCode) : State :=
  { s with status :=
      { s.status with
        lastErr := e
        firstErr := if s.status.firstErr = .ok then e else s.status.firstErr } }

/-- Success: LASTERR <- 0, FIRSTERR unchanged (R203). -/
def State.succeed (s : State) : State := { s with status := { s.status with lastErr := .ok } }

/-- The host's clear of the error fields (10_state.md R27). -/
def State.clearErrors (s : State) : State :=
  { s with status := { s.status with lastErr := .ok, firstErr := .ok } }

/-- A check or a computation that may raise an error. -/
abbrev Check (α : Type) := Except ErrCode α

/-- `if not p: raise Error(e)`. -/
def require (p : Bool) (e : ErrCode) : Check Unit := if p then .ok () else .error e

/-- How a command or a host data write that began in `s` ends: with its results and LASTERR <- 0, or
with `raise Error(e)` and no other change (R203, R204). -/
def State.conclude (s : State) : Check State → State
  | .ok t => t.succeed
  | .error e => s.raise e

/-- A command's outcome: it always completes (R205, R209). -/
def finish (s : State) (r : Check State) : Host.Outcome State Fault Refusal := .next (s.conclude r)

/-- The platform's reset: every piece of the core's state as R41 says; the synthesis parameters are
unchanged (70_reset_and_hazards.md R220) and the host goes on with its actions (log entry 12). -/
def State.platformReset (s : State) : State :=
  { State.reset with params := s.params, host := s.host }

end Sys2Proof.Machine
end

