-- ==== Sys2Proof/Machine/Fixed.lean ====
section
/-! DEFINITION. The number notation (00_scope.md R13) and the functions of the fixed-point unit
(43_fixed_point.md R140 to R162): exact integers first, then one explicit wrap. -/

namespace Sys2Proof.Machine

/-- W = I + F (10_state.md R25). -/
def Tag.width (t : Tag) : Nat := t.iw.toNat + t.fw.toNat

/-- F. -/
def Tag.frac (t : Tag) : Nat := t.fw.toNat

/-- A legal tag: both widths at least 1 (R28). -/
abbrev Tag.legal (t : Tag) : Prop := 1 ≤ t.iw.toNat ∧ 1 ≤ t.fw.toNat

/-- wrap_W(x) = x mod 2^W (R13), in a 64-bit slot. -/
def wrap (w : Nat) (x : Int) : Word := BitVec.ofInt 64 (x % ((2 ^ w : Nat) : Int))

/-- sint_W(r), the two's-complement reading of a W-bit pattern (R13). -/
def sint (w : Nat) (r : Word) : Int :=
  if r.getLsbD (w - 1) then (r.toNat : Int) - ((2 ^ w : Nat) : Int) else (r.toNat : Int)

/-- uint_W(r) = r (R13). -/
def uint (r : Word) : Int := (r.toNat : Int)

/-- fx_add_W (R143). -/
def fxAdd (w : Nat) (a b : Word) : Word := wrap w (uint a + uint b)

/-- fx_sub_W (R145). -/
def fxSub (w : Nat) (a b : Word) : Word := wrap w (uint a - uint b)

/-- fx_neg_W (R147). -/
def fxNeg (w : Nat) (a : Word) : Word := wrap w (((2 ^ w : Nat) : Int) - uint a)

/-- fx_subu_W: with USUB_CHECKED = 1 an underflow is an error, with 0 it wraps (R149). -/
def fxSubu (checked : Bool) (w : Nat) (a b : Word) : Check Word :=
  if uint a < uint b then
    if checked then .error .underflow else .ok (wrap w (uint a - uint b))
  else .ok (wrap w (uint a - uint b))

/-- fx_mul_{I,F}: the exact signed product, its low F bits discarded by floor, wrapped (R151). The
divisor is positive, so integer division is the floor. -/
def fxMul (t : Tag) (a b : Word) : Word :=
  wrap t.width (sint t.width a * sint t.width b / ((2 ^ t.frac : Nat) : Int))

/-- fx_mulu_{I,F}: the same on unsigned patterns (R153). -/
def fxMulu (t : Tag) (a b : Word) : Word :=
  wrap t.width (uint a * uint b / ((2 ^ t.frac : Nat) : Int))

/-- The greatest `m < 2^bits` above `acc` by whole bits that satisfies `p`, where `p` holds below any
number it holds for: one bit at a time from the top. -/
def greatest (p : Nat → Bool) : Nat → Nat → Nat
  | 0, acc => acc
  | b + 1, acc => if p (acc + 2 ^ b) then greatest p b (acc + 2 ^ b) else greatest p b acc

/-- isqrt(n), the greatest m with m*m <= n (R13), for n < 2^128. -/
def isqrt (n : Nat) : Nat := greatest (fun m => m * m ≤ n) 64 0

/-- The quantiser q_{I,F} of a number `v` (R162): the magnitude truncated, or rounded to nearest with
ties away from zero, then signed and wrapped. `K` is the rationals for a host's samples and the reals
in statements. -/
def quantise {K : Type} [Field K] [LinearOrder K] [FloorRing K] (q : Twq) (t : Tag) (v : K) : Word :=
  let m := |v| * ((2 ^ t.frac : Nat) : K)
  let n : Int := match q with
    | .trunc => ⌊m⌋
    | .nearest => ⌊m + 1 / 2⌋
  wrap t.width (if 0 ≤ v then n else -n)

/-- value_s(raw) = sint_W(raw) / 2^F (R140, R160). -/
def valueS (t : Tag) (raw : Word) : ℚ := (sint t.width raw : ℚ) / ((2 ^ t.frac : Nat) : ℚ)

/-- value_u(raw) = raw / 2^F (R142). -/
def valueU (t : Tag) (raw : Word) : ℚ := (uint raw : ℚ) / ((2 ^ t.frac : Nat) : ℚ)

end Sys2Proof.Machine
end

