-- ==== Sys2Proof/Machine/Operands.lean ====
section
/-! DEFINITION. Operands: what a command reads, and the checks every read makes first (10_state.md R25,
R30; 43_fixed_point.md R155). -/

namespace Sys2Proof.Machine

/-- cfgTag = (CFG.IW, CFG.FW) (R25). -/
def Cfg.tag (c : Cfg) : Tag := { iw := c.iw, fw := c.fw }

/-- N (R25). -/
def Cfg.size (c : Cfg) : Nat := c.n.toNat

/-- L = CFG.LOG2N (R25). -/
def Cfg.stages (c : Cfg) : Nat := c.log2n.toNat

/-- A command that needs CFG fails with NotConfigured while VALID = 0 (R25). -/
def State.config (s : State) : Check Cfg := if s.cfg.valid then .ok s.cfg else .error .notConfigured

/-- An EMPTY operand fails with UninitializedOperand (R30). -/
def written : Option TWord → Check TWord
  | some w => .ok w
  | none => .error .uninitializedOperand

/-- Operands whose tags are not all equal fail with WidthMismatchError; else the common tag (R30). -/
def commonTag (w : TWord) (ws : List TWord) : Check Tag :=
  if ws.all (fun x => x.tag = w.tag) then .ok w.tag else .error .widthMismatch

/-- A scalar operand (R155). -/
def State.operand (s : State) (r : Reg) : Check TWord := written (s.reg r)

/-- Both words of an entry or a pair, neither EMPTY (R30). -/
def writtenPair (re im : Option TWord) : Check (TWord × TWord) := do
  let a ← written re
  let b ← written im
  pure (a, b)

/-- A pair operand: V[2p] and V[2p+1] (R131, R133). -/
def State.pairOperand (s : State) (p : PairNum) : Check (TWord × TWord) :=
  writtenPair (s.reg (reReg p)) (s.reg (imReg p))

/-- The slot holds a tagged word of the tag `t`. -/
def hasTag (t : Tag) : Option TWord → Bool
  | some w => w.tag = t
  | none => false

/-- Entries 0 to n - 1 of a buffer all hold two words (R113, R115, R174: code 4). -/
def Memory.allWritten (m : Memory TWord) (n : Nat) : Bool :=
  (List.range n).all fun j => (m.get (reSlot j)).isSome && (m.get (imSlot j)).isSome

/-- Entries 0 to n - 1 of a buffer all carry the tag `t` in both words (R113, R115, R174: code 3). -/
def Memory.allTagged (m : Memory TWord) (n : Nat) (t : Tag) : Bool :=
  (List.range n).all fun j => hasTag t (m.get (reSlot j)) && hasTag t (m.get (imSlot j))

/-- The buffer checks of PERMUTE, STAGE, FFT and SPECTRUM: every word written (code 4), then every tag
equal to cfgTag (code 3) (R113, R115, R116, R174). -/
def checkBlock (m : Memory TWord) (n : Nat) (t : Tag) : Check Unit := do
  require (m.allWritten n) .uninitializedOperand
  require (m.allTagged n t) .widthMismatch

end Sys2Proof.Machine
end

