-- ==== Sys2Proof/Machine/Complex.lean ====
section
/-! DEFINITION. The complex multiplier and the butterfly, and CMUL and BFLY (42_complex.md R130 to
R134). -/

namespace Sys2Proof.Machine

/-- A complex raw pair, real part first (R29). -/
structure Cx where
  re : Word
  im : Word
  deriving DecidableEq, Repr

/-- cmul_{I,F}: four products, each truncated and wrapped on its own, then one subtract and one add
(R130). -/
def cmul (t : Tag) (x y : Cx) : Cx :=
  { re := fxSub t.width (fxMul t x.re y.re) (fxMul t x.im y.im)
    im := fxAdd t.width (fxMul t x.re y.im) (fxMul t x.im y.re) }

/-- Component-wise fx_add. -/
def cadd (w : Nat) (x y : Cx) : Cx := { re := fxAdd w x.re y.re, im := fxAdd w x.im y.im }

/-- Component-wise fx_sub. -/
def csub (w : Nat) (x y : Cx) : Cx := { re := fxSub w x.re y.re, im := fxSub w x.im y.im }

/-- bfly_{I,F}: (a + w*b, a - w*b), both from the old a (R132). -/
def bfly (t : Tag) (a b w : Cx) : Cx × Cx :=
  (cadd t.width a (cmul t w b), csub t.width a (cmul t w b))

/-- The raw patterns of a pair of tagged words. -/
def rawPair (e : TWord × TWord) : Cx := { re := e.1.raw, im := e.2.raw }

/-- P[p] <- c, both words tagged `t`. -/
def State.setPairRaw (s : State) (p : PairNum) (t : Tag) (c : Cx) : State :=
  s.setPair p (some { tag := t, raw := c.re }) (some { tag := t, raw := c.im })

/-- CMUL: pair p1 <- pair p2 * pair p3, at the operands' own tag (R131). -/
def execCmul (p1 p2 p3 : PairNum) (s : State) : Host.Outcome State Fault Refusal :=
  finish s do
    let x ← s.pairOperand p2
    let y ← s.pairOperand p3
    let t ← commonTag x.1 [x.2, y.1, y.2]
    pure (s.setPairRaw p1 t (cmul t (rawPair x) (rawPair y)))

/-- BFLY: pair p1 <- a' first, then pair p2 <- b'; every word is read before any is written (R133). -/
def execBfly (p1 p2 p3 : PairNum) (s : State) : Host.Outcome State Fault Refusal :=
  finish s do
    let a ← s.pairOperand p1
    let b ← s.pairOperand p2
    let w ← s.pairOperand p3
    let t ← commonTag a.1 [a.2, b.1, b.2, w.1, w.2]
    let r := bfly t (rawPair a) (rawPair b) (rawPair w)
    pure ((s.setPairRaw p1 t r.1).setPairRaw p2 t r.2)

end Sys2Proof.Machine
end

