-- ==== Sys2Proof/Machine/Control.lean ====
section
/-! DEFINITION. NOP, SETCFG, LDC, STC (45_control.md R180 to R184). -/

namespace Sys2Proof.Machine

/-- NOP: LASTERR <- 0 (R180). -/
def execNop (s : State) : Host.Outcome State Fault Refusal := finish s (.ok s)

/-- N is a size the core can transform: at least 2, a power of two, at most NMAX (R181). -/
def sizeLegal (p : Params) (n : Nat) : Bool := 2 ≤ n && 2 ^ Nat.log2 n == n && n ≤ p.nmax

/-- The configuration a successful SETCFG writes (R181). -/
def Cfg.make (n : BitVec 16) (iw fw : BitVec 5) : Cfg :=
  { n := n, fw := fw, iw := iw, valid := true, log2n := BitVec.ofNat 4 (Nat.log2 n.toNat) }

/-- SETCFG: the size is checked (code 1), then the widths (code 2), then CFG is written (R181). A
failure leaves CFG = 0 and touches nothing else but STATUS (R182), so the command concludes from the
state with CFG cleared. -/
def execSetcfg (n : BitVec 16) (iw fw : BitVec 5) (s : State) : Host.Outcome State Fault Refusal :=
  finish { s with cfg := Cfg.unconfigured } do
    require (sizeLegal s.params n.toNat) .invalidSize
    require (iw != 0#5 && fw != 0#5) .invalidWidth
    pure { s with cfg := Cfg.make n iw fw }

/-- LDC: pair p <- entry j of the selected buffer, tags and raws copied unchanged (R183). -/
def execLdc (p : PairNum) (b : BufSel) (j : BitVec 16) (s : State) : Host.Outcome State Fault Refusal :=
  finish s do
    let c ← s.config
    require (j.toNat < c.size) .operandRange
    let e ← writtenPair ((s.buffer b).get (reSlot j.toNat)) ((s.buffer b).get (imSlot j.toNat))
    pure (s.setPair p (some e.1) (some e.2))

/-- STC: entry j of the selected buffer <- pair p, tags and raws copied unchanged (R184). -/
def execStc (p : PairNum) (b : BufSel) (j : BitVec 16) (s : State) : Host.Outcome State Fault Refusal :=
  finish s do
    let c ← s.config
    require (j.toNat < c.size) .operandRange
    let e ← s.pairOperand p
    let _ ← commonTag e.1 [e.2]
    pure (s.setBuffer b ((s.buffer b).putEntry j.toNat (some e.1) (some e.2)))

end Sys2Proof.Machine
end

