-- ==== Sys2Proof/Machine/Scalar.lean ====
section
/-! DEFINITION. FXADD, FXSUB, FXNEG, FXMUL, FXSUBU, FXMULU (43_fixed_point.md R144 to R154). -/

namespace Sys2Proof.Machine

/-- The shape of a two-operand R-format command: the operand check of R155, then V[rd] takes the
result at the common tag. -/
def State.binary (s : State) (rd ra rb : Reg) (f : Tag → Word → Word → Check Word) : Check State := do
  let a ← s.operand ra
  let b ← s.operand rb
  let t ← commonTag a [b]
  let r ← f t a.raw b.raw
  pure (s.setReg rd (some { tag := t, raw := r }))

/-- FXADD (R144). -/
def execFxadd (rd ra rb : Reg) (s : State) : Host.Outcome State Fault Refusal :=
  finish s (s.binary rd ra rb fun t a b => .ok (fxAdd t.width a b))

/-- FXSUB (R146). -/
def execFxsub (rd ra rb : Reg) (s : State) : Host.Outcome State Fault Refusal :=
  finish s (s.binary rd ra rb fun t a b => .ok (fxSub t.width a b))

/-- FXNEG (R148). -/
def execFxneg (rd ra : Reg) (s : State) : Host.Outcome State Fault Refusal :=
  finish s do
    let a ← s.operand ra
    pure (s.setReg rd (some { tag := a.tag, raw := fxNeg a.tag.width a.raw }))

/-- FXMUL (R152). -/
def execFxmul (rd ra rb : Reg) (s : State) : Host.Outcome State Fault Refusal :=
  finish s (s.binary rd ra rb fun t a b => .ok (fxMul t a b))

/-- FXSUBU (R150). -/
def execFxsubu (rd ra rb : Reg) (s : State) : Host.Outcome State Fault Refusal :=
  finish s (s.binary rd ra rb fun t a b => fxSubu s.params.usubChecked t.width a b)

/-- FXMULU (R154). -/
def execFxmulu (rd ra rb : Reg) (s : State) : Host.Outcome State Fault Refusal :=
  finish s (s.binary rd ra rb fun t a b => .ok (fxMulu t a b))

end Sys2Proof.Machine
end

