-- ==== Sys2Proof/Machine/Twiddle.lean ====
section
/-! DEFINITION. The bit-reversal function, the twiddle ROM, and BITREV and TWID (40_bitrev_twiddle.md
R90 to R99). -/

namespace Sys2Proof.Machine

/-- rev_w(j) = sum over b in 0..w-1 of j[b] * 2^(w-1-b) (R90). -/
def rev (w j : Nat) : Nat := ((List.range w).map fun b => (j.testBit b).toNat * 2 ^ (w - 1 - b)).sum

/-- Compares the dyadic number a / 2^e with cos(2*pi*k / 2^L), exactly, for an angle in [0, pi]. Where
the cosine and the number have the same sign, their squares decide, and with 2x^2 - 1 and
cos(2t) = 2cos(t)^2 - 1 the question is the same one at the doubled angle; an angle past pi is folded
back by cos(2*pi - t) = cos(t). At L = 0 the angle is 0 and the cosine is 1. (R95: evaluated exactly on
the reals; log entry 7.) -/
def cmpCos : Nat → Nat → Int → Nat → Ordering
  | 0, _, a, e => compare a ((2 ^ e : Nat) : Int)
  | L + 1, k, a, e =>
    if 2 * k ≤ 2 ^ L then
      if a < 0 then .lt else cmpCos L k (2 * (a * a) - ((2 ^ (2 * e) : Nat) : Int)) (2 * e)
    else
      if 0 ≤ a then .gt
      else (cmpCos L (2 ^ L - k) (2 * (a * a) - ((2 ^ (2 * e) : Nat) : Int)) (2 * e)).swap

/-- The numerator over 2^(F+1) of the least magnitude that the quantiser sends to `n` or above: n/2^F
when the magnitude is truncated, (n - 1/2)/2^F when it is rounded to nearest (R162). -/
def roundingPoint : Twq → Nat → Int
  | .trunc, n => 2 * (n : Int)
  | .nearest, n => 2 * (n : Int) - 1

/-- The quantised magnitude floor(m) or floor(m + 1/2) of R162 for m = cos(2*pi*k / 2^L) * 2^F, with
0 <= 4k <= 2^L: the greatest n in [0, 2^F] whose rounding point the cosine reaches. -/
def cosMagnitude (q : Twq) (f L k : Nat) : Nat :=
  greatest (fun n => cmpCos L k (roundingPoint q n) (f + 1) != .gt) (f + 1) 0

/-- q(cos(2*pi*k / 2^L)) for k < 2^L / 2 (R95): past the quarter turn the cosine is the negative of that
of the mirrored angle. -/
def romRe (q : Twq) (t : Tag) (L k : Nat) : Word :=
  if 4 * k ≤ 2 ^ L then wrap t.width (cosMagnitude q t.frac L k)
  else wrap t.width (-(cosMagnitude q t.frac L (2 ^ L / 2 - k)))

/-- q(-sin(2*pi*k / 2^L)) for k < 2^L / 2 (R95): the sine is the cosine of the distance from the
quarter turn, and the angle is counted in half steps so that the quarter turn is a whole number. -/
def romIm (q : Twq) (t : Tag) (L k : Nat) : Word :=
  wrap t.width (-(cosMagnitude q t.frac (L + 1) (if 4 * k ≤ 2 ^ L then 2 ^ L / 2 - 2 * k else 2 * k - 2 ^ L / 2)))

/-- ROM(N, I, F, k) with N = 2^L (R95; log entry 8). -/
def rom (q : Twq) (t : Tag) (L k : Nat) : Cx := { re := romRe q t L k, im := romIm q t L k }

/-- BITREV: RES0 <- rev_w(j), for a width in [1, 16] and an index below 2^w (R92). -/
def execBitrev (w : BitVec 5) (j : BitVec 16) (s : State) : Host.Outcome State Fault Refusal :=
  finish s do
    require (1 ≤ w.toNat && w.toNat ≤ 16) .operandRange
    require (j.toNat < 2 ^ w.toNat) .operandRange
    pure { s with res0 := BitVec.ofNat 64 (rev w.toNat j.toNat) }

/-- TWID: pair p <- ROM(N, I, F, k) with cfgTag (R98). -/
def execTwid (p : PairNum) (k : BitVec 16) (s : State) : Host.Outcome State Fault Refusal :=
  finish s do
    let c ← s.config
    require (k.toNat < c.size / 2) .operandRange
    pure (s.setPairRaw p c.tag (rom s.params.twq c.tag c.stages k.toNat))

end Sys2Proof.Machine
end

