-- ==== Sys2Proof/Machine/Transform.lean ====
section
/-! DEFINITION. Butterfly addressing, the input permutation, one stage, and the whole transform: ADDRGEN,
PERMUTE, STAGE, FFT (41_butterfly_stage.md R110 to R117). -/

namespace Sys2Proof.Machine

/-- addr1(s, i) (R110). -/
def addr1 (s i : Nat) : Nat := (((i >>> s) <<< 1) <<< s) + (i &&& (2 ^ s - 1))

/-- addr2(s, i) (R110). -/
def addr2 (s i : Nat) : Nat := addr1 s i + 2 ^ s

/-- tidx(L, s, i) (R110). -/
def tidx (L s i : Nat) : Nat := (i &&& (2 ^ s - 1)) <<< (L - s - 1)

/-- The raw pair of entry j (R115: the snapshot X). -/
def Memory.rawEntry (m : Memory TWord) (j : Nat) : Cx := { re := m.raw (reSlot j), im := m.raw (imSlot j) }

/-- Entry j <- c, both words tagged `t`. -/
def Memory.putRawEntry (m : Memory TWord) (j : Nat) (t : Tag) (c : Cx) : Memory TWord :=
  m.putEntry j (some { tag := t, raw := c.re }) (some { tag := t, raw := c.im })

/-- One copy of PERMUTE: OUT[rev_L(i)] <- IN[i], both words (R113). -/
def permuteOne (L : Nat) (inb out : Memory TWord) (i : Nat) : Memory TWord :=
  out.putEntry (rev L i) (inb.get (reSlot i)) (inb.get (imSlot i))

/-- The body of PERMUTE (R113). -/
def permuteBody (L n : Nat) (inb out : Memory TWord) : Memory TWord :=
  (List.range n).foldl (permuteOne L inb) out

/-- One butterfly of a stage: it reads the snapshot `x` and writes its two results into `y` (R115). -/
def stageOne (q : Twq) (t : Tag) (L s : Nat) (x y : Memory TWord) (i : Nat) : Memory TWord :=
  let r := bfly t (x.rawEntry (addr1 s i)) (x.rawEntry (addr2 s i)) (rom q t L (tidx L s i))
  (y.putRawEntry (addr1 s i) t r.1).putRawEntry (addr2 s i) t r.2

/-- The body of STAGE: all N/2 butterflies, every one reading the entries as they were at the start
(R114, R115). -/
def stageBody (q : Twq) (t : Tag) (L n : Nat) (x : Memory TWord) (s : Nat) : Memory TWord :=
  (List.range (n / 2)).foldl (stageOne q t L s x) x

/-- All stages in order, 0 to L - 1 (R116). -/
def allStages (q : Twq) (t : Tag) (L n : Nat) (x : Memory TWord) : Memory TWord :=
  (List.range L).foldl (stageBody q t L n) x

/-- ADDRGEN: RES0, RES1, RES2 <- addr1, addr2, tidx (R112). -/
def execAddrgen (st : BitVec 5) (i : BitVec 16) (s : State) : Host.Outcome State Fault Refusal :=
  finish s do
    let c ← s.config
    require (st.toNat < c.stages) .operandRange
    require (i.toNat < c.size / 2) .operandRange
    pure { s with
      res0 := BitVec.ofNat 64 (addr1 st.toNat i.toNat)
      res1 := BitVec.ofNat 64 (addr2 st.toNat i.toNat)
      res2 := BitVec.ofNat 64 (tidx c.stages st.toNat i.toNat) }

/-- PERMUTE: INBUF into OUTBUF in bit-reversed order (R113). -/
def execPermute (s : State) : Host.Outcome State Fault Refusal :=
  finish s do
    let c ← s.config
    checkBlock s.inbuf c.size c.tag
    pure { s with outbuf := permuteBody c.stages c.size s.inbuf s.outbuf }

/-- STAGE: every butterfly of one stage, in place on OUTBUF (R115). -/
def execStage (st : BitVec 5) (s : State) : Host.Outcome State Fault Refusal :=
  finish s do
    let c ← s.config
    require (st.toNat < c.stages) .operandRange
    checkBlock s.outbuf c.size c.tag
    pure { s with outbuf := stageBody s.params.twq c.tag c.stages c.size s.outbuf st.toNat }

/-- FFT: PERMUTE's checks and body, then STAGE's body for every stage; the stages' own checks always
pass there (R116; log entry 14). -/
def execFft (s : State) : Host.Outcome State Fault Refusal :=
  finish s do
    let c ← s.config
    checkBlock s.inbuf c.size c.tag
    pure { s with
      outbuf := allStages s.params.twq c.tag c.stages c.size
        (permuteBody c.stages c.size s.inbuf s.outbuf) }

end Sys2Proof.Machine
end

