-- ==== Sys2Proof/Machine/Spectrum.lean ====
section
/-! DEFINITION. The magnitude and power spectrum extractor and SPECTRUM (44_spectrum.md R170 to R174). -/

namespace Sys2Proof.Machine

/-- P = re*re + im*im on the two's-complement readings (R171, R173). -/
def power (w : Nat) (c : Cx) : Nat := (sint w c.re * sint w c.re + sint w c.im * sint w c.im).toNat

/-- The words (lo, hi) of one bin: MAG (R171), REAL (R172) or POWER (R173). Mode 3 is never asked for
(R82); the last arm is POWER's. -/
def binWords (mode : BitVec 2) (w : Nat) (c : Cx) : Word × Word :=
  if mode = 0#2 then (BitVec.ofNat 64 (isqrt (power w c)), 0#64)
  else if mode = 1#2 then (c.re, 0#64)
  else (BitVec.ofNat 64 (power w c), BitVec.ofNat 64 (power w c / 2 ^ 64))

/-- SPEC[k] takes the words of bin k (R174). -/
def spectrumOne (mode : BitVec 2) (w : Nat) (out : Memory TWord) (sp : Memory Word) (k : Nat) : Memory Word :=
  let r := binWords mode w (out.rawEntry k)
  sp.putEntry k (some r.1) (some r.2)

/-- The body of SPECTRUM: bins 0 to N/2 - 1 (R170, R174). -/
def spectrumBody (mode : BitVec 2) (w n : Nat) (out : Memory TWord) (sp : Memory Word) : Memory Word :=
  (List.range (n / 2)).foldl (spectrumOne mode w out) sp

/-- SPECTRUM (R174). The decoder never gives mode 3; a command built with it is illegal (R82; log
entry 10). -/
def execSpectrum (mode : BitVec 2) (s : State) : Host.Outcome State Fault Refusal :=
  finish s do
    require (legalMode mode) .illegalCommand
    let c ← s.config
    checkBlock s.outbuf (c.size / 2) c.tag
    pure { s with spec := spectrumBody mode c.tag.width c.size s.outbuf s.spec }

end Sys2Proof.Machine
end

