-- ==== Sys2Proof/Machine/Dispatch.lean ====
section
/-! DEFINITION. One arm per command: the meaning of each (30_encoding.md R80). -/

namespace Sys2Proof.Machine

def exec (i : Instr) (s : State) : Host.Outcome State Fault Refusal :=
  match i with
  | .nop => Sys2Proof.Machine.execNop s
  | .setcfg n iw fw => Sys2Proof.Machine.execSetcfg n iw fw s
  | .fxadd rd ra rb => Sys2Proof.Machine.execFxadd rd ra rb s
  | .fxsub rd ra rb => Sys2Proof.Machine.execFxsub rd ra rb s
  | .fxneg rd ra => Sys2Proof.Machine.execFxneg rd ra s
  | .fxmul rd ra rb => Sys2Proof.Machine.execFxmul rd ra rb s
  | .fxsubu rd ra rb => Sys2Proof.Machine.execFxsubu rd ra rb s
  | .fxmulu rd ra rb => Sys2Proof.Machine.execFxmulu rd ra rb s
  | .cmul p1 p2 p3 => Sys2Proof.Machine.execCmul p1 p2 p3 s
  | .bfly p1 p2 p3 => Sys2Proof.Machine.execBfly p1 p2 p3 s
  | .bitrev w j => Sys2Proof.Machine.execBitrev w j s
  | .addrgen st j => Sys2Proof.Machine.execAddrgen st j s
  | .twid p k => Sys2Proof.Machine.execTwid p k s
  | .ldc p b j => Sys2Proof.Machine.execLdc p b j s
  | .stc p b j => Sys2Proof.Machine.execStc p b j s
  | .permute => Sys2Proof.Machine.execPermute s
  | .stage st => Sys2Proof.Machine.execStage st s
  | .fft => Sys2Proof.Machine.execFft s
  | .spectrum mode => Sys2Proof.Machine.execSpectrum mode s

end Sys2Proof.Machine
end

