-- ==== Sys2Proof/Machine/Flags.lean ====
section
/-! DEFINITION. The registers as the host reads them: STATUS, CFG and VTAG as 64-bit words (10_state.md
R24, R26, R37). The core has no other flags (R39). -/

namespace Sys2Proof.Machine

/-- The numeric codes (60_exceptions.md R200). -/
def ErrCode.code : ErrCode → BitVec 4
  | .ok => 0#4
  | .invalidSize => 1#4
  | .invalidWidth => 2#4
  | .widthMismatch => 3#4
  | .uninitializedOperand => 4#4
  | .notConfigured => 5#4
  | .operandRange => 6#4
  | .illegalCommand => 7#4
  | .underflow => 8#4

/-- A field of a 64-bit register whose lowest bit is bit `lo`, every other bit 0. -/
def regPart {n : Nat} (x : BitVec n) (lo : Nat) : Word := x.setWidth 64 <<< lo

/-- STATUS: LASTERR 3:0, FIRSTERR 7:4, CONFIGURED 8 (equal to CFG.VALID), BUSY 9, zero above (R26). -/
def State.statusWord (s : State) : Word :=
  regPart s.status.lastErr.code 0 ||| regPart s.status.firstErr.code 4 |||
    regPart (BitVec.ofBool s.cfg.valid) 8 ||| regPart (BitVec.ofBool s.status.busy) 9

/-- CFG: N 15:0, FW 20:16, IW 25:21, VALID 26, LOG2N 30:27, zero above (R24). -/
def Cfg.word (c : Cfg) : Word :=
  regPart c.n 0 ||| regPart c.fw 16 ||| regPart c.iw 21 ||| regPart (BitVec.ofBool c.valid) 26 |||
    regPart c.log2n 27

/-- VTAGk: for a register that is not EMPTY, FW 20:16, IW 25:21, bit 26 = 1, zero elsewhere; for an
EMPTY one 0 (R37). -/
def vtagWord : Option TWord → Word
  | some w => regPart w.tag.fw 16 ||| regPart w.tag.iw 21 ||| regPart 1#1 26
  | none => 0#64

end Sys2Proof.Machine
end

