-- ==== Sys2Proof/Machine/Window.lean ====
section
/-! DEFINITION. The host window: address decode, host reads, host data writes and STATUS writes
(20_memory.md R50 to R60; 45_control.md R186 to R188). -/

namespace Sys2Proof.Machine

/-- What an aligned address of the window names (R51). -/
inductive Location where
  | cmd
  | status
  | cfg
  | res0
  | res1
  | res2
  | v (r : Reg)
  | vtag (r : Reg)
  | inbuf (slot : Nat)
  | outbuf (slot : Nat)
  | spec (slot : Nat)
  | reserved
  deriving DecidableEq, Repr

/-- A buffer address: the slot is (a - B) >> 3, the entry (a - B) >> 4 is checked against the buffer's
capacity (R52). -/
def bufferSlot (base entries a : Nat) (mk : Nat → Location) : Location :=
  if (a - base) / 16 < entries then mk ((a - base) / 8) else .reserved

/-- A register address in a block of sixteen from `base` (R51). -/
def blockReg (base a : Nat) : Reg := Fin.ofNat 16 ((a - base) / 8)

/-- The registers of the window, below the buffers (R51). -/
def registerAt (a : Nat) : Location :=
  if a = 0x000000 then .cmd
  else if a = 0x000008 then .status
  else if a = 0x000010 then .cfg
  else if a = 0x000018 then .res0
  else if a = 0x000020 then .res1
  else if a = 0x000028 then .res2
  else if a < 0x000100 then .reserved
  else if a < 0x000180 then .v (blockReg 0x000100 a)
  else if a < 0x000200 then .vtag (blockReg 0x000180 a)
  else .reserved

/-- The address map (R51, R52), for an aligned address. -/
def locate (p : Params) (addr : Addr) : Location :=
  let a := addr.toNat
  if a < 0x100000 then registerAt a
  else if a < 0x200000 then bufferSlot 0x100000 p.nmax a .inbuf
  else if a < 0x300000 then bufferSlot 0x200000 p.nmax a .outbuf
  else bufferSlot 0x300000 (p.nmax / 2) a .spec

/-- An access the interface defines: 8 bytes, aligned (R55). -/
def insideInterface (addr : Addr) (size : Nat) : Bool := size == 8 && addr.toNat % 8 == 0

/-- What a read returns: a value of the window, or an unspecified one (R187). -/
inductive ReadValue where
  | known (w : Word)
  | unspecified
  deriving DecidableEq, Repr

/-- A tagged word reads as its raw pattern, zero-extended; an EMPTY one is unspecified (R187). -/
def readTagged : Option TWord → ReadValue
  | some w => .known w.raw
  | none => .unspecified

/-- A valid SPEC word reads as itself; an invalid one is unspecified (R187). -/
def readSpec : Option Word → ReadValue
  | some w => .known w
  | none => .unspecified

/-- What a host read of a location returns (R187). -/
def State.readLocation (s : State) : Location → ReadValue
  | .cmd => .known 0#64
  | .status => .known s.statusWord
  | .cfg => .known s.cfg.word
  | .res0 => .known s.res0
  | .res1 => .known s.res1
  | .res2 => .known s.res2
  | .v r => readTagged (s.reg r)
  | .vtag r => .known (vtagWord (s.reg r))
  | .inbuf k => readTagged (s.inbuf.get k)
  | .outbuf k => readTagged (s.outbuf.get k)
  | .spec k => readSpec (s.spec.get k)
  | .reserved => .known 0#64

/-- The host takes the value of its read: a known one as it is, an unspecified one as the next free
value (R187; log entry 3). Nothing of the core changes (R59). -/
def State.giveToHost (s : State) : ReadValue → State
  | .known w => { s with host := { s.host with returned := s.host.returned ++ [w] } }
  | .unspecified =>
    { s with host :=
        { s.host with
          returned := s.host.returned ++ [Config.freeRead s.host.draws]
          draws := s.host.draws + 1 } }

/-- An aligned 8-byte read (R187). -/
def State.hostRead (s : State) (addr : Addr) : State := s.giveToHost (s.readLocation (locate s.params addr))

/-- The tagged word a host data write stores: cfgTag and the low W bits of the datum (R186). -/
def dataWord (c : Cfg) (d : Word) : TWord := { tag := c.tag, raw := wrap c.tag.width (uint d) }

/-- A host data write to a slot: it needs CFG, and ends as a command does (R186, R203). `store` puts
the word into the slot. -/
def State.dataWrite (s : State) (d : Word) (store : TWord → State) : State :=
  s.conclude do
    let c ← s.config
    pure (store (dataWord c d))

/-- An aligned 8-byte write to a location other than CMD (R27, R54, R56, R186, R188). -/
def State.writeLocation (s : State) (d : Word) : Location → State
  | .cmd => s
  | .status => if d.getLsbD 0 then s.clearErrors else s
  | .cfg => s
  | .res0 => s
  | .res1 => s
  | .res2 => s
  | .v r => s.dataWrite d fun w => s.setReg r (some w)
  | .vtag _ => s
  | .inbuf k => s.dataWrite d fun w => { s with inbuf := s.inbuf.put k (some w) }
  | .outbuf k => s.dataWrite d fun w => { s with outbuf := s.outbuf.put k (some w) }
  | .spec _ => s
  | .reserved => s

end Sys2Proof.Machine
end

