-- ==== Sys2Proof/Machine/Issue.lean ====
section
/-! DEFINITION. What each host action does to the core (70_reset_and_hazards.md R224), a command's issue
by a CMD write among them (45_control.md R185). -/

namespace Sys2Proof.Machine

/-- A write of `d` to CMD: the command it decodes to runs; an illegal word fails with IllegalCommand
(30_encoding.md R70, R81, R82; R185). -/
def issue (d : Word) (s : State) : Host.Outcome State Fault Refusal :=
  match decodeData d with
  | .ok i => exec i s
  | .error _ => finish s (.error .illegalCommand)

/-- An access that the host may make now: one the interface defines (R55), and while BUSY = 1 only a
read of STATUS (R223). -/
def guardAccess (s : State) (addr : Addr) (size : Nat) (allowedWhileBusy : Bool)
    (k : Host.Outcome State Fault Refusal) : Host.Outcome State Fault Refusal :=
  if insideInterface addr size then
    if s.status.busy && !allowedWhileBusy then .refused .accessWhileBusy else k
  else .refused .accessOutsideInterface

/-- A host write (R185, R186, R188). -/
def hostWrite (s : State) (addr : Addr) (d : Word) : Host.Outcome State Fault Refusal :=
  if locate s.params addr = .cmd then issue d s
  else .next (s.writeLocation d (locate s.params addr))

/-- One action of the world outside, performed whole (R21, R58, R224). -/
def perform (s : State) : HostAction → Host.Outcome State Fault Refusal
  | .read addr size =>
    guardAccess s addr size (locate s.params addr = .status) (.next (s.hostRead addr))
  | .write addr size d => guardAccess s addr size false (hostWrite s addr d)
  | .reset => .next s.platformReset

/-- The actions still to come, less the first. -/
def State.takeAction (s : State) (rest : List HostAction) : State :=
  { s with host := { s.host with pending := rest } }

/-- The host's next action is performed; with none pending the core is idle and holds its state
(60_exceptions.md R216, 70_reset_and_hazards.md R221; log entry 1). -/
def transition (s : State) : Host.Outcome State Fault Refusal :=
  match s.host.pending with
  | [] => .next s
  | a :: rest => perform (s.takeAction rest) a

end Sys2Proof.Machine
end

