-- ==== Sys2Proof/Machine/Step.lean ====
section
/-! DEFINITION. One step: one transition of the host's window (10_state.md R21). -/

namespace Sys2Proof.Machine

/-- One step of the machine: the host's next access, whole (R21). -/
def step (s : State) : Host.Outcome State Fault Refusal := transition s

/-- `s` with the CMD write of the command word `w` as the host's very next action, and with BUSY = 0,
which that write needs (R185, R223). The core fetches nothing (R22): a command comes to it as such a
write, put into the host's actions from outside (log entries 1 and 13). -/
def State.withFetchWord (s : State) (nbits w : Nat) : State :=
  { s with
    status := { s.status with busy := false }
    host := { s.host with pending := .write 0x000000#22 8 (tableData nbits w) :: s.host.pending } }

end Sys2Proof.Machine
end

