-- ==== Sys2Proof/Machine/HostCall.lean ====
section
/-! DEFINITION. The host actions programs are written in (30_encoding.md R85) and the source's call
contract as a host procedure (45_control.md R189). The samples are numbers of any ordered field with a
floor, the reals and the rationals among them (log entry 15). -/

namespace Sys2Proof.Machine

/-- `wr A, D` (R85). -/
def wr (addr : Addr) (d : Word) : HostAction := .write addr 8 d

/-- `rd A` (R85). -/
def rd (addr : Addr) : HostAction := .read addr 8

/-- `cmd <insn>` (R85). -/
def cmd (i : Instr) : HostAction := wr 0x000000#22 (encodeData i)

/-- `wait`: one read of STATUS, because BUSY is 0 in every state the model exposes (R85). -/
def wait : HostAction := rd 0x000008#22

/-- `clr` (R85). -/
def clr : HostAction := wr 0x000008#22 1#64

section
variable {K : Type} [Field K] [LinearOrder K] [FloorRing K]

/-- `ldv vk, x`, at the tag `t` (R85). -/
def ldv (q : Twq) (t : Tag) (k : Reg) (x : K) : HostAction :=
  wr (BitVec.ofNat 22 (0x000100 + 8 * k.val)) (quantise q t x)

/-- `ldin j, x, y`, at the tag `t` (R85). -/
def ldin (q : Twq) (t : Tag) (j : Nat) (x y : K) : List HostAction :=
  [wr (BitVec.ofNat 22 (0x100000 + 16 * j)) (quantise q t x),
   wr (BitVec.ofNat 22 (0x100008 + 16 * j)) (quantise q t y)]

/-- `ldin j, Re(samples[j]), Im(samples[j])` for every sample, the first one at entry `j` (R189). -/
def loadSamples (q : Twq) (t : Tag) : Nat → List (K × K) → List HostAction
  | _, [] => []
  | j, x :: rest => ldin q t j x.1 x.2 ++ loadSamples q t (j + 1) rest

end

/-- The host's actions performed one after another (70_reset_and_hazards.md R225). -/
def runActions : List HostAction → State → Host.Outcome State Fault Refusal
  | [], s => .next s
  | a :: rest, s =>
    match perform s a with
    | .next t => runActions rest t
    | .fault r => .fault r
    | .refused r => .refused r

/-- How the call ends: with an error of a code of R200, with its result, or at an access the model
refuses. The first two carry the state that the call leaves, on which the host goes on, with SPECTRUM
for instance (R189). -/
inductive CallResult where
  | fail (code : BitVec 4) (s : State)
  | result (values : List (ℚ × ℚ)) (raws : List (Word × Word)) (s : State)
  | stopped (r : Refusal)
  deriving DecidableEq, Repr

/-- The call goes on with `k` after the host's actions `l`. -/
def andThen (l : List HostAction) (s : State) (k : State → CallResult) : CallResult :=
  match runActions l s with
  | .next t => k t
  | .fault r => nomatch r
  | .refused r => .stopped r

/-- The value of the host's latest read; 0 before its first. -/
def lastRead (s : State) : Word := s.host.returned.getLast?.getD 0#64

/-- A command, `wait`, and `e <- rd STATUS`; a LASTERR other than 0 fails the call (R189). -/
def checkedCommand (i : Instr) (s : State) (k : State → CallResult) : CallResult :=
  andThen [cmd i, wait, rd 0x000008#22] s fun t =>
    let lastErr := (lastRead t).extractLsb' 0 4
    if lastErr = 0#4 then k t else .fail lastErr t

/-- The reads of OUT[k], `re` then `im`, for k in 0..n-1 (R189). -/
def readOut (n : Nat) : List HostAction :=
  (List.range n).flatMap fun k =>
    [rd (BitVec.ofNat 22 (0x200000 + 16 * k)), rd (BitVec.ofNat 22 (0x200008 + 16 * k))]

/-- A flat list of words as (re, im) pairs. -/
def pairUp : List Word → List (Word × Word)
  | re :: im :: rest => (re, im) :: pairUp rest
  | _ => []

/-- The last part of the call: the results are read and decoded (R189). The words read are those
returned since `s`. -/
def readResult (n : Nat) (t : Tag) (s : State) : CallResult :=
  andThen (readOut n) s fun u =>
    let raws := pairUp (u.host.returned.drop s.host.returned.length)
    .result (raws.map fun p => (valueS t p.1, valueS t p.2)) raws u

/-- N passes the host's check of the size: at least 2, a power of two, below 2^16 (R189). -/
def sizeInRange (n : Int) : Bool := 2 ≤ n && 2 ^ Nat.log2 n.toNat == n.toNat && n < 65536

/-- A width passes the host's check: 0 < w < 32 (R189). -/
def widthInRange (w : Int) : Bool := 0 < w && w < 32

/-- `compute_fft_fixed(sampleN, samples, integerWidth, fractionWidth)` (R189), on a core in state `s`.
The numbers are any integers, and the samples any numbers of an ordered field with a floor: rationals
where the call is evaluated, reals in statements (log entry 15). -/
def computeFftFixed {K : Type} [Field K] [LinearOrder K] [FloorRing K]
    (n : Int) (samples : List (K × K)) (i f : Int) (s : State) : CallResult :=
  if !sizeInRange n then .fail ErrCode.invalidSize.code s
  else if !(widthInRange i && widthInRange f) then .fail ErrCode.invalidWidth.code s
  else if (samples.length : Int) ≠ n then .fail ErrCode.invalidSize.code s
  else
    let t : Tag := { iw := BitVec.ofInt 5 i, fw := BitVec.ofInt 5 f }
    checkedCommand (.setcfg (BitVec.ofInt 16 n) t.iw t.fw) s fun s1 =>
      andThen (loadSamples s.params.twq t 0 samples) s1 fun s2 =>
        checkedCommand .fft s2 fun s3 => readResult n.toNat t s3

end Sys2Proof.Machine
end

