-- ==== Sys2Proof/Machine/HostView.lean ====
section
/-! DEFINITION. Host-side views of what the core holds: the rendering of a raw word (43_fixed_point.md
R164) and the frequency axis and spectrum sequence (44_spectrum.md R175, R176). No command computes
them. -/

namespace Sys2Proof.Machine

/-- bin_k: exactly `k` binary digits, most significant first (R164). -/
def binDigits (k n : Nat) : String :=
  String.ofList ((List.range k).map fun i => if n.testBit (k - 1 - i) then '1' else '0')

/-- render(raw): width, sign bit, the other integer bits, the fraction bits (R164). -/
def render (t : Tag) (raw : Word) : String :=
  toString t.width ++ "'b" ++ binDigits 1 (raw.toNat / 2 ^ (t.width - 1)) ++ "_" ++
    binDigits (t.iw.toNat - 1) (raw.toNat / 2 ^ t.frac) ++ "_" ++ binDigits t.frac raw.toNat

/-- freq(k) = k * sampleRate / N; with no sample rate, sampleRate = N (R175). -/
def freq (n : Nat) (sampleRate : Option ℚ) (k : Nat) : ℚ := k * sampleRate.getD n / n

/-- The host's decoding of one bin's words (lo, hi) for the mode that wrote them (R176). -/
def binValue (mode : BitVec 2) (t : Tag) (lo hi : Word) : ℚ :=
  if mode = 0#2 then valueU t lo
  else if mode = 1#2 then valueS t lo
  else ((lo.toNat + 2 ^ 64 * hi.toNat : Nat) : ℚ) / ((2 ^ (2 * t.frac) : Nat) : ℚ)

/-- The ordered sequence the display sink is given: (freq(k), value(k)) for k in 0..N/2-1, from the
words the host read (R176). -/
def spectrumSequence (n : Nat) (sampleRate : Option ℚ) (mode : BitVec 2) (t : Tag)
    (words : List (Word × Word)) : List (ℚ × ℚ) :=
  (words.take (n / 2)).zipIdx.map fun p => (freq n sampleRate p.2, binValue mode t p.1.1 p.1.2)

end Sys2Proof.Machine
end

