-- ==== Sys2Proof/Safety.lean ====
section
/-! DEFINITION. The terms claims use: what a legal state is, what a command may write, which errors it
checks for and in which order, and the values of the transform as plain functions. -/

namespace Sys2Proof.Machine

/-! ### Legal states -/

/-- A raw pattern has no bit at or above its width (10_state.md R31). -/
def TWord.masked (w : TWord) : Bool := w.raw.toNat < 2 ^ w.tag.width

/-- A tagged word as R28 has it: a legal tag and a masked pattern. -/
def TWord.wf (w : TWord) : Bool := w.masked && decide w.tag.legal

/-- CFG as R24 has it: with VALID = 1, N = 2^LOG2N within the capacity and legal widths; with VALID = 0
every other field 0. -/
abbrev Cfg.wf (p : Params) (c : Cfg) : Prop :=
  if c.valid then c.size = 2 ^ c.stages ∧ 1 ≤ c.stages ∧ c.stages ≤ p.lognMax ∧ c.tag.legal
  else c = Cfg.unconfigured

/-- FIRSTERR holds a code whenever LASTERR does: it is the first non-zero code since the last clear
(R26). -/
abbrev Status.consistent (st : Status) : Prop := st.lastErr ≠ .ok → st.firstErr ≠ .ok

/-- INBUF or OUTBUF: canonical, within its NMAX entries, every word legal (R28, R33, R34). -/
abbrev dataBufferWf (p : Params) (m : Memory TWord) : Prop :=
  m.wf ∧ ∀ c ∈ m.cells, c.1 < 2 * p.nmax ∧ c.2.wf = true

/-- SPEC: canonical and within its NMAX/2 entries (R35). -/
abbrev specBufferWf (p : Params) (m : Memory Word) : Prop := m.wf ∧ ∀ c ∈ m.cells, c.1 < 2 * (p.nmax / 2)

/-- The machine's invariant. -/
structure State.Inv (s : State) : Prop where
  params : s.params.wf
  cfg : s.cfg.wf s.params
  status : s.status.consistent
  busy : s.status.busy = false
  regs : ∀ r : Reg, ∀ w ∈ s.reg r, w.wf = true
  inbuf : dataBufferWf s.params s.inbuf
  outbuf : dataBufferWf s.params s.outbuf
  spec : specBufferWf s.params s.spec

/-- Every stored raw pattern is masked to its word's own width (R31). -/
structure State.AllMasked (s : State) : Prop where
  regs : ∀ r : Reg, ∀ w ∈ s.reg r, w.masked = true
  inbuf : ∀ c ∈ s.inbuf.cells, c.2.masked = true
  outbuf : ∀ c ∈ s.outbuf.cells, c.2.masked = true

/-- CFG is valid and its fields are what SETCFG writes: the transform commands may run (R24, R25). -/
abbrev State.configured (s : State) : Prop :=
  s.cfg.valid = true ∧ s.cfg.size = 2 ^ s.cfg.stages ∧ 1 ≤ s.cfg.stages

/-- Entries 0 to n - 1 hold two words of the tag `t` each: what PERMUTE, STAGE, FFT and SPECTRUM read
(R113, R115, R174). -/
abbrev blockReady (m : Memory TWord) (n : Nat) (t : Tag) : Prop :=
  ∀ j < n, hasTag t (m.get (reSlot j)) = true ∧ hasTag t (m.get (imSlot j)) = true

end Sys2Proof.Machine

namespace Sys2Proof

open Sys2Proof.Machine

/-! ### What a command may write -/

/-- The registers a command writes: its destination register or pair, and BFLY's two pairs. -/
def Instr.destRegs : Instr → List Reg
  | .nop => []
  | .setcfg _ _ _ => []
  | .fxadd rd _ _ => [rd]
  | .fxsub rd _ _ => [rd]
  | .fxneg rd _ => [rd]
  | .fxmul rd _ _ => [rd]
  | .fxsubu rd _ _ => [rd]
  | .fxmulu rd _ _ => [rd]
  | .cmul p1 _ _ => [reReg p1, imReg p1]
  | .bfly p1 p2 _ => [reReg p1, imReg p1, reReg p2, imReg p2]
  | .bitrev _ _ => []
  | .addrgen _ _ => []
  | .twid p _ => [reReg p, imReg p]
  | .ldc p _ _ => [reReg p, imReg p]
  | .stc _ _ _ => []
  | .permute => []
  | .stage _ => []
  | .fft => []
  | .spectrum _ => []

/-- The command writes slot `k` of INBUF: STC with b = 0 alone, the two slots of its entry (R33,
R184). -/
def Instr.storesIn (i : Instr) (k : Nat) : Prop :=
  match i with
  | .nop => False
  | .setcfg _ _ _ => False
  | .fxadd _ _ _ => False
  | .fxsub _ _ _ => False
  | .fxneg _ _ => False
  | .fxmul _ _ _ => False
  | .fxsubu _ _ _ => False
  | .fxmulu _ _ _ => False
  | .cmul _ _ _ => False
  | .bfly _ _ _ => False
  | .bitrev _ _ => False
  | .addrgen _ _ => False
  | .twid _ _ => False
  | .ldc _ _ _ => False
  | .stc _ b j => b = .inbuf ∧ (k = reSlot j.toNat ∨ k = imSlot j.toNat)
  | .permute => False
  | .stage _ => False
  | .fft => False
  | .spectrum _ => False

/-- The command writes slot `k` of OUTBUF, `n` being N: STC with b = 1, the two slots of its entry;
PERMUTE, STAGE and FFT, the slots of entries 0 to N - 1 (R34, R113, R115, R116, R184). -/
def Instr.storesOut (n : Nat) (i : Instr) (k : Nat) : Prop :=
  match i with
  | .nop => False
  | .setcfg _ _ _ => False
  | .fxadd _ _ _ => False
  | .fxsub _ _ _ => False
  | .fxneg _ _ => False
  | .fxmul _ _ _ => False
  | .fxsubu _ _ _ => False
  | .fxmulu _ _ _ => False
  | .cmul _ _ _ => False
  | .bfly _ _ _ => False
  | .bitrev _ _ => False
  | .addrgen _ _ => False
  | .twid _ _ => False
  | .ldc _ _ _ => False
  | .stc _ b j => b = .outbuf ∧ (k = reSlot j.toNat ∨ k = imSlot j.toNat)
  | .permute => k < 2 * n
  | .stage _ => k < 2 * n
  | .fft => k < 2 * n
  | .spectrum _ => False

/-- The command writes slot `k` of SPEC, `n` being N: SPECTRUM, the slots of bins 0 to N/2 - 1 (R35,
R174). -/
def Instr.storesSpec (n : Nat) (i : Instr) (k : Nat) : Prop :=
  match i with
  | .nop => False
  | .setcfg _ _ _ => False
  | .fxadd _ _ _ => False
  | .fxsub _ _ _ => False
  | .fxneg _ _ => False
  | .fxmul _ _ _ => False
  | .fxsubu _ _ _ => False
  | .fxmulu _ _ _ => False
  | .cmul _ _ _ => False
  | .bfly _ _ _ => False
  | .bitrev _ _ => False
  | .addrgen _ _ => False
  | .twid _ _ => False
  | .ldc _ _ _ => False
  | .stc _ _ _ => False
  | .permute => False
  | .stage _ => False
  | .fft => False
  | .spectrum _ => k < 2 * (n / 2)

/-- SETCFG, the only command that writes CFG (R24). -/
def Instr.isSetcfg : Instr → Bool
  | .nop => false
  | .setcfg _ _ _ => true
  | .fxadd _ _ _ => false
  | .fxsub _ _ _ => false
  | .fxneg _ _ => false
  | .fxmul _ _ _ => false
  | .fxsubu _ _ _ => false
  | .fxmulu _ _ _ => false
  | .cmul _ _ _ => false
  | .bfly _ _ _ => false
  | .bitrev _ _ => false
  | .addrgen _ _ => false
  | .twid _ _ => false
  | .ldc _ _ _ => false
  | .stc _ _ _ => false
  | .permute => false
  | .stage _ => false
  | .fft => false
  | .spectrum _ => false

/-- BITREV, which writes RES0 (R32). -/
def Instr.isBitrev : Instr → Bool
  | .nop => false
  | .setcfg _ _ _ => false
  | .fxadd _ _ _ => false
  | .fxsub _ _ _ => false
  | .fxneg _ _ => false
  | .fxmul _ _ _ => false
  | .fxsubu _ _ _ => false
  | .fxmulu _ _ _ => false
  | .cmul _ _ _ => false
  | .bfly _ _ _ => false
  | .bitrev _ _ => true
  | .addrgen _ _ => false
  | .twid _ _ => false
  | .ldc _ _ _ => false
  | .stc _ _ _ => false
  | .permute => false
  | .stage _ => false
  | .fft => false
  | .spectrum _ => false

/-- ADDRGEN, which writes RES0, RES1 and RES2 (R32). -/
def Instr.isAddrgen : Instr → Bool
  | .nop => false
  | .setcfg _ _ _ => false
  | .fxadd _ _ _ => false
  | .fxsub _ _ _ => false
  | .fxneg _ _ => false
  | .fxmul _ _ _ => false
  | .fxsubu _ _ _ => false
  | .fxmulu _ _ _ => false
  | .cmul _ _ _ => false
  | .bfly _ _ _ => false
  | .bitrev _ _ => false
  | .addrgen _ _ => true
  | .twid _ _ => false
  | .ldc _ _ _ => false
  | .stc _ _ _ => false
  | .permute => false
  | .stage _ => false
  | .fft => false
  | .spectrum _ => false

end Sys2Proof

namespace Sys2Proof.Machine

/-- A command that wrote the registers `rs` and ended well: every other register, and everything else
but LASTERR, is as before. -/
abbrev wroteRegs (s t : State) (rs : List Reg) : Prop :=
  (∀ r, r ∉ rs → t.reg r = s.reg r) ∧
    t = { s with v := t.v, status := { s.status with lastErr := .ok } }

/-- A command that wrote OUTBUF, entries 0 to n - 1 alone, and ended well (R113, R115, R116). -/
abbrev wroteOut (s t : State) (n : Nat) : Prop :=
  (∀ k, 2 * n ≤ k → t.outbuf.get k = s.outbuf.get k) ∧
    t = { s with outbuf := t.outbuf, status := { s.status with lastErr := .ok } }

/-- A command that wrote SPEC, bins 0 to n - 1 alone, and ended well (R174). -/
abbrev wroteSpec (s t : State) (n : Nat) : Prop :=
  (∀ k, 2 * n ≤ k → t.spec.get k = s.spec.get k) ∧
    t = { s with spec := t.spec, status := { s.status with lastErr := .ok } }

/-! ### Errors and their order -/

/-- Some of the registers is EMPTY (R30). -/
def someEmpty (s : State) (rs : List Reg) : Prop := ∃ r ∈ rs, s.reg r = none

/-- Two of the registers hold words of different tags (R30). -/
def tagsDiffer (s : State) (rs : List Reg) : Prop :=
  ∃ r ∈ rs, ∃ r' ∈ rs, ∃ a b, s.reg r = some a ∧ s.reg r' = some b ∧ a.tag ≠ b.tag

/-- Both registers of a pair. -/
def pairRegs (p : PairNum) : List Reg := [reReg p, imReg p]

/-- Entry `j` has an EMPTY word. -/
def entryEmpty (m : Memory TWord) (j : Nat) : Prop := m.get (reSlot j) = none ∨ m.get (imSlot j) = none

/-- Entry `j` has a word whose tag is not `t`. -/
def entryForeign (t : Tag) (m : Memory TWord) (j : Nat) : Prop :=
  (∃ w, m.get (reSlot j) = some w ∧ w.tag ≠ t) ∨ (∃ w, m.get (imSlot j) = some w ∧ w.tag ≠ t)

/-- The conditions of the operand check of R30, codes 4 and 3. -/
def operandConditions (s : State) (rs : List Reg) : List (ErrCode × Prop) :=
  [(.uninitializedOperand, someEmpty s rs), (.widthMismatch, tagsDiffer s rs)]

/-- The conditions of the buffer checks, codes 4 and 3 (R113, R115, R174). -/
def blockConditions (m : Memory TWord) (n : Nat) (t : Tag) : List (ErrCode × Prop) :=
  [(.uninitializedOperand, ∃ j < n, entryEmpty m j), (.widthMismatch, ∃ j < n, entryForeign t m j)]

/-- CFG.VALID = 0, code 5 (R25). -/
def configCondition (s : State) : ErrCode × Prop := (.notConfigured, s.cfg.valid = false)

/-- The errors each command checks for, in the order of 60_exceptions.md R201, each with its
condition. A SPECTRUM command built with mode 3 is illegal before anything else (R82, R201). -/
def errorConditions (s : State) : Instr → List (ErrCode × Prop)
  | .nop => []
  | .setcfg n iw fw =>
    [(.invalidSize, ¬ ∃ k, 1 ≤ k ∧ n.toNat = 2 ^ k ∧ 2 ^ k ≤ s.params.nmax),
     (.invalidWidth, iw = 0#5 ∨ fw = 0#5)]
  | .fxadd _ ra rb => operandConditions s [ra, rb]
  | .fxsub _ ra rb => operandConditions s [ra, rb]
  | .fxneg _ ra => [(.uninitializedOperand, someEmpty s [ra])]
  | .fxmul _ ra rb => operandConditions s [ra, rb]
  | .fxsubu _ ra rb =>
    operandConditions s [ra, rb] ++
      [(.underflow, s.params.usubChecked = true ∧
        ∃ a b, s.reg ra = some a ∧ s.reg rb = some b ∧ a.raw.toNat < b.raw.toNat)]
  | .fxmulu _ ra rb => operandConditions s [ra, rb]
  | .cmul _ p2 p3 => operandConditions s (pairRegs p2 ++ pairRegs p3)
  | .bfly p1 p2 p3 => operandConditions s (pairRegs p1 ++ pairRegs p2 ++ pairRegs p3)
  | .bitrev w j => [(.operandRange, w.toNat < 1 ∨ 16 < w.toNat ∨ 2 ^ w.toNat ≤ j.toNat)]
  | .addrgen st i =>
    [configCondition s, (.operandRange, s.cfg.stages ≤ st.toNat ∨ s.cfg.size / 2 ≤ i.toNat)]
  | .twid _ k => [configCondition s, (.operandRange, s.cfg.size / 2 ≤ k.toNat)]
  | .ldc _ b j =>
    [configCondition s, (.operandRange, s.cfg.size ≤ j.toNat),
     (.uninitializedOperand, entryEmpty (s.buffer b) j.toNat)]
  | .stc p _ j =>
    [configCondition s, (.operandRange, s.cfg.size ≤ j.toNat)] ++ operandConditions s (pairRegs p)
  | .permute => configCondition s :: blockConditions s.inbuf s.cfg.size s.cfg.tag
  | .stage st =>
    [configCondition s, (.operandRange, s.cfg.stages ≤ st.toNat)] ++
      blockConditions s.outbuf s.cfg.size s.cfg.tag
  | .fft => configCondition s :: blockConditions s.inbuf s.cfg.size s.cfg.tag
  | .spectrum mode =>
    [(.illegalCommand, mode = 3#2), configCondition s] ++
      blockConditions s.outbuf (s.cfg.size / 2) s.cfg.tag

/-- The code of the first condition that holds, or 0 (R202: exactly one code, the first in order). -/
def reports (e : ErrCode) : List (ErrCode × Prop) → Prop
  | [] => e = .ok
  | (c, p) :: rest => (p ∧ e = c) ∨ (¬ p ∧ reports e rest)

/-! ### The transform as plain functions of a sequence -/

/-- Output `j` of stage `s` on the sequence `x`, for any butterfly and any twiddle table (R110, R115):
position `j` belongs to the butterfly whose first operand is `j` with bit `s` cleared, and is its second
result if that bit was set. -/
def stageOver {α : Type} (butterfly : α → α → α → α × α) (twiddle : Nat → α) (L s : Nat) (x : Nat → α)
    (j : Nat) : α :=
  let lo := if j.testBit s then j - 2 ^ s else j
  let r := butterfly (x lo) (x (lo + 2 ^ s)) (twiddle (j % 2 ^ s * 2 ^ (L - s - 1)))
  if j.testBit s then r.2 else r.1

/-- The whole transform of the sequence `x`: the bit-reversed input through every stage (R116). -/
def transformOver {α : Type} (butterfly : α → α → α → α × α) (twiddle : Nat → α) (L : Nat)
    (x : Nat → α) : Nat → α :=
  (List.range L).foldl (fun y s => stageOver butterfly twiddle L s y) (fun j => x (rev L j))

/-- The values FFT computes: the core's butterfly (R132) and its ROM (R95). -/
def fftValues (q : Twq) (t : Tag) (L : Nat) (x : Nat → Cx) : Nat → Cx :=
  transformOver (bfly t) (rom q t L) L x

/-- The ideal twiddle factor w[k] = exp(-i*2*pi*k/N) of size N = 2^L (R94). -/
noncomputable def idealTwiddle (L k : Nat) : ℂ := Complex.exp (-(2 * Real.pi * k / 2 ^ L : ℝ) * Complex.I)

/-- REF_N(x) for N = 2^L, which is not hardware: the algorithm of `fftValues` with exact complex
arithmetic and the ideal twiddle factors, nothing quantised or wrapped (R118; log entry 15). -/
noncomputable def referenceTransform (L : Nat) (x : Nat → ℂ) : Nat → ℂ :=
  transformOver (fun a b w => (a + w * b, a - w * b)) (idealTwiddle L) L x

/-- Commands run one after another, each on the state the one before left. -/
def runCommands : List Instr → State → Host.Outcome State Fault Refusal
  | [], s => .next s
  | i :: rest, s =>
    match exec i s with
    | .next t => runCommands rest t
    | .fault r => .fault r
    | .refused r => .refused r

end Sys2Proof.Machine
end

