-- ==== Sys2Proof/Certificates/Slice0/Obligations.lean ====
section
/-! DEFINITION. The statements for the provers, each with the rule of spec/ it formalises. -/

open Sys2Proof Sys2Proof.Machine

/-! ### Encoding -/

/-- R86: every example of the encoding table, in both directions. -/
def Obligations.EncodingExamplesDecode : Prop :=
  ∀ p ∈ ([(.nop, 0x00000000#32), (.setcfg 8#16 8#5 8#5, 0x05080008#32),
      (.setcfg 6#16 8#5 8#5, 0x05080006#32), (.setcfg 2#16 4#5 0#5, 0x04800002#32),
      (.fxadd 2 0 1, 0x08804000#32), (.fxneg 3 2, 0x10C80000#32), (.cmul 2 0 1, 0x41020000#32),
      (.bfly 0 1 2, 0x44140000#32), (.bitrev 3#5 6#16, 0x60600006#32),
      (.addrgen 1#5 3#16, 0x64200003#32), (.twid 2 1#16, 0x69000001#32),
      (.ldc 1 .outbuf 3#16, 0x80C00003#32), (.stc 1 .outbuf 3#16, 0x84C00003#32),
      (.stage 2#5, 0xA4400000#32), (.fft, 0xA8000000#32), (.spectrum 2#2, 0xC2000000#32)] :
      List (Instr × CmdWord)),
    encode p.1 = p.2 ∧ decodeWord p.2 = .ok p.1

/-- Decoding what the encoder wrote gives the command back, as a command word and as the datum of a CMD
write, for every command with every operand value (30_encoding.md R70 to R80). -/
def Obligations.DecodeOfEncodeIsIdentity : Prop :=
  ∀ i : Instr, i.wellFormed = true →
    decodeWord (encode i) = .ok i ∧ decodeData (encodeData i) = .ok i

/-- A word that decodes is the encoding of a well-formed command: no two words decode to the same
command, and no bit of a word is ignored (R70, R79, R82). -/
def Obligations.DecodedWordsReencode : Prop :=
  (∀ (c : CmdWord) (i : Instr), decodeWord c = .ok i → i.wellFormed = true ∧ encode i = c) ∧
    ∀ (d : Word) (i : Instr), decodeData d = .ok i → i.wellFormed = true ∧ encodeData i = d

/-- R81: every word matches exactly one row of R80 and passes the value checks of R82, or is illegal; an
illegal word fails with IllegalCommand and changes nothing but STATUS. -/
def Obligations.EveryWordMatchesOneRowOrIsIllegal : Prop :=
  ∀ c : CmdWord,
    (∃ r ∈ opcodeMap, r.matchesWord c = true ∧ r.valuesLegal c = true ∧
      (∀ r' ∈ opcodeMap, r'.matchesWord c = true → r' = r) ∧
      ∃ i, decodeWord c = .ok i ∧ i.mnemonic = r.mnemonic) ∨
    ((∀ r ∈ opcodeMap, ¬ (r.matchesWord c = true ∧ r.valuesLegal c = true)) ∧
      ∀ s : State, ∃ t, issue (c.zeroExtend 64) s = .next t ∧
        t = { s with status := t.status } ∧ t.status.lastErr = .illegalCommand)

/-- R82: the illegal data of a CMD write are exactly those the rule lists, and each reports
IllegalCommand. `c` is the command word and `op` its opcode. -/
def Obligations.IllegalWordsReportIllegalCommand : Prop :=
  ∀ d : Word,
    let c : CmdWord := d.extractLsb' 0 32
    let op : Nat := (bits c 26 6).toNat
    let illegal : Prop :=
      d.extractLsb' 32 32 ≠ 0#32 ∨
      (0x08 ≤ op ∧ op ≤ 0x0F) ∨ (0x12 ≤ op ∧ op ≤ 0x17) ∨ (0x1B ≤ op ∧ op ≤ 0x1F) ∨
      (0x22 ≤ op ∧ op ≤ 0x27) ∨ (0x2B ≤ op ∧ op ≤ 0x2F) ∨ (0x31 ≤ op ∧ op ≤ 0x3F) ∨
      ((op = 0x00 ∨ op = 0x28 ∨ op = 0x2A) ∧ bits c 0 26 ≠ 0#26) ∨
      ((op = 0x02 ∨ op = 0x03 ∨ op = 0x05 ∨ op = 0x06 ∨ op = 0x07) ∧ bits c 0 14 ≠ 0#14) ∨
      (op = 0x04 ∧ (bits c 0 14 ≠ 0#14 ∨ bits c 14 4 ≠ 0#4)) ∨
      ((op = 0x10 ∨ op = 0x11) ∧ bits c 0 17 ≠ 0#17) ∨
      ((op = 0x18 ∨ op = 0x19) ∧ bits c 16 5 ≠ 0#5) ∨
      (op = 0x29 ∧ (bits c 16 5 ≠ 0#5 ∨ bits c 0 16 ≠ 0#16)) ∨
      ((op = 0x20 ∨ op = 0x21) ∧ bits c 16 6 ≠ 0#6) ∨
      (op = 0x1A ∧ (bits c 16 6 ≠ 0#6 ∨ bits c 22 1 ≠ 0#1)) ∨
      (op = 0x30 ∧ (bits c 0 24 ≠ 0#24 ∨ bits c 24 2 = 3#2))
    ((∃ e, decodeData d = .error e) ↔ illegal) ∧
      (illegal → ∀ s : State, issue d s = .next (s.raise .illegalCommand))

/-! ### The step -/

/-- R21, R185, R224 and log entry 1: a step performs the host's next action on the state with that action
taken off; when it is a CMD write whose datum decodes to `i`, that is `exec i`, and when the datum is
illegal, raising IllegalCommand. A state prepared by `withFetchWord` runs the command of its word in the
very next step. The platform's reset keeps the host's side (log entry 12). -/
def Obligations.StepRunsTheDecodedCommand : Prop :=
  (∀ (s : State) (a : HostAction) (rest : List HostAction), s.host.pending = a :: rest →
    step s = perform (s.takeAction rest) a) ∧
  (∀ (s : State) (rest : List HostAction) (d : Word),
    s.host.pending = .write 0x000000#22 8 d :: rest → s.status.busy = false →
    (∀ i, decodeData d = .ok i → step s = exec i (s.takeAction rest)) ∧
    ∀ e, decodeData d = .error e → step s = .next ((s.takeAction rest).raise .illegalCommand)) ∧
  (∀ (s : State) (w : Nat) (i : Instr), decodeTableWord 32 w = some i →
    step (s.withFetchWord 32 w) = exec i { s with status := { s.status with busy := false } }) ∧
  ∀ s : State, ∃ t, perform s .reset = .next t ∧ t.host = s.host

/-- R216, R221 and log entry 1: with no host action pending the core holds its state. -/
def Obligations.IdleCoreHoldsItsState : Prop :=
  ∀ s : State, s.host.pending = [] → step s = .next s

/-- R205, R209, R225: a step never faults, every command answers a next state, and a step is refused
only for an access that R55 leaves undefined or one that R223 forbids while BUSY = 1. -/
def Obligations.StepStopsOnlyOnUndefinedAccesses : Prop :=
  (∀ (i : Instr) (s : State), ∃ t, exec i s = .next t) ∧
  (∀ (s : State) (r : Fault), step s ≠ .fault r) ∧
  ∀ (s : State) (r : Refusal), step s = .refused r →
    ∃ (addr : Addr) (size : Nat),
      (s.host.pending.head? = some (.read addr size) ∨
        ∃ d, s.host.pending.head? = some (.write addr size d)) ∧
      ((r = .accessOutsideInterface ∧ ¬ (size = 8 ∧ addr.toNat % 8 = 0)) ∨
        (r = .accessWhileBusy ∧ s.status.busy = true))

/-! ### Reset and invariants -/

/-- R41, R220: what reset leaves, at `State.reset` and whenever the platform applies its reset, which does
not change the synthesis parameters. -/
def Obligations.ResetLeavesTheStatedValues : Prop :=
  let asStated (t : State) : Prop :=
    t.cfg.word = 0#64 ∧ t.statusWord = 0#64 ∧ t.res0 = 0#64 ∧ t.res1 = 0#64 ∧ t.res2 = 0#64 ∧
    (∀ r, t.reg r = none) ∧ (∀ k, t.inbuf.get k = none) ∧ (∀ k, t.outbuf.get k = none) ∧
    ∀ k, t.spec.get k = none
  asStated State.reset ∧
    ∀ s : State, ∃ t, perform s .reset = .next t ∧ asStated t ∧ t.params = s.params

/-- The state after reset meets the invariant. -/
def Obligations.ResetMeetsInvariant : Prop := State.reset.Inv

/-- Every step keeps the invariant: CFG holds a checked configuration or 0 (R24, R188), every stored word
has a legal tag and a masked pattern (R28, R31), the buffers are canonical and within their capacity
(R33 to R35), FIRSTERR holds a code whenever LASTERR does (R26), BUSY is 0 (R21). -/
def Obligations.EveryStepKeepsInvariant : Prop :=
  ∀ s t : State, s.Inv → step s = .next t → t.Inv

/-- R31: a stored raw never has a bit set at or above its width, whatever step is taken. -/
def Obligations.StoredRawsStayMasked : Prop :=
  ∀ s t : State, s.AllMasked → step s = .next t → t.AllMasked

/-! ### Errors and frames, over all commands -/

/-- R204: a failing command, an illegal word among them, or host data write changes no state except
STATUS; a failed SETCFG also sets CFG to 0. -/
def Obligations.FailingCommandChangesOnlyStatus : Prop :=
  (∀ (i : Instr) (s t : State), exec i s = .next t → t.status.lastErr ≠ .ok →
    t = if i.isSetcfg then { s with cfg := Cfg.unconfigured, status := t.status }
      else { s with status := t.status }) ∧
  (∀ (s : State) (d : Word) (e : Reject), decodeData d = .error e →
    ∃ t, issue d s = .next t ∧ t = { s with status := t.status }) ∧
  ∀ (s : State) (d : Word) (loc : Location), (s.writeLocation d loc).status.lastErr ≠ .ok →
    s.writeLocation d loc = { s with status := (s.writeLocation d loc).status }

/-- R203: a command, an illegal word among them, and a host data write report in LASTERR; FIRSTERR takes
a code only if it was 0; a success leaves it. -/
def Obligations.ErrorsAreReportedInStatus : Prop :=
  let reported (s t : State) : Prop :=
    t.status.busy = s.status.busy ∧
      ((t.status.lastErr = .ok ∧ t.status.firstErr = s.status.firstErr) ∨
        (t.status.lastErr ≠ .ok ∧
          t.status.firstErr = if s.status.firstErr = .ok then t.status.lastErr else s.status.firstErr))
  (∀ (i : Instr) (s t : State), exec i s = .next t → reported s t) ∧
  (∀ (d : Word) (s t : State), issue d s = .next t → reported s t) ∧
  ∀ (s : State) (d : Word),
    (∀ r, reported s (s.writeLocation d (.v r))) ∧
    (∀ k, reported s (s.writeLocation d (.inbuf k))) ∧
    ∀ k, reported s (s.writeLocation d (.outbuf k))

/-- R201, R202: the code a command reports is that of the first condition, in the order of R201's table,
that holds, and 0 if none does; and so for a host data write. That SPECTRUM built as a term with mode 3,
which no word decodes to, reports IllegalCommand is the model's choice (log entry 10). -/
def Obligations.CommandsReportTheFirstError : Prop :=
  (∀ (i : Instr) (s t : State), exec i s = .next t → reports t.status.lastErr (errorConditions s i)) ∧
  ∀ (s : State) (d : Word),
    (∀ r, reports (s.writeLocation d (.v r)).status.lastErr [configCondition s]) ∧
    (∀ k, reports (s.writeLocation d (.inbuf k)).status.lastErr [configCondition s]) ∧
    ∀ k, reports (s.writeLocation d (.outbuf k)).status.lastErr [configCondition s]

/-- Every register is unchanged by every command but its destination register or pair, and BFLY's two
pairs (R29, R74, R75, R98, R131, R133, R183). -/
def Obligations.RegisterFrame : Prop :=
  ∀ (i : Instr) (s t : State), exec i s = .next t → ∀ r, r ∉ i.destRegs → t.reg r = s.reg r

/-- Every slot of every buffer is unchanged by every command but the slots it stores to: STC the two of
its entry; PERMUTE, STAGE and FFT those of OUT[0..N-1]; SPECTRUM those of SPEC[0..N/2-1] (R33, R34, R35,
R184, R228). -/
def Obligations.BufferFrame : Prop :=
  ∀ (i : Instr) (s t : State), s.cfg.wf s.params → exec i s = .next t →
    (∀ k, ¬ i.storesIn k → t.inbuf.get k = s.inbuf.get k) ∧
    (∀ k, ¬ i.storesOut s.cfg.size k → t.outbuf.get k = s.outbuf.get k) ∧
    ∀ k, ¬ i.storesSpec s.cfg.size k → t.spec.get k = s.spec.get k

/-- Only SETCFG writes CFG (R24), only BITREV and ADDRGEN write RES0, only ADDRGEN RES1 and RES2 (R32);
no command changes the synthesis parameters (R9 to R11). BUSY, which R21 and R223 keep 0 in every exposed
state, and the host's side are the model's own here: that no command changes them is its choice (log
entries 1, 3 and 5). -/
def Obligations.SpecialStateFrame : Prop :=
  ∀ (i : Instr) (s t : State), exec i s = .next t →
    t.params = s.params ∧ t.host = s.host ∧ t.status.busy = s.status.busy ∧
    (i.isSetcfg = false → t.cfg = s.cfg) ∧
    (i.isBitrev = false → i.isAddrgen = false → t.res0 = s.res0) ∧
    (i.isAddrgen = false → t.res1 = s.res1 ∧ t.res2 = s.res2)

/-! ### Control commands and data movement -/

/-- R180: NOP sets LASTERR to 0 and does nothing else; its only word is 0, and every other word of its
opcode is an IllegalCommand. -/
def Obligations.NopOnlyClearsLasterr : Prop :=
  (∀ s : State, exec .nop s = .next { s with status := { s.status with lastErr := .ok } }) ∧
    (∀ c : CmdWord, decodeWord c = .ok .nop ↔ c = 0x00000000#32) ∧
    ∀ (c : CmdWord) (s : State), bits c 26 6 = 0x00#6 → c ≠ 0x00000000#32 →
      issue (c.zeroExtend 64) s = .next (s.raise .illegalCommand)

/-- R181: a legal SETCFG writes CFG and LASTERR and nothing else (R42). -/
def Obligations.SetcfgWritesCfg : Prop :=
  ∀ (s : State) (n : BitVec 16) (iw fw : BitVec 5) (k : Nat),
    1 ≤ k → n.toNat = 2 ^ k → 2 ^ k ≤ s.params.nmax → iw ≠ 0#5 → fw ≠ 0#5 →
    exec (.setcfg n iw fw) s = .next
      { s with
        cfg := { n := n, fw := fw, iw := iw, valid := true, log2n := BitVec.ofNat 4 k }
        status := { s.status with lastErr := .ok } }

/-- R182: a failed SETCFG leaves CFG = 0, reports the size error before the width error (R181), keeps
everything else, and an FFT after it gets NotConfigured. -/
def Obligations.FailedSetcfgUnconfigures : Prop :=
  ∀ (s : State) (n : BitVec 16) (iw fw : BitVec 5),
    let badSize : Prop := ¬ ∃ k, 1 ≤ k ∧ n.toNat = 2 ^ k ∧ 2 ^ k ≤ s.params.nmax
    badSize ∨ iw = 0#5 ∨ fw = 0#5 →
    ∃ (e : ErrCode) (t u : State),
      (badSize → e = .invalidSize) ∧ (¬ badSize → e = .invalidWidth) ∧
      exec (.setcfg n iw fw) s = .next t ∧
      t = { s with
        cfg := Cfg.unconfigured
        status :=
          { s.status with
            lastErr := e
            firstErr := if s.status.firstErr = .ok then e else s.status.firstErr } } ∧
      exec .fft t = .next u ∧ u = { t with status := u.status } ∧ u.status.lastErr = .notConfigured

/-- R183: LDC copies both words of the entry, tags and raws unchanged, into the pair. -/
def Obligations.LdcLoadsEntry : Prop :=
  ∀ (s : State) (p : PairNum) (b : BufSel) (j : BitVec 16) (x y : TWord),
    s.cfg.valid = true → j.toNat < s.cfg.size →
    (s.buffer b).get (reSlot j.toNat) = some x → (s.buffer b).get (imSlot j.toNat) = some y →
    ∃ t, exec (.ldc p b j) s = .next t ∧ t.reg (reReg p) = some x ∧ t.reg (imReg p) = some y ∧
      wroteRegs s t [reReg p, imReg p]

/-- R184: STC copies both words of the pair, tags and raws unchanged, into the entry; every other slot
and everything else but LASTERR is as before. -/
def Obligations.StcStoresEntry : Prop :=
  ∀ (s : State) (p : PairNum) (b : BufSel) (j : BitVec 16) (x y : TWord),
    s.cfg.valid = true → j.toNat < s.cfg.size →
    s.reg (reReg p) = some x → s.reg (imReg p) = some y → x.tag = y.tag →
    ∃ t, exec (.stc p b j) s = .next t ∧
      (t.buffer b).get (reSlot j.toNat) = some x ∧ (t.buffer b).get (imSlot j.toNat) = some y ∧
      (∀ k, k ≠ reSlot j.toNat → k ≠ imSlot j.toNat → (t.buffer b).get k = (s.buffer b).get k) ∧
      t = { s.setBuffer b (t.buffer b) with status := { s.status with lastErr := .ok } }

/-! ### The fixed-point unit -/

/-- R144, R146, R148 with R143, R145, R147: FXADD, FXSUB and FXNEG compute in W-bit two's complement,
silently wrapping, at the operands' tag, for every choice of registers. -/
def Obligations.FxAddSubNegResults : Prop :=
  ∀ (s : State) (rd ra rb : Reg) (t : Tag) (a b : Word),
    s.reg ra = some { tag := t, raw := a } → s.reg rb = some { tag := t, raw := b } →
    (∃ u, exec (.fxadd rd ra rb) s = .next u ∧ wroteRegs s u [rd] ∧
      u.reg rd = some { tag := t, raw := (a.setWidth t.width + b.setWidth t.width).setWidth 64 }) ∧
    (∃ u, exec (.fxsub rd ra rb) s = .next u ∧ wroteRegs s u [rd] ∧
      u.reg rd = some { tag := t, raw := (a.setWidth t.width - b.setWidth t.width).setWidth 64 }) ∧
    ∃ u, exec (.fxneg rd ra) s = .next u ∧ wroteRegs s u [rd] ∧
      u.reg rd = some { tag := t, raw := (- a.setWidth t.width).setWidth 64 }

/-- R152, R154 with R151, R153: FXMUL on the two's-complement and FXMULU on the unsigned readings: the
product over 2^F, its floor, wrapped to W bits. -/
def Obligations.FxMulResults : Prop :=
  ∀ (s : State) (rd ra rb : Reg) (t : Tag) (a b : Word),
    s.reg ra = some { tag := t, raw := a } → s.reg rb = some { tag := t, raw := b } →
    a.toNat < 2 ^ t.width → b.toNat < 2 ^ t.width →
    (∃ u, exec (.fxmul rd ra rb) s = .next u ∧ wroteRegs s u [rd] ∧
      u.reg rd = some
        { tag := t
          raw := (BitVec.ofInt t.width
            ⌊((a.setWidth t.width).toInt * (b.setWidth t.width).toInt : ℚ) / 2 ^ t.frac⌋).setWidth 64 }) ∧
    ∃ u, exec (.fxmulu rd ra rb) s = .next u ∧ wroteRegs s u [rd] ∧
      u.reg rd = some
        { tag := t, raw := (BitVec.ofInt t.width ⌊(a.toNat * b.toNat : ℚ) / 2 ^ t.frac⌋).setWidth 64 }

/-- R150 with R149: FXSUBU subtracts when the left operand is not below the right, or when USUB_CHECKED
= 0 (then it wraps); with USUB_CHECKED = 1 and an underflow it fails with code 8 and leaves every
register. -/
def Obligations.FxsubuResult : Prop :=
  ∀ (s : State) (rd ra rb : Reg) (t : Tag) (a b : Word),
    s.reg ra = some { tag := t, raw := a } → s.reg rb = some { tag := t, raw := b } →
    (b.toNat ≤ a.toNat ∨ s.params.usubChecked = false →
      ∃ u, exec (.fxsubu rd ra rb) s = .next u ∧ wroteRegs s u [rd] ∧
        u.reg rd = some { tag := t, raw := (a.setWidth t.width - b.setWidth t.width).setWidth 64 }) ∧
    (a.toNat < b.toNat ∧ s.params.usubChecked = true →
      ∃ u, exec (.fxsubu rd ra rb) s = .next u ∧ u = { s with status := u.status } ∧
        u.status.lastErr = .underflow)

/-- R157: the laws of the fixed-point functions at a tag's width, and the rule's counterexamples. -/
def Obligations.FixedPointLaws : Prop :=
  (∀ (t : Tag) (a b c : Word), a.toNat < 2 ^ t.width → b.toNat < 2 ^ t.width → c.toNat < 2 ^ t.width →
    fxAdd t.width (fxAdd t.width a b) c = fxAdd t.width a (fxAdd t.width b c) ∧
    fxAdd t.width a b = fxAdd t.width b a ∧
    fxAdd t.width a 0#64 = a ∧
    fxAdd t.width a (fxNeg t.width a) = 0#64 ∧
    fxSub t.width a b = fxAdd t.width a (fxNeg t.width b) ∧
    fxMul t a b = fxMul t b a ∧
    fxMul t a 0#64 = 0#64 ∧
    (2 ≤ t.iw.toNat → fxMul t a (BitVec.ofNat 64 (2 ^ t.frac)) = a)) ∧
  (let t : Tag := { iw := 8#5, fw := 8#5 };
    fxMul t (fxMul t 0x0080#64 0x0001#64) 0x0200#64 = 0x0000#64 ∧
    fxMul t 0x0080#64 (fxMul t 0x0001#64 0x0200#64) = 0x0001#64 ∧
    fxMul t 0x0080#64 (fxAdd t.width 0x0001#64 0x0001#64) = 0x0001#64 ∧
    fxAdd t.width (fxMul t 0x0080#64 0x0001#64) (fxMul t 0x0080#64 0x0001#64) = 0x0000#64)

/-- R145, R147: subtraction is addition of the negation; negation is the complement plus 1, has 0 and the
most negative pattern as fixed points, and is its own inverse. -/
def Obligations.SubtractionAndNegation : Prop :=
  ∀ (w : Nat) (a b : Word), 1 ≤ w → w ≤ 62 →
    fxSub w a b = wrap w (uint a - uint b) ∧
    fxSub w a b = fxAdd w a (fxNeg w b) ∧
    fxNeg w a = wrap w (uint (~~~ a &&& BitVec.ofNat 64 (2 ^ w - 1)) + 1) ∧
    fxNeg w a = wrap w (((2 ^ w : Nat) : Int) - uint a) ∧
    fxNeg w 0#64 = 0#64 ∧
    fxNeg w (BitVec.ofNat 64 (2 ^ (w - 1))) = BitVec.ofNat 64 (2 ^ (w - 1)) ∧
    (a.toNat < 2 ^ w → fxNeg w (fxNeg w a) = a)

/-- R151: the exact 2W-bit signed product is formed, and the result is its bits W+F-1 .. F. -/
def Obligations.ProductKeepsMiddleBits : Prop :=
  ∀ (t : Tag) (a b : Word), a.toNat < 2 ^ t.width → b.toNat < 2 ^ t.width →
    let product : BitVec (2 * t.width) :=
      (a.setWidth t.width).signExtend (2 * t.width) * (b.setWidth t.width).signExtend (2 * t.width)
    product.toInt = sint t.width a * sint t.width b ∧
    fxMul t a b = wrap t.width ⌊(sint t.width a * sint t.width b : ℚ) / 2 ^ t.frac⌋ ∧
    fxMul t a b = (product.extractLsb' t.frac t.width).setWidth 64

/-- R163: the round trip of the quantiser, its bounds under TRUNC and NEAREST, the wrap of NEAREST at the
top, and the source's examples, for numbers of every ordered field with a floor: the reals that the rule
speaks of, and the rationals that the host's calls are evaluated on. -/
def Obligations.QuantiserRoundTrip : Prop :=
  ∀ (K : Type) [Field K] [LinearOrder K] [IsStrictOrderedRing K] [FloorRing K],
    (∀ (t : Tag) (v : K), t.legal → -(2 ^ (t.iw.toNat - 1)) ≤ v →
      (v ≤ 2 ^ (t.iw.toNat - 1) - 1 / 2 ^ t.frac →
        |(valueS t (quantise .trunc t v) : K) - v| < 1 / 2 ^ t.frac) ∧
      (v < 2 ^ (t.iw.toNat - 1) - 1 / 2 ^ (t.frac + 1) →
        |(valueS t (quantise .nearest t v) : K) - v| ≤ 1 / 2 ^ (t.frac + 1)) ∧
      (2 ^ (t.iw.toNat - 1) - 1 / 2 ^ (t.frac + 1) ≤ v → v < 2 ^ (t.iw.toNat - 1) →
        valueS t (quantise .nearest t v) = -(2 ^ (t.iw.toNat - 1)))) ∧
    ∀ q : Twq,
      let t : Tag := { iw := 8#5, fw := 8#5 }
      quantise q t (7 / 2 : K) = 0x0380#64 ∧ quantise q t (-7 / 2 : K) = 0xFC80#64 ∧
      quantise q t (0 : K) = 0x0000#64 ∧ quantise q t (799 / 100 : K) = 0x07FD#64

/-! ### The complex multiplier and the butterfly -/

/-- R131 with R130: CMUL writes the complex product of the pairs p2 and p3, at their common tag, into the
pair p1, for every choice of pairs. -/
def Obligations.CmulResult : Prop :=
  ∀ (s : State) (p1 p2 p3 : PairNum) (t : Tag) (xr xi yr yi : Word),
    s.reg (reReg p2) = some { tag := t, raw := xr } → s.reg (imReg p2) = some { tag := t, raw := xi } →
    s.reg (reReg p3) = some { tag := t, raw := yr } → s.reg (imReg p3) = some { tag := t, raw := yi } →
    ∃ u, exec (.cmul p1 p2 p3) s = .next u ∧ wroteRegs s u [reReg p1, imReg p1] ∧
      u.reg (reReg p1) = some
        { tag := t, raw := fxSub t.width (fxMul t xr yr) (fxMul t xi yi) } ∧
      u.reg (imReg p1) = some
        { tag := t, raw := fxAdd t.width (fxMul t xr yi) (fxMul t xi yr) }

/-- R133 with R132: BFLY writes a + w*b into the pair p1 and then a - w*b into the pair p2, both from the
old words; where p1 = p2 the second write wins. -/
def Obligations.BflyResult : Prop :=
  ∀ (s : State) (p1 p2 p3 : PairNum) (t : Tag) (ar ai br bi wr wi : Word),
    s.reg (reReg p1) = some { tag := t, raw := ar } → s.reg (imReg p1) = some { tag := t, raw := ai } →
    s.reg (reReg p2) = some { tag := t, raw := br } → s.reg (imReg p2) = some { tag := t, raw := bi } →
    s.reg (reReg p3) = some { tag := t, raw := wr } → s.reg (imReg p3) = some { tag := t, raw := wi } →
    let m := cmul t { re := wr, im := wi } { re := br, im := bi }
    ∃ u, exec (.bfly p1 p2 p3) s = .next u ∧
      wroteRegs s u [reReg p1, imReg p1, reReg p2, imReg p2] ∧
      (p1 ≠ p2 →
        u.reg (reReg p1) = some { tag := t, raw := fxAdd t.width ar m.re } ∧
        u.reg (imReg p1) = some { tag := t, raw := fxAdd t.width ai m.im }) ∧
      u.reg (reReg p2) = some { tag := t, raw := fxSub t.width ar m.re } ∧
      u.reg (imReg p2) = some { tag := t, raw := fxSub t.width ai m.im }

/-- R130: the product is four multiplications, one subtraction and one addition. Before any wrap the real
part lies strictly within 1 unit of the exact one and is 0 or 1 unit above its floor; the imaginary part
lies up to 2 units below the exact one, never above, and is 0 or 1 unit below its floor. -/
def Obligations.CmulWithinUnits : Prop :=
  ∀ (t : Tag) (x y : Cx),
    let f : Int := ((2 ^ t.frac : Nat) : Int)
    let xr := sint t.width x.re
    let xi := sint t.width x.im
    let yr := sint t.width y.re
    let yi := sint t.width y.im
    let re := xr * yr / f - xi * yi / f
    let im := xr * yi / f + xi * yr / f
    cmul t x y =
      { re := fxSub t.width (fxMul t x.re y.re) (fxMul t x.im y.im)
        im := fxAdd t.width (fxMul t x.re y.im) (fxMul t x.im y.re) } ∧
    cmul t x y = { re := wrap t.width re, im := wrap t.width im } ∧
    |re * f - (xr * yr - xi * yi)| < f ∧
    (re = (xr * yr - xi * yi) / f ∨ re = (xr * yr - xi * yi) / f + 1) ∧
    im * f ≤ xr * yi + xi * yr ∧ xr * yi + xi * yr - im * f < 2 * f ∧
    (im = (xr * yi + xi * yr) / f ∨ im = (xr * yi + xi * yr) / f - 1)

/-! ### Bit reversal, addresses and twiddles -/

/-- R92: BITREV writes into RES0 the index with its w low bits in reverse order, zero-extended, and
nothing else. -/
def Obligations.BitrevResult : Prop :=
  ∀ (s : State) (w : BitVec 5) (j : BitVec 16), 1 ≤ w.toNat → w.toNat ≤ 16 → j.toNat < 2 ^ w.toNat →
    ∃ t, exec (.bitrev w j) s = .next t ∧
      (∀ b, t.res0.getLsbD b = (decide (b < w.toNat) && j.getLsbD (w.toNat - 1 - b))) ∧
      t = { s with res0 := t.res0, status := { s.status with lastErr := .ok } }

/-- R112 with R110: ADDRGEN writes the two operand addresses and the twiddle index into RES0, RES1 and
RES2, and nothing else. -/
def Obligations.AddrgenResult : Prop :=
  ∀ (s : State) (st : BitVec 5) (i : BitVec 16),
    s.cfg.valid = true → st.toNat < s.cfg.stages → i.toNat < s.cfg.size / 2 →
    ∃ t, exec (.addrgen st i) s = .next t ∧
      t.res0.toNat = 2 ^ (st.toNat + 1) * (i.toNat / 2 ^ st.toNat) + i.toNat % 2 ^ st.toNat ∧
      t.res1.toNat = t.res0.toNat + 2 ^ st.toNat ∧
      t.res2.toNat = i.toNat % 2 ^ st.toNat * 2 ^ (s.cfg.stages - st.toNat - 1) ∧
      t = { s with
        res0 := t.res0, res1 := t.res1, res2 := t.res2, status := { s.status with lastErr := .ok } }

/-- R98: TWID writes ROM(N, I, F, k) with cfgTag into the pair. The model's ROM takes L = CFG.LOG2N for N;
in a state with VALID = 1 and N not 2^LOG2N, which no run reaches, that is its choice (log entry 8). -/
def Obligations.TwidResult : Prop :=
  ∀ (s : State) (p : PairNum) (k : BitVec 16), s.cfg.valid = true → k.toNat < s.cfg.size / 2 →
    ∃ t, exec (.twid p k) s = .next t ∧ wroteRegs s t [reReg p, imReg p] ∧
      t.reg (reReg p) = some
        { tag := s.cfg.tag, raw := (rom s.params.twq s.cfg.tag s.cfg.stages k.toNat).re } ∧
      t.reg (imReg p) = some
        { tag := s.cfg.tag, raw := (rom s.params.twq s.cfg.tag s.cfg.stages k.toNat).im }

/-- R91: rev_w is a permutation of [0, 2^w) and its own inverse, for every width. -/
def Obligations.BitReversalIsInvolution : Prop :=
  ∀ w j : Nat, j < 2 ^ w →
    rev w j < 2 ^ w ∧ rev w (rev w j) = j ∧ ∃! i, i < 2 ^ w ∧ rev w i = j

/-- R111: addr1 and addr2 insert a 0 and a 1 at bit s; at one stage the pairs cover [0, N) exactly once;
every twiddle index lies in the ROM and is a multiple of 2^(L-s-1); stage 0 uses only w[0] and stage
L - 1 every w[k]. -/
def Obligations.ButterflyPairsPartition : Prop :=
  ∀ L s : Nat, s < L →
    (∀ i, i < 2 ^ (L - 1) →
      (∀ b, (addr1 s i).testBit b = if b < s then i.testBit b else if b = s then false else i.testBit (b - 1)) ∧
      (∀ b, (addr2 s i).testBit b = if b < s then i.testBit b else if b = s then true else i.testBit (b - 1)) ∧
      addr1 s i < 2 ^ L ∧ addr2 s i < 2 ^ L ∧
      tidx L s i < 2 ^ (L - 1) ∧ 2 ^ (L - s - 1) ∣ tidx L s i ∧ (s = 0 → tidx L s i = 0)) ∧
    (∀ j, j < 2 ^ L → ∃! i, i < 2 ^ (L - 1) ∧ (j = addr1 s i ∨ j = addr2 s i)) ∧
    (s = L - 1 → ∀ k, k < 2 ^ (L - 1) → ∃ i, i < 2 ^ (L - 1) ∧ tidx L s i = k)

/-- R95: the ROM entry is the quantiser of R162 applied to the exact real cosine and minus sine. -/
def Obligations.RomQuantisesExactCosAndSin : Prop :=
  ∀ (q : Twq) (t : Tag) (L k : Nat), 1 ≤ L → k < 2 ^ L / 2 →
    rom q t L k =
      { re := quantise q t (Real.cos (2 * Real.pi * k / 2 ^ L))
        im := quantise q t (-Real.sin (2 * Real.pi * k / 2 ^ L)) }

/-- R96, R99: the exact entries, and the I = 1 corner, where the entry for 1 reads as -1. -/
def Obligations.RomExactEntries : Prop :=
  ∀ (q : Twq) (t : Tag) (L : Nat), 1 ≤ L →
    rom q t L 0 = { re := wrap t.width ((2 ^ t.frac : Nat) : Int), im := 0#64 } ∧
    (2 ≤ L → rom q t L (2 ^ L / 4) = { re := 0#64, im := wrap t.width (-((2 ^ t.frac : Nat) : Int)) }) ∧
    (t.iw = 1#5 → valueS t (rom q t L 0).re = -1)

/-! ### The transform -/

/-- R113: PERMUTE copies INBUF into OUTBUF in bit-reversed order, tags and raws, and leaves entries from
N on and everything else. -/
def Obligations.PermuteResult : Prop :=
  ∀ s : State, s.configured → blockReady s.inbuf s.cfg.size s.cfg.tag →
    ∃ t, exec .permute s = .next t ∧ wroteOut s t s.cfg.size ∧
      ∀ i, i < s.cfg.size →
        t.outbuf.get (reSlot (rev s.cfg.stages i)) = s.inbuf.get (reSlot i) ∧
        t.outbuf.get (imSlot (rev s.cfg.stages i)) = s.inbuf.get (imSlot i)

/-- R115: STAGE performs every butterfly of the stage on OUTBUF, each on the entries as they were at the
start, and leaves entries from N on and everything else. -/
def Obligations.StageResult : Prop :=
  ∀ (s : State) (st : BitVec 5), s.configured → st.toNat < s.cfg.stages →
    blockReady s.outbuf s.cfg.size s.cfg.tag →
    ∃ t, exec (.stage st) s = .next t ∧ wroteOut s t s.cfg.size ∧
      ∀ i, i < s.cfg.size / 2 →
        let a1 := addr1 st.toNat i
        let a2 := addr2 st.toNat i
        let w := rom s.params.twq s.cfg.tag s.cfg.stages (tidx s.cfg.stages st.toNat i)
        let m := cmul s.cfg.tag w (s.outbuf.rawEntry a2)
        t.outbuf.get (reSlot a1) = some
          { tag := s.cfg.tag, raw := fxAdd s.cfg.tag.width (s.outbuf.raw (reSlot a1)) m.re } ∧
        t.outbuf.get (imSlot a1) = some
          { tag := s.cfg.tag, raw := fxAdd s.cfg.tag.width (s.outbuf.raw (imSlot a1)) m.im } ∧
        t.outbuf.get (reSlot a2) = some
          { tag := s.cfg.tag, raw := fxSub s.cfg.tag.width (s.outbuf.raw (reSlot a1)) m.re } ∧
        t.outbuf.get (imSlot a2) = some
          { tag := s.cfg.tag, raw := fxSub s.cfg.tag.width (s.outbuf.raw (imSlot a1)) m.im }

/-- R114: within one stage the order of the butterflies does not matter. -/
def Obligations.StageOrderDoesNotMatter : Prop :=
  ∀ (q : Twq) (t : Tag) (L s : Nat) (x : Memory TWord) (l : List Nat), s < L → x.wf →
    l.Perm (List.range (2 ^ L / 2)) → l.foldl (stageOne q t L s x) x = stageBody q t L (2 ^ L) x s

/-- R134: one BFLY on register pairs that hold OUT[addr1], OUT[addr2] and the twiddle reproduces that
butterfly of STAGE bit for bit. -/
def Obligations.BflyReproducesStage : Prop :=
  ∀ (s : State) (st : BitVec 5) (i : Nat) (p1 p2 p3 : PairNum), s.configured →
    st.toNat < s.cfg.stages → i < s.cfg.size / 2 → blockReady s.outbuf s.cfg.size s.cfg.tag → p1 ≠ p2 →
    let a1 := addr1 st.toNat i
    let a2 := addr2 st.toNat i
    let w := rom s.params.twq s.cfg.tag s.cfg.stages (tidx s.cfg.stages st.toNat i)
    s.reg (reReg p1) = s.outbuf.get (reSlot a1) → s.reg (imReg p1) = s.outbuf.get (imSlot a1) →
    s.reg (reReg p2) = s.outbuf.get (reSlot a2) → s.reg (imReg p2) = s.outbuf.get (imSlot a2) →
    s.reg (reReg p3) = some { tag := s.cfg.tag, raw := w.re } →
    s.reg (imReg p3) = some { tag := s.cfg.tag, raw := w.im } →
    ∃ t u, exec (.stage st) s = .next t ∧ exec (.bfly p1 p2 p3) s = .next u ∧
      u.reg (reReg p1) = t.outbuf.get (reSlot a1) ∧ u.reg (imReg p1) = t.outbuf.get (imSlot a1) ∧
      u.reg (reReg p2) = t.outbuf.get (reSlot a2) ∧ u.reg (imReg p2) = t.outbuf.get (imSlot a2)

/-- R116: FFT is bit-identical to PERMUTE followed by STAGE 0, ..., STAGE L - 1 issued one by one: the
whole state, STATUS among it, is the same. -/
def Obligations.FftIsPermuteThenStages : Prop :=
  ∀ s : State, s.configured → blockReady s.inbuf s.cfg.size s.cfg.tag →
    runCommands (.permute :: (List.range s.cfg.stages).map fun k => .stage (BitVec.ofNat 5 k)) s =
      exec .fft s

/-- R116, R117: FFT leaves in OUT[0..N-1], in natural order and with cfgTag, the values of the transform
of the sequence IN[0..N-1]: the bit-reversed input taken through every stage as plain functions of a
sequence. It leaves entries from N on and everything else. -/
def Obligations.FftResult : Prop :=
  ∀ s : State, s.configured → blockReady s.inbuf s.cfg.size s.cfg.tag →
    ∃ t, exec .fft s = .next t ∧ wroteOut s t s.cfg.size ∧
      ∀ j, j < s.cfg.size →
        let y := fftValues s.params.twq s.cfg.tag s.cfg.stages s.inbuf.rawEntry j
        t.outbuf.get (reSlot j) = some { tag := s.cfg.tag, raw := y.re } ∧
        t.outbuf.get (imSlot j) = some { tag := s.cfg.tag, raw := y.im }

/-- R118, R119: the reference transform, which is the core's algorithm with exact complex arithmetic, is
the discrete Fourier transform, and for real input it is conjugate-symmetric. The spec marks the
equality as general knowledge. -/
def Obligations.ReferenceTransformIsDft : Prop :=
  ∀ (L : Nat) (x : Nat → ℂ) (k : Nat), k < 2 ^ L →
    referenceTransform L x k =
      ∑ n ∈ Finset.range (2 ^ L), x n * Complex.exp (-(2 * Real.pi * n * k / 2 ^ L : ℝ) * Complex.I) ∧
    (0 < k → (∀ n, n < 2 ^ L → (x n).im = 0) →
      referenceTransform L x (2 ^ L - k) = star (referenceTransform L x k))

/-! ### The extractor -/

/-- R171, R172: SPECTRUM in mode MAG writes floor(sqrt(re^2 + im^2)), which fits W bits, and in mode REAL
the raw real pattern, each with hi = 0, for bins 0 to N/2 - 1 alone. -/
def Obligations.SpectrumMagAndReal : Prop :=
  ∀ s : State, s.cfg.valid = true → blockReady s.outbuf (s.cfg.size / 2) s.cfg.tag → s.AllMasked →
    (∃ t, exec (.spectrum 0#2) s = .next t ∧ wroteSpec s t (s.cfg.size / 2) ∧
      ∀ k, k < s.cfg.size / 2 → ∃ m : Nat,
        t.spec.get (reSlot k) = some (BitVec.ofNat 64 m) ∧ t.spec.get (imSlot k) = some 0#64 ∧
        (let re := sint s.cfg.tag.width (s.outbuf.raw (reSlot k))
          let im := sint s.cfg.tag.width (s.outbuf.raw (imSlot k))
          (m * m : Int) ≤ re * re + im * im ∧ re * re + im * im < (m + 1) * (m + 1)) ∧
        m ≤ 2 ^ s.cfg.tag.width - 1) ∧
    ∃ t, exec (.spectrum 1#2) s = .next t ∧ wroteSpec s t (s.cfg.size / 2) ∧
      ∀ k, k < s.cfg.size / 2 →
        t.spec.get (reSlot k) = some (s.outbuf.raw (reSlot k)) ∧ t.spec.get (imSlot k) = some 0#64

/-- R173: SPECTRUM in mode POWER writes the exact re^2 + im^2 as a 128-bit number, low half in lo and
high half in hi; it is at most 2^(2W-1), so it never wraps. -/
def Obligations.SpectrumPower : Prop :=
  ∀ s : State, s.cfg.valid = true → blockReady s.outbuf (s.cfg.size / 2) s.cfg.tag → s.AllMasked →
    s.cfg.tag.legal →
    ∃ t, exec (.spectrum 2#2) s = .next t ∧ wroteSpec s t (s.cfg.size / 2) ∧
      ∀ k, k < s.cfg.size / 2 → ∃ lo hi : Word,
        t.spec.get (reSlot k) = some lo ∧ t.spec.get (imSlot k) = some hi ∧
        (let re := sint s.cfg.tag.width (s.outbuf.raw (reSlot k))
          let im := sint s.cfg.tag.width (s.outbuf.raw (imSlot k))
          (lo.toNat + 2 ^ 64 * hi.toNat : Int) = re * re + im * im ∧
          re * re + im * im ≤ 2 ^ (2 * s.cfg.tag.width - 1))

/-! ### The host window -/

/-- R51, R52: what every aligned address of the window names. -/
def Obligations.AddressMap : Prop :=
  ∀ p : Params, p.wf →
    let at_ (a : Nat) : Location := locate p (BitVec.ofNat 22 a)
    (at_ 0x000000 = .cmd ∧ at_ 0x000008 = .status ∧ at_ 0x000010 = .cfg ∧ at_ 0x000018 = .res0 ∧
      at_ 0x000020 = .res1 ∧ at_ 0x000028 = .res2) ∧
    (∀ k : Reg, at_ (0x000100 + 8 * k.val) = .v k ∧ at_ (0x000180 + 8 * k.val) = .vtag k) ∧
    (∀ j, j < p.nmax →
      at_ (0x100000 + 16 * j) = .inbuf (reSlot j) ∧ at_ (0x100008 + 16 * j) = .inbuf (imSlot j) ∧
      at_ (0x200000 + 16 * j) = .outbuf (reSlot j) ∧ at_ (0x200008 + 16 * j) = .outbuf (imSlot j)) ∧
    (∀ k, k < p.nmax / 2 →
      at_ (0x300000 + 16 * k) = .spec (reSlot k) ∧ at_ (0x300008 + 16 * k) = .spec (imSlot k)) ∧
    ∀ a, a % 8 = 0 →
      (0x000030 ≤ a ∧ a < 0x000100) ∨ (0x000200 ≤ a ∧ a < 0x100000) ∨
      (0x100000 + 16 * p.nmax ≤ a ∧ a < 0x200000) ∨ (0x200000 + 16 * p.nmax ≤ a ∧ a < 0x300000) ∨
      (0x300000 + 16 * (p.nmax / 2) ≤ a ∧ a < 0x400000) → at_ a = .reserved

/-- R24, R26, R37, R200: where each field of CFG, STATUS and VTAG stands, that every other bit reads 0, and
the number of each error code. -/
def Obligations.RegisterViews : Prop :=
  (∀ s : State,
    s.statusWord.extractLsb' 0 4 = s.status.lastErr.code ∧
    s.statusWord.extractLsb' 4 4 = s.status.firstErr.code ∧
    s.statusWord.getLsbD 8 = s.cfg.valid ∧ s.statusWord.getLsbD 9 = s.status.busy ∧
    s.statusWord.extractLsb' 10 54 = 0#54) ∧
  (∀ c : Cfg,
    c.word.extractLsb' 0 16 = c.n ∧ c.word.extractLsb' 16 5 = c.fw ∧ c.word.extractLsb' 21 5 = c.iw ∧
    c.word.getLsbD 26 = c.valid ∧ c.word.extractLsb' 27 4 = c.log2n ∧ c.word.extractLsb' 31 33 = 0#33) ∧
  (∀ w : TWord,
    (vtagWord (some w)).extractLsb' 0 16 = 0#16 ∧ (vtagWord (some w)).extractLsb' 16 5 = w.tag.fw ∧
    (vtagWord (some w)).extractLsb' 21 5 = w.tag.iw ∧ (vtagWord (some w)).getLsbD 26 = true ∧
    (vtagWord (some w)).extractLsb' 27 37 = 0#37) ∧
  vtagWord none = 0#64 ∧
  (ErrCode.ok.code = 0#4 ∧ ErrCode.invalidSize.code = 1#4 ∧ ErrCode.invalidWidth.code = 2#4 ∧
    ErrCode.widthMismatch.code = 3#4 ∧ ErrCode.uninitializedOperand.code = 4#4 ∧
    ErrCode.notConfigured.code = 5#4 ∧ ErrCode.operandRange.code = 6#4 ∧
    ErrCode.illegalCommand.code = 7#4 ∧ ErrCode.underflow.code = 8#4)

/-- R186: a host data write to V[k], IN[j] or OUT[j] stores cfgTag and the low W bits of the datum into
the slot and sets LASTERR to 0, for every j below NMAX; with CFG not valid it fails with NotConfigured and
the slot is unchanged. -/
def Obligations.DataWritesStoreMaskedWords : Prop :=
  ∀ (s : State) (d : Word), s.params.wf → s.status.busy = false →
    let w : TWord := { tag := s.cfg.tag, raw := (d.setWidth s.cfg.tag.width).setWidth 64 }
    let st : Status := { s.status with lastErr := .ok }
    let outcome (addr : Nat) (stored : State) : Prop :=
      (s.cfg.valid = true → perform s (.write (BitVec.ofNat 22 addr) 8 d) = .next stored) ∧
      (s.cfg.valid = false → perform s (.write (BitVec.ofNat 22 addr) 8 d) = .next (s.raise .notConfigured))
    (∀ k : Reg, outcome (0x000100 + 8 * k.val) { s.setReg k (some w) with status := st }) ∧
    ∀ j, j < s.params.nmax →
      outcome (0x100000 + 16 * j) { s with inbuf := s.inbuf.put (reSlot j) (some w), status := st } ∧
      outcome (0x100008 + 16 * j) { s with inbuf := s.inbuf.put (imSlot j) (some w), status := st } ∧
      outcome (0x200000 + 16 * j) { s with outbuf := s.outbuf.put (reSlot j) (some w), status := st } ∧
      outcome (0x200008 + 16 * j) { s with outbuf := s.outbuf.put (imSlot j) (some w), status := st }

/-- R60, R187: a host read of V, INBUF or OUTBUF just after a host data write there returns the low W
bits of the datum, zero-extended. -/
def Obligations.WriteThenReadReturnsIt : Prop :=
  ∀ (s : State) (addr : Addr) (d : Word), insideInterface addr 8 = true → s.status.busy = false →
    s.cfg.valid = true →
    (∃ r, locate s.params addr = .v r) ∨ (∃ k, locate s.params addr = .inbuf k) ∨
      (∃ k, locate s.params addr = .outbuf k) →
    ∃ t u, perform s (.write addr 8 d) = .next t ∧ perform t (.read addr 8) = .next u ∧
      u.host.returned = s.host.returned ++ [(d.setWidth s.cfg.tag.width).setWidth 64]

/-- R59: a read changes nothing of the core; repeating a write to anything but CMD gives the same state
as doing it once. -/
def Obligations.ReadsAndRepeatedWritesAreIdempotent : Prop :=
  (∀ (s t : State) (addr : Addr) (size : Nat), perform s (.read addr size) = .next t →
    t = { s with host := t.host } ∧ t.host.pending = s.host.pending) ∧
  ∀ (s t : State) (addr : Addr) (d : Word), locate s.params addr ≠ .cmd →
    perform s (.write addr 8 d) = .next t → perform t (.write addr 8 d) = .next t

/-- R27: a STATUS write with bit 0 = 1 clears LASTERR and FIRSTERR; with bit 0 = 0 it changes nothing. -/
def Obligations.StatusWriteClears : Prop :=
  ∀ (s : State) (d : Word), s.status.busy = false →
    perform s (.write 0x000008#22 8 d) = .next
      (if d.getLsbD 0 then { s with status := { s.status with lastErr := .ok, firstErr := .ok } } else s)

/-- R54, R56: writes to CFG, RES0 to RES2, VTAG, SPEC and reserved addresses change nothing; a reserved
address reads 0, and neither changes STATUS. -/
def Obligations.IgnoredWrites : Prop :=
  ∀ (s : State) (addr : Addr), insideInterface addr 8 = true → s.status.busy = false →
    (∀ d : Word,
      locate s.params addr = .cfg ∨ locate s.params addr = .res0 ∨ locate s.params addr = .res1 ∨
        locate s.params addr = .res2 ∨ (∃ r, locate s.params addr = .vtag r) ∨
        (∃ k, locate s.params addr = .spec k) ∨ locate s.params addr = .reserved →
      perform s (.write addr 8 d) = .next s) ∧
    (locate s.params addr = .reserved →
      ∃ t, perform s (.read addr 8) = .next t ∧ t.status = s.status ∧
        t.host.returned = s.host.returned ++ [0#64])

/-- R55, R223: an access of another size or misaligned is refused; so is, while BUSY = 1, any access but
a read of STATUS. -/
def Obligations.UndefinedAccessesAreRefused : Prop :=
  ∀ (s : State) (addr : Addr) (size : Nat) (d : Word),
    (size ≠ 8 ∨ addr.toNat % 8 ≠ 0 →
      perform s (.read addr size) = .refused .accessOutsideInterface ∧
      perform s (.write addr size d) = .refused .accessOutsideInterface) ∧
    (addr.toNat % 8 = 0 → s.status.busy = true →
      perform s (.write addr 8 d) = .refused .accessWhileBusy ∧
      (addr ≠ 0x000008#22 → perform s (.read addr 8) = .refused .accessWhileBusy) ∧
      ∃ t, perform s (.read 0x000008#22 8) = .next t)

/-- R187, U5: a read of an EMPTY word or of an invalid SPEC word returns the next free value, whatever it
is, and the read after it draws another; a written word reads as its raw pattern. -/
def Obligations.EmptyReadsDrawFreeValues : Prop :=
  ∀ (s : State) (addr : Addr), insideInterface addr 8 = true → s.status.busy = false →
    ∃ t, perform s (.read addr 8) = .next t ∧
      (((∃ r, locate s.params addr = .v r ∧ s.reg r = none) ∨
          (∃ k, locate s.params addr = .inbuf k ∧ s.inbuf.get k = none) ∨
          (∃ k, locate s.params addr = .outbuf k ∧ s.outbuf.get k = none) ∨
          (∃ k, locate s.params addr = .spec k ∧ s.spec.get k = none)) →
        t.host.returned = s.host.returned ++ [Config.freeRead s.host.draws] ∧
        t.host.draws = s.host.draws + 1) ∧
      (∀ w : TWord,
        (∃ r, locate s.params addr = .v r ∧ s.reg r = some w) ∨
          (∃ k, locate s.params addr = .inbuf k ∧ s.inbuf.get k = some w) ∨
          (∃ k, locate s.params addr = .outbuf k ∧ s.outbuf.get k = some w) →
        t.host.returned = s.host.returned ++ [w.raw] ∧ t.host.draws = s.host.draws)

/-- R187: what a host read of each location returns, where the spec gives the value: CMD and reserved
addresses 0, the registers and VTAG their views, a written tagged word its raw pattern, a valid SPEC word
itself. The read changes nothing else. STATUS is read while BUSY = 1 as well (R223). -/
def Obligations.HostReadsReturnTheStatedWords : Prop :=
  let returns (s : State) (addr : Addr) (w : Word) : Prop :=
    perform s (.read addr 8) = .next { s with host := { s.host with returned := s.host.returned ++ [w] } }
  (∀ (s : State) (addr : Addr), insideInterface addr 8 = true → s.status.busy = false →
    (locate s.params addr = .cmd ∨ locate s.params addr = .reserved → returns s addr 0#64) ∧
    (locate s.params addr = .status → returns s addr s.statusWord) ∧
    (locate s.params addr = .cfg → returns s addr s.cfg.word) ∧
    (locate s.params addr = .res0 → returns s addr s.res0) ∧
    (locate s.params addr = .res1 → returns s addr s.res1) ∧
    (locate s.params addr = .res2 → returns s addr s.res2) ∧
    (∀ r, locate s.params addr = .vtag r → returns s addr (vtagWord (s.reg r))) ∧
    (∀ r x, locate s.params addr = .v r → s.reg r = some x → returns s addr x.raw) ∧
    (∀ k x, locate s.params addr = .inbuf k → s.inbuf.get k = some x → returns s addr x.raw) ∧
    (∀ k x, locate s.params addr = .outbuf k → s.outbuf.get k = some x → returns s addr x.raw) ∧
    ∀ k w, locate s.params addr = .spec k → s.spec.get k = some w → returns s addr w) ∧
  ∀ s : State, returns s 0x000008#22 s.statusWord

/-! ### The host's call -/

/-- R189: the call `compute_fft_fixed` on a core with BUSY = 0. The host's three checks fail it and leave
the core as it was; a size above NMAX fails it with the core's InvalidSize and leaves CFG = 0; every other
call ends with the transform (R116) of the quantised samples, decoded by value_s, and leaves a core on
which SPECTRUM can follow. -/
def Obligations.ComputeFftFixedReturnsTheTransform : Prop :=
  ∀ (K : Type) [Field K] [LinearOrder K] [FloorRing K] (s : State) (n i f : Int) (samples : List (K × K)),
    s.params.wf → s.status.busy = false →
    let goodSize : Prop := ∃ L : Nat, 1 ≤ L ∧ L < 16 ∧ n = 2 ^ L
    let goodWidths : Prop := (0 < i ∧ i < 32) ∧ (0 < f ∧ f < 32)
    (¬ goodSize → computeFftFixed n samples i f s = .fail 1#4 s) ∧
    (goodSize → ¬ goodWidths → computeFftFixed n samples i f s = .fail 2#4 s) ∧
    (goodSize → goodWidths → samples.length ≠ n → computeFftFixed n samples i f s = .fail 1#4 s) ∧
    (goodSize → goodWidths → samples.length = n → s.params.nmax < n →
      ∃ t, computeFftFixed n samples i f s = .fail 1#4 t ∧ t.cfg = Cfg.unconfigured) ∧
    ∀ L : Nat, 1 ≤ L → n = 2 ^ L → goodWidths → samples.length = n → n ≤ s.params.nmax →
      let t : Tag := { iw := BitVec.ofInt 5 i, fw := BitVec.ofInt 5 f }
      let x (j : Nat) : Cx :=
        match samples[j]? with
        | some y => { re := quantise s.params.twq t y.1, im := quantise s.params.twq t y.2 }
        | none => { re := 0#64, im := 0#64 }
      let raws : List (Word × Word) :=
        (List.range (2 ^ L)).map fun j =>
          ((fftValues s.params.twq t L x j).re, (fftValues s.params.twq t L x j).im)
      ∃ u, computeFftFixed n samples i f s =
          .result (raws.map fun p => (valueS t p.1, valueS t p.2)) raws u ∧
        u.configured ∧ u.cfg.size = 2 ^ L ∧ u.cfg.tag = t ∧ blockReady u.outbuf u.cfg.size t
end

