-- ==== Sys2Proof/Laws/State.lean ====
section
/-! SUPPORT. One lemma per field per named update of State, so that no proof unfolds a record update. -/

namespace Sys2Proof.Machine

variable (s : State)

/-! ### setReg -/

@[simp] theorem State.setReg_params (r : Reg) (w : Option TWord) : (s.setReg r w).params = s.params := rfl
@[simp] theorem State.setReg_cfg (r : Reg) (w : Option TWord) : (s.setReg r w).cfg = s.cfg := rfl
@[simp] theorem State.setReg_status (r : Reg) (w : Option TWord) : (s.setReg r w).status = s.status := rfl
@[simp] theorem State.setReg_res0 (r : Reg) (w : Option TWord) : (s.setReg r w).res0 = s.res0 := rfl
@[simp] theorem State.setReg_res1 (r : Reg) (w : Option TWord) : (s.setReg r w).res1 = s.res1 := rfl
@[simp] theorem State.setReg_res2 (r : Reg) (w : Option TWord) : (s.setReg r w).res2 = s.res2 := rfl
@[simp] theorem State.setReg_inbuf (r : Reg) (w : Option TWord) : (s.setReg r w).inbuf = s.inbuf := rfl
@[simp] theorem State.setReg_outbuf (r : Reg) (w : Option TWord) : (s.setReg r w).outbuf = s.outbuf := rfl
@[simp] theorem State.setReg_spec (r : Reg) (w : Option TWord) : (s.setReg r w).spec = s.spec := rfl
@[simp] theorem State.setReg_host (r : Reg) (w : Option TWord) : (s.setReg r w).host = s.host := rfl

/-! ### setPair -/

@[simp] theorem State.setPair_params (p : PairNum) (re im : Option TWord) : (s.setPair p re im).params = s.params := rfl
@[simp] theorem State.setPair_cfg (p : PairNum) (re im : Option TWord) : (s.setPair p re im).cfg = s.cfg := rfl
@[simp] theorem State.setPair_status (p : PairNum) (re im : Option TWord) : (s.setPair p re im).status = s.status := rfl
@[simp] theorem State.setPair_res0 (p : PairNum) (re im : Option TWord) : (s.setPair p re im).res0 = s.res0 := rfl
@[simp] theorem State.setPair_res1 (p : PairNum) (re im : Option TWord) : (s.setPair p re im).res1 = s.res1 := rfl
@[simp] theorem State.setPair_res2 (p : PairNum) (re im : Option TWord) : (s.setPair p re im).res2 = s.res2 := rfl
@[simp] theorem State.setPair_inbuf (p : PairNum) (re im : Option TWord) : (s.setPair p re im).inbuf = s.inbuf := rfl
@[simp] theorem State.setPair_outbuf (p : PairNum) (re im : Option TWord) : (s.setPair p re im).outbuf = s.outbuf := rfl
@[simp] theorem State.setPair_spec (p : PairNum) (re im : Option TWord) : (s.setPair p re im).spec = s.spec := rfl
@[simp] theorem State.setPair_host (p : PairNum) (re im : Option TWord) : (s.setPair p re im).host = s.host := rfl

/-! ### setPairRaw -/

@[simp] theorem State.setPairRaw_params (p : PairNum) (t : Tag) (c : Cx) : (s.setPairRaw p t c).params = s.params := rfl
@[simp] theorem State.setPairRaw_cfg (p : PairNum) (t : Tag) (c : Cx) : (s.setPairRaw p t c).cfg = s.cfg := rfl
@[simp] theorem State.setPairRaw_status (p : PairNum) (t : Tag) (c : Cx) : (s.setPairRaw p t c).status = s.status := rfl
@[simp] theorem State.setPairRaw_res0 (p : PairNum) (t : Tag) (c : Cx) : (s.setPairRaw p t c).res0 = s.res0 := rfl
@[simp] theorem State.setPairRaw_res1 (p : PairNum) (t : Tag) (c : Cx) : (s.setPairRaw p t c).res1 = s.res1 := rfl
@[simp] theorem State.setPairRaw_res2 (p : PairNum) (t : Tag) (c : Cx) : (s.setPairRaw p t c).res2 = s.res2 := rfl
@[simp] theorem State.setPairRaw_inbuf (p : PairNum) (t : Tag) (c : Cx) : (s.setPairRaw p t c).inbuf = s.inbuf := rfl
@[simp] theorem State.setPairRaw_outbuf (p : PairNum) (t : Tag) (c : Cx) : (s.setPairRaw p t c).outbuf = s.outbuf := rfl
@[simp] theorem State.setPairRaw_spec (p : PairNum) (t : Tag) (c : Cx) : (s.setPairRaw p t c).spec = s.spec := rfl
@[simp] theorem State.setPairRaw_host (p : PairNum) (t : Tag) (c : Cx) : (s.setPairRaw p t c).host = s.host := rfl

/-! ### raise -/

@[simp] theorem State.raise_params (e : ErrCode) : (s.raise e).params = s.params := rfl
@[simp] theorem State.raise_cfg (e : ErrCode) : (s.raise e).cfg = s.cfg := rfl
@[simp] theorem State.raise_res0 (e : ErrCode) : (s.raise e).res0 = s.res0 := rfl
@[simp] theorem State.raise_res1 (e : ErrCode) : (s.raise e).res1 = s.res1 := rfl
@[simp] theorem State.raise_res2 (e : ErrCode) : (s.raise e).res2 = s.res2 := rfl
@[simp] theorem State.raise_v (e : ErrCode) : (s.raise e).v = s.v := rfl
@[simp] theorem State.raise_inbuf (e : ErrCode) : (s.raise e).inbuf = s.inbuf := rfl
@[simp] theorem State.raise_outbuf (e : ErrCode) : (s.raise e).outbuf = s.outbuf := rfl
@[simp] theorem State.raise_spec (e : ErrCode) : (s.raise e).spec = s.spec := rfl
@[simp] theorem State.raise_host (e : ErrCode) : (s.raise e).host = s.host := rfl

/-! ### succeed -/

@[simp] theorem State.succeed_params : (s.succeed).params = s.params := rfl
@[simp] theorem State.succeed_cfg : (s.succeed).cfg = s.cfg := rfl
@[simp] theorem State.succeed_res0 : (s.succeed).res0 = s.res0 := rfl
@[simp] theorem State.succeed_res1 : (s.succeed).res1 = s.res1 := rfl
@[simp] theorem State.succeed_res2 : (s.succeed).res2 = s.res2 := rfl
@[simp] theorem State.succeed_v : (s.succeed).v = s.v := rfl
@[simp] theorem State.succeed_inbuf : (s.succeed).inbuf = s.inbuf := rfl
@[simp] theorem State.succeed_outbuf : (s.succeed).outbuf = s.outbuf := rfl
@[simp] theorem State.succeed_spec : (s.succeed).spec = s.spec := rfl
@[simp] theorem State.succeed_host : (s.succeed).host = s.host := rfl

/-! ### clearErrors -/

@[simp] theorem State.clearErrors_params : (s.clearErrors).params = s.params := rfl
@[simp] theorem State.clearErrors_cfg : (s.clearErrors).cfg = s.cfg := rfl
@[simp] theorem State.clearErrors_res0 : (s.clearErrors).res0 = s.res0 := rfl
@[simp] theorem State.clearErrors_res1 : (s.clearErrors).res1 = s.res1 := rfl
@[simp] theorem State.clearErrors_res2 : (s.clearErrors).res2 = s.res2 := rfl
@[simp] theorem State.clearErrors_v : (s.clearErrors).v = s.v := rfl
@[simp] theorem State.clearErrors_inbuf : (s.clearErrors).inbuf = s.inbuf := rfl
@[simp] theorem State.clearErrors_outbuf : (s.clearErrors).outbuf = s.outbuf := rfl
@[simp] theorem State.clearErrors_spec : (s.clearErrors).spec = s.spec := rfl
@[simp] theorem State.clearErrors_host : (s.clearErrors).host = s.host := rfl

/-! ### platformReset -/

@[simp] theorem State.platformReset_params : (s.platformReset).params = s.params := rfl
@[simp] theorem State.platformReset_host : (s.platformReset).host = s.host := rfl

/-! ### takeAction -/

@[simp] theorem State.takeAction_params (rest : List HostAction) : (s.takeAction rest).params = s.params := rfl
@[simp] theorem State.takeAction_cfg (rest : List HostAction) : (s.takeAction rest).cfg = s.cfg := rfl
@[simp] theorem State.takeAction_status (rest : List HostAction) : (s.takeAction rest).status = s.status := rfl
@[simp] theorem State.takeAction_res0 (rest : List HostAction) : (s.takeAction rest).res0 = s.res0 := rfl
@[simp] theorem State.takeAction_res1 (rest : List HostAction) : (s.takeAction rest).res1 = s.res1 := rfl
@[simp] theorem State.takeAction_res2 (rest : List HostAction) : (s.takeAction rest).res2 = s.res2 := rfl
@[simp] theorem State.takeAction_v (rest : List HostAction) : (s.takeAction rest).v = s.v := rfl
@[simp] theorem State.takeAction_inbuf (rest : List HostAction) : (s.takeAction rest).inbuf = s.inbuf := rfl
@[simp] theorem State.takeAction_outbuf (rest : List HostAction) : (s.takeAction rest).outbuf = s.outbuf := rfl
@[simp] theorem State.takeAction_spec (rest : List HostAction) : (s.takeAction rest).spec = s.spec := rfl

/-! ### What each update writes -/

@[simp] theorem State.raise_lastErr (e : ErrCode) : (s.raise e).status.lastErr = e := rfl
@[simp] theorem State.raise_firstErr (e : ErrCode) :
    (s.raise e).status.firstErr = if s.status.firstErr = .ok then e else s.status.firstErr := rfl
@[simp] theorem State.raise_busy (e : ErrCode) : (s.raise e).status.busy = s.status.busy := rfl
@[simp] theorem State.succeed_lastErr : s.succeed.status.lastErr = .ok := rfl
@[simp] theorem State.succeed_firstErr : s.succeed.status.firstErr = s.status.firstErr := rfl
@[simp] theorem State.succeed_busy : s.succeed.status.busy = s.status.busy := rfl
@[simp] theorem State.clearErrors_lastErr : s.clearErrors.status.lastErr = .ok := rfl
@[simp] theorem State.clearErrors_firstErr : s.clearErrors.status.firstErr = .ok := rfl
@[simp] theorem State.clearErrors_busy : s.clearErrors.status.busy = s.status.busy := rfl
@[simp] theorem State.takeAction_pending (rest : List HostAction) :
    (s.takeAction rest).host.pending = rest := rfl
@[simp] theorem State.takeAction_returned (rest : List HostAction) :
    (s.takeAction rest).host.returned = s.host.returned := rfl
@[simp] theorem State.takeAction_draws (rest : List HostAction) :
    (s.takeAction rest).host.draws = s.host.draws := rfl

/-! ### The buffers by their select -/

@[simp] theorem State.buffer_inbuf : s.buffer .inbuf = s.inbuf := rfl
@[simp] theorem State.buffer_outbuf : s.buffer .outbuf = s.outbuf := rfl

@[simp] theorem State.buffer_setBuffer_same (b : BufSel) (m : Memory TWord) :
    (s.setBuffer b m).buffer b = m := by
  cases b <;> rfl

theorem State.buffer_setBuffer_other (b b' : BufSel) (m : Memory TWord) (h : b' ≠ b) :
    (s.setBuffer b m).buffer b' = s.buffer b' := by
  cases b <;> cases b' <;> first | rfl | exact absurd rfl h

@[simp] theorem State.setBuffer_params (b : BufSel) (m : Memory TWord) : (s.setBuffer b m).params = s.params := by cases b <;> rfl
@[simp] theorem State.setBuffer_cfg (b : BufSel) (m : Memory TWord) : (s.setBuffer b m).cfg = s.cfg := by cases b <;> rfl
@[simp] theorem State.setBuffer_status (b : BufSel) (m : Memory TWord) : (s.setBuffer b m).status = s.status := by cases b <;> rfl
@[simp] theorem State.setBuffer_res0 (b : BufSel) (m : Memory TWord) : (s.setBuffer b m).res0 = s.res0 := by cases b <;> rfl
@[simp] theorem State.setBuffer_res1 (b : BufSel) (m : Memory TWord) : (s.setBuffer b m).res1 = s.res1 := by cases b <;> rfl
@[simp] theorem State.setBuffer_res2 (b : BufSel) (m : Memory TWord) : (s.setBuffer b m).res2 = s.res2 := by cases b <;> rfl
@[simp] theorem State.setBuffer_v (b : BufSel) (m : Memory TWord) : (s.setBuffer b m).v = s.v := by cases b <;> rfl
@[simp] theorem State.setBuffer_spec (b : BufSel) (m : Memory TWord) : (s.setBuffer b m).spec = s.spec := by cases b <;> rfl
@[simp] theorem State.setBuffer_host (b : BufSel) (m : Memory TWord) : (s.setBuffer b m).host = s.host := by cases b <;> rfl

@[simp] theorem State.setBuffer_inbuf (b : BufSel) (m : Memory TWord) :
    (s.setBuffer b m).inbuf = if b = .inbuf then m else s.inbuf := by cases b <;> rfl
@[simp] theorem State.setBuffer_outbuf (b : BufSel) (m : Memory TWord) :
    (s.setBuffer b m).outbuf = if b = .outbuf then m else s.outbuf := by cases b <;> rfl

/-! ### What the host is given -/

@[simp] theorem State.giveToHost_params (x : ReadValue) : (s.giveToHost x).params = s.params := by cases x <;> rfl
@[simp] theorem State.giveToHost_cfg (x : ReadValue) : (s.giveToHost x).cfg = s.cfg := by cases x <;> rfl
@[simp] theorem State.giveToHost_status (x : ReadValue) : (s.giveToHost x).status = s.status := by cases x <;> rfl
@[simp] theorem State.giveToHost_res0 (x : ReadValue) : (s.giveToHost x).res0 = s.res0 := by cases x <;> rfl
@[simp] theorem State.giveToHost_res1 (x : ReadValue) : (s.giveToHost x).res1 = s.res1 := by cases x <;> rfl
@[simp] theorem State.giveToHost_res2 (x : ReadValue) : (s.giveToHost x).res2 = s.res2 := by cases x <;> rfl
@[simp] theorem State.giveToHost_v (x : ReadValue) : (s.giveToHost x).v = s.v := by cases x <;> rfl
@[simp] theorem State.giveToHost_inbuf (x : ReadValue) : (s.giveToHost x).inbuf = s.inbuf := by cases x <;> rfl
@[simp] theorem State.giveToHost_outbuf (x : ReadValue) : (s.giveToHost x).outbuf = s.outbuf := by cases x <;> rfl
@[simp] theorem State.giveToHost_spec (x : ReadValue) : (s.giveToHost x).spec = s.spec := by cases x <;> rfl

@[simp] theorem State.giveToHost_pending (x : ReadValue) :
    (s.giveToHost x).host.pending = s.host.pending := by cases x <;> rfl

/-! ### Registers -/

@[simp] theorem State.reg_setReg_same (r : Reg) (w : Option TWord) : (s.setReg r w).reg r = w := by
  simp [State.reg, State.setReg, Vector.get_eq_getElem]

theorem State.reg_setReg_other {r r' : Reg} (w : Option TWord) (h : r' ≠ r) :
    (s.setReg r w).reg r' = s.reg r' := by
  have : r.val ≠ r'.val := fun e => h (Fin.ext e.symm)
  simp [State.reg, State.setReg, Vector.get_eq_getElem, this]

theorem State.reg_setReg (r r' : Reg) (w : Option TWord) :
    (s.setReg r w).reg r' = if r' = r then w else s.reg r' := by
  split
  · rename_i h
    rw [h, State.reg_setReg_same]
  · rename_i h
    exact State.reg_setReg_other s w h

/-- The two registers of a pair are different, and so are those of different pairs (R29). -/
theorem reReg_ne_imReg (p p' : PairNum) : reReg p ≠ imReg p' := by
  intro h
  have := congrArg Fin.val h
  simp only [reReg, imReg] at this
  omega

@[simp] theorem reReg_inj {p p' : PairNum} : reReg p = reReg p' ↔ p = p' := by
  simp [reReg, Fin.ext_iff]

@[simp] theorem imReg_inj {p p' : PairNum} : imReg p = imReg p' ↔ p = p' := by
  simp [imReg, Fin.ext_iff]

@[simp] theorem State.reg_setPair_re (p : PairNum) (re im : Option TWord) :
    (s.setPair p re im).reg (reReg p) = re := by
  rw [State.setPair, State.reg_setReg_other _ _ (reReg_ne_imReg p p), State.reg_setReg_same]

@[simp] theorem State.reg_setPair_im (p : PairNum) (re im : Option TWord) :
    (s.setPair p re im).reg (imReg p) = im := by
  rw [State.setPair, State.reg_setReg_same]

theorem State.reg_setPair_other {p : PairNum} {r : Reg} (re im : Option TWord) (h1 : r ≠ reReg p)
    (h2 : r ≠ imReg p) : (s.setPair p re im).reg r = s.reg r := by
  rw [State.setPair, State.reg_setReg_other _ _ h2, State.reg_setReg_other _ _ h1]

/-- `State.reg` looks at the register file alone. -/
theorem State.reg_congr {s t : State} (h : t.v = s.v) (r : Reg) : t.reg r = s.reg r := by
  rw [State.reg, State.reg, h]

/-- Two states with the same registers have the same register file. -/
theorem State.v_ext {s t : State} (h : ∀ r, t.reg r = s.reg r) : t.v = s.v := by
  apply Vector.ext
  intro i hi
  have := h ⟨i, hi⟩
  simpa [State.reg, Vector.get_eq_getElem] using this

@[simp] theorem State.reg_succeed (r : Reg) : s.succeed.reg r = s.reg r := rfl
@[simp] theorem State.reg_raise (e : ErrCode) (r : Reg) : (s.raise e).reg r = s.reg r := rfl
@[simp] theorem State.reg_takeAction (rest : List HostAction) (r : Reg) :
    (s.takeAction rest).reg r = s.reg r := rfl
@[simp] theorem State.reg_setBuffer (b : BufSel) (m : Memory TWord) (r : Reg) :
    (s.setBuffer b m).reg r = s.reg r := State.reg_congr (State.setBuffer_v s b m) r

end Sys2Proof.Machine
end

