-- ==== Sys2Proof/Laws/Ops.lean ====
section
/-! SUPPORT. What each shared operation over buffers and checks can do, said once: read after write,
the canonical form, loops of writes, and the ends of a command. -/

namespace Sys2Proof.Machine

/-! ### Buffers -/

section Memory

variable {α : Type}

theorem lookupCell_append_oneCell (l : List (Nat × α)) (k k' : Nat) (w : Option α)
    (h : k' ≠ k ∨ w.isSome) :
    lookupCell (oneCell k w ++ l) k' = if k' = k then w else lookupCell l k' := by
  cases w with
  | none =>
    have : k' ≠ k := by simpa using h
    simp [oneCell, this]
  | some a => simp only [oneCell, List.cons_append, List.nil_append, lookupCell, eq_comm]

theorem lookupCell_eq_none {l : List (Nat × α)} {k : Nat} (h : ∀ c ∈ l, c.1 ≠ k) :
    lookupCell l k = none := by
  induction l with
  | nil => rfl
  | cons c rest ih =>
    obtain ⟨k', a⟩ := c
    have h1 : k' ≠ k := h (k', a) (by simp)
    simp only [lookupCell, h1, if_false]
    exact ih fun c hc => h c (by simp [hc])

/-- The slots of a canonical tail lie above its head. -/
theorem wf_cons {k : Nat} {a : α} {l : List (Nat × α)} :
    Memory.wf { cells := (k, a) :: l } ↔ (∀ c ∈ l, k < c.1) ∧ Memory.wf { cells := l } := by
  simp [Memory.wf, List.pairwise_cons]

/-- Read after write on cells: a written content needs no canonical form, an erasure does. -/
theorem lookupCell_storeCell (l : List (Nat × α)) (k k' : Nat) (w : Option α)
    (h : w.isSome ∨ Memory.wf { cells := l }) :
    lookupCell (storeCell l k w) k' = if k' = k then w else lookupCell l k' := by
  induction l with
  | nil =>
    have := lookupCell_append_oneCell ([] : List (Nat × α)) k k' w
    cases w <;> by_cases hk : k' = k <;> simp_all [storeCell, oneCell, lookupCell, eq_comm]
  | cons c rest ih =>
    obtain ⟨k0, a⟩ := c
    have ih' := ih (h.imp_right fun hw => (wf_cons.1 hw).2)
    have above : w = none → ∀ c ∈ rest, k0 < c.1 := by
      intro hw
      rcases h with h | h
      · simp [hw] at h
      · exact (wf_cons.1 h).1
    simp only [storeCell]
    by_cases h1 : k < k0
    · rw [if_pos h1]
      cases w with
      | some x => exact lookupCell_append_oneCell _ _ _ _ (.inr (by simp))
      | none =>
        simp only [oneCell, List.nil_append]
        by_cases hk : k' = k
        · rw [if_pos hk]
          subst hk
          refine lookupCell_eq_none fun c hc => ?_
          rcases List.mem_cons.1 hc with rfl | hc
          · exact (Nat.ne_of_lt h1).symm
          · have := above rfl c hc
            omega
        · rw [if_neg hk]
    · rw [if_neg h1]
      by_cases h2 : k = k0
      · rw [if_pos h2]
        subst h2
        cases w with
        | some x =>
          rw [lookupCell_append_oneCell _ _ _ _ (.inr (by simp))]
          by_cases hk : k' = k
          · rw [if_pos hk, if_pos hk]
          · rw [if_neg hk, if_neg hk, lookupCell, if_neg (Ne.symm hk)]
        | none =>
          simp only [oneCell, List.nil_append]
          by_cases hk : k' = k
          · rw [if_pos hk]
            subst hk
            exact lookupCell_eq_none fun c hc => (Nat.ne_of_lt (above rfl c hc)).symm
          · rw [if_neg hk, lookupCell, if_neg (Ne.symm hk)]
      · rw [if_neg h2]
        simp only [lookupCell, ih']
        by_cases h3 : k0 = k'
        · subst h3
          rw [if_pos rfl, if_neg (Ne.symm h2), if_pos rfl]
        · rw [if_neg h3, if_neg h3]

/-- A slot written with a word holds it, and every other slot is as before. -/
theorem Memory.get_put_some (m : Memory α) (k k' : Nat) (a : α) :
    (m.put k (some a)).get k' = if k' = k then some a else m.get k' :=
  lookupCell_storeCell _ _ _ _ (.inl rfl)

/-- Read after write for any content, in a canonical buffer. -/
theorem Memory.get_put (m : Memory α) (k k' : Nat) (w : Option α) (h : m.wf) :
    (m.put k w).get k' = if k' = k then w else m.get k' :=
  lookupCell_storeCell _ _ _ _ (.inr h)

theorem mem_oneCell {k : Nat} {w : Option α} {c : Nat × α} (h : c ∈ oneCell k w) :
    c.1 = k ∧ w = some c.2 := by
  cases w with
  | none => simp [oneCell] at h
  | some a =>
    simp only [oneCell, List.mem_singleton] at h
    simp [h]

/-- A cell after a write is the written one or an older one. -/
theorem mem_storeCell {l : List (Nat × α)} {k : Nat} {w : Option α} {c : Nat × α}
    (h : c ∈ storeCell l k w) : (c.1 = k ∧ w = some c.2) ∨ c ∈ l := by
  induction l with
  | nil => exact .inl (mem_oneCell h)
  | cons c0 rest ih =>
    obtain ⟨k0, a⟩ := c0
    simp only [storeCell] at h
    split_ifs at h with h1 h2
    · rcases List.mem_append.1 h with h | h
      · exact .inl (mem_oneCell h)
      · exact .inr h
    · rcases List.mem_append.1 h with h | h
      · exact .inl (mem_oneCell h)
      · exact .inr (List.mem_cons_of_mem _ h)
    · rcases List.mem_cons.1 h with h | h
      · exact .inr (by simp [h])
      · exact (ih h).imp_right (List.mem_cons_of_mem _)

theorem wf_oneCell_append {k : Nat} {w : Option α} {l : List (Nat × α)} (h : Memory.wf { cells := l })
    (hk : ∀ c ∈ l, k < c.1) : Memory.wf { cells := oneCell k w ++ l } := by
  cases w with
  | none => exact h
  | some a => exact wf_cons.2 ⟨hk, h⟩

theorem wf_storeCell {l : List (Nat × α)} (h : Memory.wf { cells := l }) (k : Nat) (w : Option α) :
    Memory.wf { cells := storeCell l k w } := by
  induction l with
  | nil =>
    have := wf_oneCell_append (k := k) (w := w) h (by simp)
    rwa [List.append_nil] at this
  | cons c rest ih =>
    obtain ⟨k0, a⟩ := c
    obtain ⟨hlt, hr⟩ := wf_cons.1 h
    simp only [storeCell]
    split_ifs with h1 h2
    · refine wf_oneCell_append h fun c hc => ?_
      rcases List.mem_cons.1 hc with rfl | hc
      · exact h1
      · exact Nat.lt_trans h1 (hlt c hc)
    · subst h2
      exact wf_oneCell_append hr hlt
    · refine wf_cons.2 ⟨fun c hc => ?_, ih hr⟩
      rcases mem_storeCell hc with ⟨hc, -⟩ | hc
      · omega
      · exact hlt c hc

/-- Every write keeps the canonical form. -/
theorem Memory.wf_put {m : Memory α} (h : m.wf) (k : Nat) (w : Option α) : (m.put k w).wf :=
  wf_storeCell h k w

/-- The buffer after reset is canonical. -/
theorem Memory.wf_empty : (Memory.empty : Memory α).wf := by simp [Memory.wf, Memory.empty]

@[simp] theorem Memory.get_empty (k : Nat) : (Memory.empty : Memory α).get k = none := rfl

theorem Memory.mem_put {m : Memory α} {k : Nat} {w : Option α} {c : Nat × α}
    (h : c ∈ (m.put k w).cells) : (c.1 = k ∧ w = some c.2) ∨ c ∈ m.cells :=
  mem_storeCell h

/-- A listed cell of a canonical buffer is what a read of its slot gives, and the other way round. -/
theorem Memory.get_eq_some_iff {m : Memory α} (h : m.wf) (k : Nat) (a : α) :
    m.get k = some a ↔ (k, a) ∈ m.cells := by
  obtain ⟨l⟩ := m
  induction l with
  | nil => simp [Memory.get, lookupCell]
  | cons c rest ih =>
    obtain ⟨k0, a0⟩ := c
    obtain ⟨hlt, hr⟩ := wf_cons.1 h
    have ih' := ih hr
    simp only [Memory.get] at ih'
    simp only [Memory.get, lookupCell, List.mem_cons, Prod.mk.injEq]
    split_ifs with hk
    · subst hk
      constructor
      · intro h
        exact .inl ⟨rfl, (Option.some.inj h).symm⟩
      · rintro (⟨-, rfl⟩ | hm)
        · rfl
        · exact absurd (hlt _ hm) (Nat.lt_irrefl _)
    · rw [ih']
      constructor
      · exact .inr
      · rintro (⟨rfl, -⟩ | hm)
        · exact absurd rfl hk
        · exact hm

theorem Memory.get_mem {m : Memory α} {k : Nat} {a : α} (h : m.get k = some a) : (k, a) ∈ m.cells := by
  obtain ⟨l⟩ := m
  induction l with
  | nil => simp [Memory.get, lookupCell] at h
  | cons c rest ih =>
    obtain ⟨k0, a0⟩ := c
    simp only [Memory.get, lookupCell] at h
    split_ifs at h with hk
    · simp [← hk, Option.some.inj h]
    · exact List.mem_cons_of_mem _ (ih h)

/-- Canonical buffers with the same contents are the same data. -/
theorem Memory.ext_get {m m' : Memory α} (h : m.wf) (h' : m'.wf) (e : ∀ k, m.get k = m'.get k) :
    m = m' := by
  obtain ⟨l⟩ := m
  obtain ⟨l'⟩ := m'
  congr 1
  have mem : ∀ c, c ∈ l ↔ c ∈ l' := by
    rintro ⟨k, a⟩
    rw [← Memory.get_eq_some_iff (m := ⟨l⟩) h, ← Memory.get_eq_some_iff (m := ⟨l'⟩) h', e k]
  have strict : ∀ l : List (Nat × α), Memory.wf { cells := l } → l.Pairwise fun a b => a.1 < b.1 :=
    fun l hl => List.pairwise_map.1 hl
  have nodup : ∀ l : List (Nat × α), Memory.wf { cells := l } → l.Nodup :=
    fun l hl => (strict l hl).imp fun hab => by
      rintro rfl
      exact Nat.lt_irrefl _ hab
  have p : l.Perm l' := (List.perm_ext_iff_of_nodup (nodup l h) (nodup l' h')).2 mem
  refine List.Perm.eq_of_pairwise ?_ (strict l h) (strict l' h') p
  intro a b _ _ hab hba
  exact absurd (Nat.lt_trans hab hba) (Nat.lt_irrefl _)

/-! ### Entries -/

@[simp] theorem reSlot_inj {j j' : Nat} : reSlot j = reSlot j' ↔ j = j' := by
  simp [reSlot]

@[simp] theorem imSlot_inj {j j' : Nat} : imSlot j = imSlot j' ↔ j = j' := by
  simp [imSlot]

@[simp] theorem reSlot_ne_imSlot (j j' : Nat) : reSlot j ≠ imSlot j' := by
  simp only [reSlot, imSlot]
  omega

@[simp] theorem imSlot_ne_reSlot (j j' : Nat) : imSlot j ≠ reSlot j' := (reSlot_ne_imSlot j' j).symm

/-- Every slot is one of the two of its entry. -/
theorem slot_cases (k : Nat) : k = reSlot (k / 2) ∨ k = imSlot (k / 2) := by
  simp only [reSlot, imSlot]
  omega

theorem Memory.get_putEntry_re (m : Memory α) (j j' : Nat) (re im : Option α)
    (h : m.wf) :
    (m.putEntry j re im).get (reSlot j') = if j' = j then re else m.get (reSlot j') := by
  simp [Memory.putEntry, Memory.get_put _ _ _ _ (Memory.wf_put h _ _), Memory.get_put _ _ _ _ h]

theorem Memory.get_putEntry_im (m : Memory α) (j j' : Nat) (re im : Option α)
    (h : m.wf) :
    (m.putEntry j re im).get (imSlot j') = if j' = j then im else m.get (imSlot j') := by
  simp [Memory.putEntry, Memory.get_put _ _ _ _ (Memory.wf_put h _ _), Memory.get_put _ _ _ _ h]

theorem Memory.get_putEntry_some_re (m : Memory α) (j j' : Nat) (re im : α) :
    (m.putEntry j (some re) (some im)).get (reSlot j') =
      if j' = j then some re else m.get (reSlot j') := by
  simp [Memory.putEntry, Memory.get_put_some]

theorem Memory.get_putEntry_some_im (m : Memory α) (j j' : Nat) (re im : α) :
    (m.putEntry j (some re) (some im)).get (imSlot j') =
      if j' = j then some im else m.get (imSlot j') := by
  simp [Memory.putEntry, Memory.get_put_some]

/-- Slots of other entries are as before. -/
theorem Memory.get_putEntry_some_other (m : Memory α) (j : Nat) (re im : α) (k : Nat)
    (h1 : k ≠ reSlot j) (h2 : k ≠ imSlot j) : (m.putEntry j (some re) (some im)).get k = m.get k := by
  simp [Memory.putEntry, Memory.get_put_some, h1, h2]

theorem Memory.wf_putEntry {m : Memory α} (h : m.wf) (j : Nat) (re im : Option α) :
    (m.putEntry j re im).wf :=
  Memory.wf_put (Memory.wf_put h _ _) _ _

theorem Memory.mem_putEntry {m : Memory α} {j : Nat} {re im : Option α} {c : Nat × α}
    (h : c ∈ (m.putEntry j re im).cells) :
    (c.1 = reSlot j ∧ re = some c.2) ∨ (c.1 = imSlot j ∧ im = some c.2) ∨ c ∈ m.cells := by
  rcases Memory.mem_put h with h | h
  · exact .inr (.inl h)
  · rcases Memory.mem_put h with h | h
    · exact .inl h
    · exact .inr (.inr h)

end Memory

/-! ### Checks and the end of a command -/

theorem require_eq_ok {p : Bool} {e : ErrCode} {u : Unit} : require p e = .ok u ↔ p = true := by
  cases p <;> simp [require]

theorem require_eq_error {p : Bool} {e e' : ErrCode} : require p e = .error e' ↔ p = false ∧ e = e' := by
  cases p <;> simp [require]

/-- A check followed by the rest of a command, taken apart: one of the two raises, or both succeed. -/
theorem bind_eq_ok {α β : Type} {x : Check α} {f : α → Check β} {b : β} :
    (x >>= f) = .ok b ↔ ∃ a, x = .ok a ∧ f a = .ok b := by
  cases x <;> simp [bind, Except.bind]

theorem bind_eq_error {α β : Type} {x : Check α} {f : α → Check β} {e : ErrCode} :
    (x >>= f) = .error e ↔ x = .error e ∨ ∃ a, x = .ok a ∧ f a = .error e := by
  cases x <;> simp [bind, Except.bind]

@[simp] theorem ok_bind {α β : Type} (a : α) (f : α → Check β) : ((Except.ok a : Check α) >>= f) = f a := rfl

@[simp] theorem error_bind {α β : Type} (e : ErrCode) (f : α → Check β) :
    ((Except.error e : Check α) >>= f) = .error e := rfl

@[simp] theorem pure_eq_ok {α : Type} (a : α) : (pure a : Check α) = .ok a := rfl

@[simp] theorem require_true (e : ErrCode) : require true e = .ok () := rfl

@[simp] theorem require_false (e : ErrCode) : require false e = .error e := rfl

@[simp] theorem conclude_ok (s t : State) : s.conclude (.ok t) = t.succeed := rfl

@[simp] theorem conclude_error (s : State) (e : ErrCode) : s.conclude (.error e) = s.raise e := rfl

@[simp] theorem finish_ok (s t : State) : finish s (.ok t) = .next t.succeed := rfl

@[simp] theorem finish_error (s : State) (e : ErrCode) : finish s (.error e) = .next (s.raise e) := rfl

/-- A command answers a next state, and one of two things happened: it succeeded, or it raised an
error and did nothing else (R203, R204). -/
theorem finish_eq_next {s t : State} {r : Check State} :
    finish s r = .next t ↔ (∃ u, r = .ok u ∧ t = u.succeed) ∨ (∃ e, r = .error e ∧ t = s.raise e) := by
  cases r <;> simp [finish, State.conclude, eq_comm]

/-! ### Operand checks -/

theorem config_eq_ok {s : State} {c : Cfg} : s.config = .ok c ↔ s.cfg.valid = true ∧ c = s.cfg := by
  unfold State.config
  cases s.cfg.valid <;> simp [@eq_comm _ _ c]

theorem config_eq_error {s : State} {e : ErrCode} :
    s.config = .error e ↔ s.cfg.valid = false ∧ e = .notConfigured := by
  unfold State.config
  cases s.cfg.valid <;> simp [@eq_comm _ _ e]

theorem written_eq_ok {w : Option TWord} {x : TWord} : written w = .ok x ↔ w = some x := by
  cases w <;> simp [written]

theorem written_eq_error {w : Option TWord} {e : ErrCode} :
    written w = .error e ↔ w = none ∧ e = .uninitializedOperand := by
  cases w <;> simp [written, eq_comm]

@[simp] theorem written_some (x : TWord) : written (some x) = .ok x := rfl

@[simp] theorem written_none : written none = .error .uninitializedOperand := rfl

theorem writtenPair_eq_ok {re im : Option TWord} {x : TWord × TWord} :
    writtenPair re im = .ok x ↔ re = some x.1 ∧ im = some x.2 := by
  obtain ⟨a, b⟩ := x
  cases re <;> cases im <;> simp [writtenPair]

theorem writtenPair_eq_error {re im : Option TWord} {e : ErrCode} :
    writtenPair re im = .error e ↔ (re = none ∨ im = none) ∧ e = .uninitializedOperand := by
  cases re <;> cases im <;> simp [writtenPair, eq_comm]

theorem commonTag_eq_ok {w : TWord} {ws : List TWord} {t : Tag} :
    commonTag w ws = .ok t ↔ (∀ x ∈ ws, x.tag = w.tag) ∧ t = w.tag := by
  unfold commonTag
  split <;> simp_all [@eq_comm _ _ t]

theorem commonTag_eq_error {w : TWord} {ws : List TWord} {e : ErrCode} :
    commonTag w ws = .error e ↔ (∃ x ∈ ws, x.tag ≠ w.tag) ∧ e = .widthMismatch := by
  unfold commonTag
  split <;> simp_all [@eq_comm _ _ e]

theorem hasTag_eq_true {t : Tag} {w : Option TWord} : hasTag t w = true ↔ ∃ x, w = some x ∧ x.tag = t := by
  cases w <;> simp [hasTag]

theorem allWritten_eq_true {m : Memory TWord} {n : Nat} :
    m.allWritten n = true ↔ ∀ j < n, m.get (reSlot j) ≠ none ∧ m.get (imSlot j) ≠ none := by
  simp [Memory.allWritten, Option.isSome_iff_ne_none]

theorem allTagged_eq_true {m : Memory TWord} {n : Nat} {t : Tag} :
    m.allTagged n t = true ↔ ∀ j < n, hasTag t (m.get (reSlot j)) = true ∧ hasTag t (m.get (imSlot j)) = true := by
  simp [Memory.allTagged]

/-- Words that carry a tag are written. -/
theorem allWritten_of_allTagged {m : Memory TWord} {n : Nat} {t : Tag} (h : m.allTagged n t = true) :
    m.allWritten n = true := by
  rw [allWritten_eq_true]
  intro j hj
  obtain ⟨⟨x, hx, -⟩, ⟨y, hy, -⟩⟩ := (allTagged_eq_true.1 h j hj).imp hasTag_eq_true.1 hasTag_eq_true.1
  simp [hx, hy]

/-- The buffer checks pass exactly when every word of the block carries the tag (R113, R115, R174). -/
theorem checkBlock_eq_ok {m : Memory TWord} {n : Nat} {t : Tag} {u : Unit} :
    checkBlock m n t = .ok u ↔ m.allTagged n t = true := by
  simp only [checkBlock, bind_eq_ok, require_eq_ok, exists_and_left]
  constructor
  · rintro ⟨-, -, h⟩
    exact h
  · exact fun h => ⟨allWritten_of_allTagged h, (), h⟩

theorem checkBlock_eq_error {m : Memory TWord} {n : Nat} {t : Tag} {e : ErrCode} :
    checkBlock m n t = .error e ↔
      (m.allWritten n = false ∧ e = .uninitializedOperand) ∨
      (m.allWritten n = true ∧ m.allTagged n t = false ∧ e = .widthMismatch) := by
  unfold checkBlock
  cases m.allWritten n <;> cases m.allTagged n t <;> simp [eq_comm]

end Sys2Proof.Machine
end

