-- ==== Sys2Proof/Laws/Fixed.lean ====
section
/-! SUPPORT. What wrap, the two's-complement reading, the bitwise search and the square root can do, said
once (00_scope.md R13; 43_fixed_point.md R143 to R151). -/

namespace Sys2Proof.Machine

theorem Tag.width_le (t : Tag) : t.width ≤ 62 := by
  have h1 := t.iw.isLt
  have h2 := t.fw.isLt
  simp only [Tag.width]
  omega

theorem Tag.frac_le_width (t : Tag) : t.frac ≤ t.width := by
  simp only [Tag.frac, Tag.width]
  omega

/-! ### wrap -/

theorem pow_cast_pos (w : Nat) : (0 : Int) < ((2 ^ w : Nat) : Int) := by
  exact_mod_cast Nat.two_pow_pos w

/-- The wrapped number is the residue (R13). -/
theorem uint_wrap {w : Nat} (h : w ≤ 64) (x : Int) : uint (wrap w x) = x % ((2 ^ w : Nat) : Int) := by
  have h0 : 0 ≤ x % ((2 ^ w : Nat) : Int) := Int.emod_nonneg _ (pow_cast_pos w).ne'
  have h1 : x % ((2 ^ w : Nat) : Int) < ((2 ^ w : Nat) : Int) := Int.emod_lt_of_pos _ (pow_cast_pos w)
  have h2 : ((2 ^ w : Nat) : Int) ≤ 2 ^ 64 := by
    exact_mod_cast Nat.pow_le_pow_right (by norm_num) h
  simp only [uint, wrap, BitVec.toNat_ofInt]
  rw [Int.toNat_of_nonneg (Int.emod_nonneg _ (by norm_num))]
  exact Int.emod_eq_of_lt h0 (lt_of_lt_of_le h1 (by exact_mod_cast h2))

theorem toNat_wrap {w : Nat} (h : w ≤ 64) (x : Int) :
    ((wrap w x).toNat : Int) = x % ((2 ^ w : Nat) : Int) := uint_wrap h x

/-- A wrapped pattern has no bit at or above its width (10_state.md R31). -/
theorem wrap_lt {w : Nat} (h : w ≤ 64) (x : Int) : (wrap w x).toNat < 2 ^ w := by
  have := toNat_wrap h x
  have := Int.emod_lt_of_pos x (pow_cast_pos w)
  omega

/-- Numbers that differ by a multiple of 2^W wrap to the same pattern. -/
theorem wrap_congr {w : Nat} {x y : Int} (h : x % ((2 ^ w : Nat) : Int) = y % ((2 ^ w : Nat) : Int)) :
    wrap w x = wrap w y := by
  rw [wrap, wrap, h]

theorem wrap_natCast {w n : Nat} : wrap w (n : Int) = BitVec.ofNat 64 (n % 2 ^ w) := by
  have : ((n : Int) % ((2 ^ w : Nat) : Int)) = ((n % 2 ^ w : Nat) : Int) := by push_cast; rfl
  rw [wrap, this, BitVec.ofInt_natCast]

/-- A pattern within its width wraps to itself. -/
theorem wrap_uint {w : Nat} {a : Word} (h : a.toNat < 2 ^ w) : wrap w (uint a) = a := by
  rw [uint, wrap_natCast, Nat.mod_eq_of_lt h, BitVec.ofNat_toNat, BitVec.setWidth_eq]

theorem eq_of_uint_eq {a b : Word} (h : uint a = uint b) : a = b := by
  apply BitVec.eq_of_toNat_eq
  simpa [uint] using h

theorem uint_nonneg (a : Word) : 0 ≤ uint a := by simp [uint]

/-! ### The two's-complement reading -/

/-- The reading differs from the pattern by a multiple of 2^W. -/
theorem sint_emod (w : Nat) (a : Word) :
    sint w a % ((2 ^ w : Nat) : Int) = uint a % ((2 ^ w : Nat) : Int) := by
  unfold sint uint
  split
  · simp
  · rfl

/-- Wrapping the reading gives the pattern back. -/
theorem wrap_sint {w : Nat} {a : Word} (h : a.toNat < 2 ^ w) : wrap w (sint w a) = a := by
  rw [wrap_congr (sint_emod w a), wrap_uint h]

/-- The top bit of a W-bit pattern says whether it is at least 2^(W-1). -/
theorem getLsbD_top {w : Nat} (hw : 1 ≤ w) {a : Word} (h : a.toNat < 2 ^ w) :
    a.getLsbD (w - 1) = decide (2 ^ (w - 1) ≤ a.toNat) := by
  obtain ⟨v, rfl⟩ : ∃ v, w = v + 1 := ⟨w - 1, by omega⟩
  simp only [Nat.add_sub_cancel]
  rw [BitVec.getLsbD, Nat.testBit_eq_decide_div_mod_eq]
  have h1 : a.toNat / 2 ^ v < 2 := by
    rw [Nat.div_lt_iff_lt_mul (Nat.two_pow_pos v)]
    rw [pow_succ] at h
    omega
  rw [Nat.mod_eq_of_lt h1]
  by_cases h2 : 2 ^ v ≤ a.toNat
  · have : 1 ≤ a.toNat / 2 ^ v := (Nat.one_le_div_iff (Nat.two_pow_pos v)).2 h2
    simp [h2]
    omega
  · have : a.toNat / 2 ^ v = 0 := Nat.div_eq_of_lt (by omega)
    simp [h2, this]

/-- The reading of a W-bit pattern lies in `[-2^(W-1), 2^(W-1))` (R141). -/
theorem sint_bounds {w : Nat} (hw : 1 ≤ w) {a : Word} (h : a.toNat < 2 ^ w) :
    -((2 ^ (w - 1) : Nat) : Int) ≤ sint w a ∧ sint w a < ((2 ^ (w - 1) : Nat) : Int) := by
  have hp : 2 ^ w = 2 * 2 ^ (w - 1) := by
    rw [← pow_succ']
    congr 1
    omega
  rw [sint, getLsbD_top hw h, hp]
  rw [hp] at h
  generalize 2 ^ (w - 1) = q at h ⊢
  by_cases h2 : q ≤ a.toNat
  · simp only [h2, decide_true, if_true]
    omega
  · simp only [h2, decide_false, Bool.false_eq_true, if_false]
    omega

/-- A number in the signed range is read back from its wrapped pattern. -/
theorem sint_wrap {w : Nat} (hw : 1 ≤ w) (h64 : w ≤ 64) {x : Int}
    (h1 : -((2 ^ (w - 1) : Nat) : Int) ≤ x) (h2 : x < ((2 ^ (w - 1) : Nat) : Int)) :
    sint w (wrap w x) = x := by
  have b := sint_bounds hw (wrap_lt h64 x)
  have m : (sint w (wrap w x) - x) % ((2 ^ w : Nat) : Int) = 0 := by
    rw [Int.sub_emod, sint_emod, uint_wrap h64, Int.emod_emod_of_dvd _ (dvd_refl _), sub_self, Int.zero_emod]
  have hp : (2 ^ w : Nat) = 2 * 2 ^ (w - 1) := by
    rw [← pow_succ']
    congr 1
    omega
  obtain ⟨c, hc⟩ := Int.dvd_of_emod_eq_zero m
  have hpos := pow_cast_pos (w - 1)
  have hpow : ((2 ^ w : Nat) : Int) = 2 * ((2 ^ (w - 1) : Nat) : Int) := by exact_mod_cast hp
  rw [hpow] at hc
  have c0 : c = 0 := by
    rcases lt_trichotomy c 0 with hneg | h0 | hpos'
    · have : 2 * ((2 ^ (w - 1) : Nat) : Int) * c ≤ 2 * ((2 ^ (w - 1) : Nat) : Int) * (-1) :=
        mul_le_mul_of_nonneg_left (by omega) (by omega)
      omega
    · exact h0
    · have : 2 * ((2 ^ (w - 1) : Nat) : Int) * 1 ≤ 2 * ((2 ^ (w - 1) : Nat) : Int) * c :=
        mul_le_mul_of_nonneg_left (by omega) (by omega)
      omega
  rw [c0, mul_zero] at hc
  omega

/-! ### The bitwise search -/

/-- The search finds the greatest number of at most `bits` bits above `acc` that satisfies `p`. -/
theorem greatest_spec (p : Nat → Bool) (down : ∀ m n, m ≤ n → p n = true → p m = true) :
    ∀ bits acc, p acc = true →
      p (greatest p bits acc) = true ∧ acc ≤ greatest p bits acc ∧
        ∀ m, p m = true → m < acc + 2 ^ bits → m ≤ greatest p bits acc := by
  intro bits
  induction bits with
  | zero =>
    intro acc h
    refine ⟨h, le_rfl, fun m _ hm => ?_⟩
    simp only [pow_zero] at hm
    simp only [greatest]
    omega
  | succ b ih =>
    intro acc h
    simp only [greatest]
    have hp : 2 ^ (b + 1) = 2 ^ b + 2 ^ b := by rw [pow_succ]; omega
    rw [hp]
    have ih1 := ih (acc + 2 ^ b)
    have ih2 := ih acc
    generalize 2 ^ b = q at *
    by_cases hb : p (acc + q) = true
    · rw [if_pos hb]
      obtain ⟨h1, h2, h3⟩ := ih1 hb
      exact ⟨h1, by omega, fun m hm hlt => h3 m hm (by omega)⟩
    · rw [if_neg hb]
      obtain ⟨h1, h2, h3⟩ := ih2 h
      refine ⟨h1, h2, fun m hm hlt => h3 m hm ?_⟩
      by_contra hge
      exact hb (down _ _ (by omega) hm)

/-- isqrt(n) is the greatest m with m*m <= n (R13). -/
theorem isqrt_spec {n : Nat} (h : n < 2 ^ 128) :
    isqrt n * isqrt n ≤ n ∧ ∀ m, m * m ≤ n → m ≤ isqrt n := by
  have down : ∀ a b : Nat, a ≤ b → decide (b * b ≤ n) = true → decide (a * a ≤ n) = true := by
    intro a b hab hb
    simp only [decide_eq_true_eq] at hb ⊢
    exact le_trans (Nat.mul_le_mul hab hab) hb
  obtain ⟨h1, -, h3⟩ := greatest_spec (fun m => decide (m * m ≤ n)) down 64 0 (by simp)
  refine ⟨of_decide_eq_true h1, fun m hm => h3 m (by simpa using hm) ?_⟩
  by_contra hge
  have : 2 ^ 64 * 2 ^ 64 ≤ m * m := Nat.mul_le_mul (by omega) (by omega)
  have : (2 : Nat) ^ 64 * 2 ^ 64 = 2 ^ 128 := by norm_num
  omega

end Sys2Proof.Machine
end

