-- ==== Sys2Proof/Laws/Cosine.lean ====
section
/-! SUPPORT. The comparison behind the twiddle ROM compares with the real cosine (40_bitrev_twiddle.md
R95: evaluated exactly on the reals). -/

namespace Sys2Proof.Machine

open Real

/-- The angle `2*pi*k / 2^L`. -/
noncomputable def angle (L k : Nat) : ℝ := 2 * π * k / 2 ^ L

theorem angle_nonneg (L k : Nat) : 0 ≤ angle L k := by
  unfold angle
  positivity

/-- Halving the number of steps doubles the angle. -/
theorem angle_succ (L k : Nat) : angle L k = 2 * angle (L + 1) k := by
  unfold angle
  rw [pow_succ]
  field_simp

theorem angle_le_pi {L k : Nat} (h : 2 * k ≤ 2 ^ L) : angle L k ≤ π := by
  have h' : (2 : ℝ) * k ≤ 2 ^ L := by exact_mod_cast h
  unfold angle
  rw [div_le_iff₀ (by positivity)]
  nlinarith [pi_pos]

theorem angle_le_half_pi {L k : Nat} (h : 4 * k ≤ 2 ^ L) : angle L k ≤ π / 2 := by
  have h' : (4 : ℝ) * k ≤ 2 ^ L := by exact_mod_cast h
  unfold angle
  rw [div_le_iff₀ (by positivity)]
  nlinarith [pi_pos]

theorem half_pi_lt_angle {L k : Nat} (h : 2 ^ L < 4 * k) : π / 2 < angle L k := by
  have h' : (2 : ℝ) ^ L < 4 * k := by exact_mod_cast h
  unfold angle
  rw [lt_div_iff₀ (by positivity)]
  nlinarith [pi_pos]

/-- Past half a turn, the angle counted from the other side (the full turn is `2^L` steps). -/
theorem angle_fold {L k : Nat} (h : k ≤ 2 ^ L) : angle L (2 ^ L - k) = 2 * π - angle L k := by
  unfold angle
  rw [Nat.cast_sub h]
  push_cast
  field_simp

/-- The three-way comparison of `x` with the cosine of an angle. -/
def ComparesWith (o : Ordering) (x c : ℝ) : Prop := (o = .lt ↔ x < c) ∧ (o = .gt ↔ c < x)

theorem ComparesWith.swap {o : Ordering} {x c : ℝ} (h : ComparesWith o x c) :
    ComparesWith o.swap c x := by
  obtain ⟨h1, h2⟩ := h
  cases o <;> simp_all [ComparesWith]

/-- Both not negative: their doubled squares decide. -/
theorem ComparesWith.of_sq_nonneg {o : Ordering} {x c : ℝ} (hx : 0 ≤ x) (hc : 0 ≤ c)
    (h : ComparesWith o (2 * x ^ 2 - 1) (2 * c ^ 2 - 1)) : ComparesWith o x c := by
  have e1 : 2 * x ^ 2 - 1 < 2 * c ^ 2 - 1 ↔ x < c := by
    rw [← abs_of_nonneg hx, ← abs_of_nonneg hc, ← sq_lt_sq, abs_of_nonneg hx, abs_of_nonneg hc]
    constructor <;> intro <;> linarith
  have e2 : 2 * c ^ 2 - 1 < 2 * x ^ 2 - 1 ↔ c < x := by
    rw [← abs_of_nonneg hx, ← abs_of_nonneg hc, ← sq_lt_sq, abs_of_nonneg hx, abs_of_nonneg hc]
    constructor <;> intro <;> linarith
  exact ⟨h.1.trans e1, h.2.trans e2⟩

/-- Both negative: their doubled squares decide the other way round. -/
theorem ComparesWith.of_sq_neg {o : Ordering} {x c : ℝ} (hx : x < 0) (hc : c < 0)
    (h : ComparesWith o (2 * x ^ 2 - 1) (2 * c ^ 2 - 1)) : ComparesWith o.swap x c := by
  have h' : ComparesWith o (-x) (-c) :=
    ComparesWith.of_sq_nonneg (by linarith) (by linarith) (by simpa using h)
  have := h'.swap
  refine ⟨this.1.trans ?_, this.2.trans ?_⟩ <;> constructor <;> intro <;> linarith

/-- The number `a / 2^e` after one doubling of the angle. -/
theorem doubled_dyadic (a : Int) (e : Nat) :
    (((2 * (a * a) - ((2 ^ (2 * e) : Nat) : Int) : Int) : ℝ) / 2 ^ (2 * e)) =
      2 * ((a : ℝ) / 2 ^ e) ^ 2 - 1 := by
  push_cast
  have h : (2 : ℝ) ^ (2 * e) = (2 ^ e) ^ 2 := by rw [← pow_mul, mul_comm]
  rw [h]
  field_simp

/-- `cmpCos` compares the dyadic number with the cosine, for every angle in `[0, pi]`. -/
theorem cmpCos_spec : ∀ (L k : Nat) (a : Int) (e : Nat), 2 * k ≤ 2 ^ L →
    ComparesWith (cmpCos L k a e) ((a : ℝ) / 2 ^ e) (cos (angle L k)) := by
  intro L
  induction L with
  | zero =>
    intro k a e h
    have hk : k = 0 := by
      simp only [pow_zero] at h
      omega
    subst hk
    have hp : (0 : ℝ) < 2 ^ e := by positivity
    have hcos : cos (angle 0 0) = 1 := by simp [angle]
    have hc : ((2 ^ e : Nat) : ℝ) = 2 ^ e := by push_cast; rfl
    rw [hcos]
    simp only [cmpCos, ComparesWith, compare_lt_iff_lt, compare_gt_iff_gt]
    constructor
    · rw [div_lt_one hp, ← hc]
      exact_mod_cast Iff.rfl
    · rw [one_lt_div hp, ← hc]
      exact_mod_cast Iff.rfl
  | succ L ih =>
    intro k a e h
    have hp : (0 : ℝ) < 2 ^ e := by positivity
    have h2 : (2 : Nat) ^ (L + 1) = 2 * 2 ^ L := pow_succ' 2 L
    have dbl : cos (angle L k) = 2 * cos (angle (L + 1) k) ^ 2 - 1 := by
      rw [angle_succ, cos_two_mul]
    simp only [cmpCos]
    by_cases hk : 2 * k ≤ 2 ^ L
    · rw [if_pos hk]
      have hc : 0 ≤ cos (angle (L + 1) k) :=
        cos_nonneg_of_neg_pi_div_two_le_of_le (by linarith [angle_nonneg (L + 1) k, pi_pos])
          (angle_le_half_pi (by omega))
      by_cases ha : a < 0
      · rw [if_pos ha]
        have hx : (a : ℝ) / 2 ^ e < 0 := div_neg_of_neg_of_pos (by exact_mod_cast ha) hp
        refine ⟨by simp; linarith, by simp; linarith⟩
      · rw [if_neg ha]
        have hx : 0 ≤ (a : ℝ) / 2 ^ e := div_nonneg (by exact_mod_cast not_lt.1 ha) hp.le
        have := ih k (2 * (a * a) - ((2 ^ (2 * e) : Nat) : Int)) (2 * e) hk
        rw [doubled_dyadic, dbl] at this
        exact ComparesWith.of_sq_nonneg hx hc this
    · rw [if_neg hk]
      have hc : cos (angle (L + 1) k) < 0 :=
        cos_neg_of_pi_div_two_lt_of_lt (half_pi_lt_angle (by omega))
          (by linarith [angle_le_pi (L := L + 1) (k := k) h, pi_pos])
      by_cases ha : 0 ≤ a
      · rw [if_pos ha]
        have hx : 0 ≤ (a : ℝ) / 2 ^ e := div_nonneg (by exact_mod_cast ha) hp.le
        refine ⟨by simp; linarith, by simp; linarith⟩
      · rw [if_neg ha]
        have hx : (a : ℝ) / 2 ^ e < 0 := div_neg_of_neg_of_pos (by exact_mod_cast not_le.1 ha) hp
        have hle : k ≤ 2 ^ L := by omega
        have := ih (2 ^ L - k) (2 * (a * a) - ((2 ^ (2 * e) : Nat) : Int)) (2 * e) (by omega)
        rw [angle_fold hle, cos_two_pi_sub, doubled_dyadic, dbl] at this
        exact ComparesWith.of_sq_neg hx hc this

/-- What the quantiser adds before it takes the floor of the magnitude (R162). -/
noncomputable def roundingShift : Twq → ℝ
  | .trunc => 0
  | .nearest => 1 / 2

/-- A rounding point is reached exactly when the shifted magnitude reaches the number. -/
theorem roundingPoint_le (q : Twq) (f n : Nat) (c : ℝ) :
    ((roundingPoint q n : Int) : ℝ) / 2 ^ (f + 1) ≤ c ↔ (n : ℝ) ≤ c * 2 ^ f + roundingShift q := by
  rw [div_le_iff₀ (by positivity), pow_succ]
  cases q <;> simp only [roundingPoint, roundingShift] <;> push_cast <;> constructor <;> intro h <;> linarith

/-- `cosMagnitude` is the quantised magnitude of the cosine: the floor of R162. -/
theorem cosMagnitude_spec (q : Twq) (f L k : Nat) (h : 4 * k ≤ 2 ^ L) :
    ((cosMagnitude q f L k : Nat) : Int) = ⌊cos (angle L k) * 2 ^ f + roundingShift q⌋ := by
  have hc0 : 0 ≤ cos (angle L k) :=
    cos_nonneg_of_neg_pi_div_two_le_of_le (by linarith [angle_nonneg L k, pi_pos]) (angle_le_half_pi h)
  have hc1 : cos (angle L k) ≤ 1 := cos_le_one _
  have hs0 : 0 ≤ roundingShift q := by cases q <;> simp [roundingShift]
  have hs1 : roundingShift q < 1 := by cases q <;> simp only [roundingShift] <;> norm_num
  have hp : ∀ n, (cmpCos L k (roundingPoint q n) (f + 1) != .gt) = true ↔
      (n : ℝ) ≤ cos (angle L k) * 2 ^ f + roundingShift q := by
    intro n
    rw [← roundingPoint_le q f n, bne_iff_ne, ne_eq,
      (cmpCos_spec L k (roundingPoint q n) (f + 1) (by omega)).2, not_lt]
  have hf : (0 : ℝ) < 2 ^ f := by positivity
  obtain ⟨h1, -, h3⟩ := greatest_spec (fun n => cmpCos L k (roundingPoint q n) (f + 1) != .gt)
    (fun m n hmn hn => (hp m).2 (le_trans (by exact_mod_cast hmn) ((hp n).1 hn))) (f + 1) 0
    ((hp 0).2 (by push_cast; positivity))
  symm
  rw [Int.floor_eq_iff]
  refine ⟨by exact_mod_cast (hp _).1 h1, ?_⟩
  by_contra hge
  have hge' : ((cosMagnitude q f L k + 1 : Nat) : ℝ) ≤ cos (angle L k) * 2 ^ f + roundingShift q := by
    push_cast
    simpa using not_lt.1 hge
  have hlt : cosMagnitude q f L k + 1 < 0 + 2 ^ (f + 1) := by
    have : ((cosMagnitude q f L k + 1 : Nat) : ℝ) < 2 ^ f + 1 := by nlinarith
    have : cosMagnitude q f L k + 1 < 2 ^ f + 1 := by exact_mod_cast this
    have := Nat.one_le_two_pow (n := f)
    rw [pow_succ]
    omega
  have := h3 _ ((hp _).2 hge') hlt
  simp only [cosMagnitude] at this
  omega

end Sys2Proof.Machine
end

