-- ==== Sys2Proof/Laws/Decode.lean ====
section
/-! SUPPORT. Each field of each format, read back from the word the encoder builds, and the word under
its format's mask (30_encoding.md R72 to R80). -/

namespace Sys2Proof

/-! ### Format Z -/

@[simp] theorem bits_wordZ_op (op : BitVec 6) : bits (wordZ op) 26 6 = op := by
  unfold bits wordZ place
  apply BitVec.eq_of_getLsbD_eq
  intro i hi
  interval_cases i <;> simp

@[simp] theorem bits_wordZ_zero (op : BitVec 6) : bits (wordZ op) 0 26 = 0#26 := by
  unfold bits wordZ place
  apply BitVec.eq_of_getLsbD_eq
  intro i hi
  interval_cases i <;> simp

theorem wordZ_and_mask (op : BitVec 6) : wordZ op &&& 0xFFFFFFFF#32 = place op 26 := by
  unfold wordZ place
  apply BitVec.eq_of_getLsbD_eq
  intro i hi
  interval_cases i <;> simp

/-! ### Format S -/

@[simp] theorem bits_wordS_op (op : BitVec 6) (iw fw : BitVec 5) (n : BitVec 16) : bits (wordS op iw fw n) 26 6 = op := by
  unfold bits wordS place
  apply BitVec.eq_of_getLsbD_eq
  intro i hi
  interval_cases i <;> simp

@[simp] theorem bits_wordS_iw (op : BitVec 6) (iw fw : BitVec 5) (n : BitVec 16) : bits (wordS op iw fw n) 21 5 = iw := by
  unfold bits wordS place
  apply BitVec.eq_of_getLsbD_eq
  intro i hi
  interval_cases i <;> simp

@[simp] theorem bits_wordS_fw (op : BitVec 6) (iw fw : BitVec 5) (n : BitVec 16) : bits (wordS op iw fw n) 16 5 = fw := by
  unfold bits wordS place
  apply BitVec.eq_of_getLsbD_eq
  intro i hi
  interval_cases i <;> simp

@[simp] theorem bits_wordS_n (op : BitVec 6) (iw fw : BitVec 5) (n : BitVec 16) : bits (wordS op iw fw n) 0 16 = n := by
  unfold bits wordS place
  apply BitVec.eq_of_getLsbD_eq
  intro i hi
  interval_cases i <;> simp

theorem wordS_and_mask (op : BitVec 6) (iw fw : BitVec 5) (n : BitVec 16) : wordS op iw fw n &&& 0xFC000000#32 = place op 26 := by
  unfold wordS place
  apply BitVec.eq_of_getLsbD_eq
  intro i hi
  interval_cases i <;> simp

/-! ### Format R -/

@[simp] theorem bits_wordR_op (op : BitVec 6) (rd ra rb : BitVec 4) : bits (wordR op rd ra rb) 26 6 = op := by
  unfold bits wordR place
  apply BitVec.eq_of_getLsbD_eq
  intro i hi
  interval_cases i <;> simp

@[simp] theorem bits_wordR_rd (op : BitVec 6) (rd ra rb : BitVec 4) : bits (wordR op rd ra rb) 22 4 = rd := by
  unfold bits wordR place
  apply BitVec.eq_of_getLsbD_eq
  intro i hi
  interval_cases i <;> simp

@[simp] theorem bits_wordR_ra (op : BitVec 6) (rd ra rb : BitVec 4) : bits (wordR op rd ra rb) 18 4 = ra := by
  unfold bits wordR place
  apply BitVec.eq_of_getLsbD_eq
  intro i hi
  interval_cases i <;> simp

@[simp] theorem bits_wordR_rb (op : BitVec 6) (rd ra rb : BitVec 4) : bits (wordR op rd ra rb) 14 4 = rb := by
  unfold bits wordR place
  apply BitVec.eq_of_getLsbD_eq
  intro i hi
  interval_cases i <;> simp

@[simp] theorem bits_wordR_zero (op : BitVec 6) (rd ra rb : BitVec 4) : bits (wordR op rd ra rb) 0 14 = 0#14 := by
  unfold bits wordR place
  apply BitVec.eq_of_getLsbD_eq
  intro i hi
  interval_cases i <;> simp

theorem wordR_and_mask (op : BitVec 6) (rd ra rb : BitVec 4) : wordR op rd ra rb &&& 0xFC003FFF#32 = place op 26 := by
  unfold wordR place
  apply BitVec.eq_of_getLsbD_eq
  intro i hi
  interval_cases i <;> simp

/-! ### Format C -/

@[simp] theorem bits_wordC_op (op : BitVec 6) (p1 p2 p3 : BitVec 3) : bits (wordC op p1 p2 p3) 26 6 = op := by
  unfold bits wordC place
  apply BitVec.eq_of_getLsbD_eq
  intro i hi
  interval_cases i <;> simp

@[simp] theorem bits_wordC_p1 (op : BitVec 6) (p1 p2 p3 : BitVec 3) : bits (wordC op p1 p2 p3) 23 3 = p1 := by
  unfold bits wordC place
  apply BitVec.eq_of_getLsbD_eq
  intro i hi
  interval_cases i <;> simp

@[simp] theorem bits_wordC_p2 (op : BitVec 6) (p1 p2 p3 : BitVec 3) : bits (wordC op p1 p2 p3) 20 3 = p2 := by
  unfold bits wordC place
  apply BitVec.eq_of_getLsbD_eq
  intro i hi
  interval_cases i <;> simp

@[simp] theorem bits_wordC_p3 (op : BitVec 6) (p1 p2 p3 : BitVec 3) : bits (wordC op p1 p2 p3) 17 3 = p3 := by
  unfold bits wordC place
  apply BitVec.eq_of_getLsbD_eq
  intro i hi
  interval_cases i <;> simp

@[simp] theorem bits_wordC_zero (op : BitVec 6) (p1 p2 p3 : BitVec 3) : bits (wordC op p1 p2 p3) 0 17 = 0#17 := by
  unfold bits wordC place
  apply BitVec.eq_of_getLsbD_eq
  intro i hi
  interval_cases i <;> simp

theorem wordC_and_mask (op : BitVec 6) (p1 p2 p3 : BitVec 3) : wordC op p1 p2 p3 &&& 0xFC01FFFF#32 = place op 26 := by
  unfold wordC place
  apply BitVec.eq_of_getLsbD_eq
  intro i hi
  interval_cases i <;> simp

/-! ### Format X -/

@[simp] theorem bits_wordX_op (op : BitVec 6) (a5 : BitVec 5) (imm : BitVec 16) : bits (wordX op a5 imm) 26 6 = op := by
  unfold bits wordX place
  apply BitVec.eq_of_getLsbD_eq
  intro i hi
  interval_cases i <;> simp

@[simp] theorem bits_wordX_a5 (op : BitVec 6) (a5 : BitVec 5) (imm : BitVec 16) : bits (wordX op a5 imm) 21 5 = a5 := by
  unfold bits wordX place
  apply BitVec.eq_of_getLsbD_eq
  intro i hi
  interval_cases i <;> simp

@[simp] theorem bits_wordX_imm (op : BitVec 6) (a5 : BitVec 5) (imm : BitVec 16) : bits (wordX op a5 imm) 0 16 = imm := by
  unfold bits wordX place
  apply BitVec.eq_of_getLsbD_eq
  intro i hi
  interval_cases i <;> simp

@[simp] theorem bits_wordX_zero (op : BitVec 6) (a5 : BitVec 5) (imm : BitVec 16) : bits (wordX op a5 imm) 16 5 = 0#5 := by
  unfold bits wordX place
  apply BitVec.eq_of_getLsbD_eq
  intro i hi
  interval_cases i <;> simp

theorem wordX_and_mask (op : BitVec 6) (a5 : BitVec 5) (imm : BitVec 16) : wordX op a5 imm &&& 0xFC1F0000#32 = place op 26 := by
  unfold wordX place
  apply BitVec.eq_of_getLsbD_eq
  intro i hi
  interval_cases i <;> simp

/-! ### Format P -/

@[simp] theorem bits_wordP_op (op : BitVec 6) (p : BitVec 3) (b : BitVec 1) (imm : BitVec 16) : bits (wordP op p b imm) 26 6 = op := by
  unfold bits wordP place
  apply BitVec.eq_of_getLsbD_eq
  intro i hi
  interval_cases i <;> simp

@[simp] theorem bits_wordP_p (op : BitVec 6) (p : BitVec 3) (b : BitVec 1) (imm : BitVec 16) : bits (wordP op p b imm) 23 3 = p := by
  unfold bits wordP place
  apply BitVec.eq_of_getLsbD_eq
  intro i hi
  interval_cases i <;> simp

@[simp] theorem bits_wordP_b (op : BitVec 6) (p : BitVec 3) (b : BitVec 1) (imm : BitVec 16) : bits (wordP op p b imm) 22 1 = b := by
  unfold bits wordP place
  apply BitVec.eq_of_getLsbD_eq
  intro i hi
  interval_cases i <;> simp

@[simp] theorem bits_wordP_imm (op : BitVec 6) (p : BitVec 3) (b : BitVec 1) (imm : BitVec 16) : bits (wordP op p b imm) 0 16 = imm := by
  unfold bits wordP place
  apply BitVec.eq_of_getLsbD_eq
  intro i hi
  interval_cases i <;> simp

@[simp] theorem bits_wordP_zero (op : BitVec 6) (p : BitVec 3) (b : BitVec 1) (imm : BitVec 16) : bits (wordP op p b imm) 16 6 = 0#6 := by
  unfold bits wordP place
  apply BitVec.eq_of_getLsbD_eq
  intro i hi
  interval_cases i <;> simp

theorem wordP_and_mask (op : BitVec 6) (p : BitVec 3) (b : BitVec 1) (imm : BitVec 16) : wordP op p b imm &&& 0xFC3F0000#32 = place op 26 := by
  unfold wordP place
  apply BitVec.eq_of_getLsbD_eq
  intro i hi
  interval_cases i <;> simp

/-! ### Format M -/

@[simp] theorem bits_wordM_op (op : BitVec 6) (mode : BitVec 2) : bits (wordM op mode) 26 6 = op := by
  unfold bits wordM place
  apply BitVec.eq_of_getLsbD_eq
  intro i hi
  interval_cases i <;> simp

@[simp] theorem bits_wordM_mode (op : BitVec 6) (mode : BitVec 2) : bits (wordM op mode) 24 2 = mode := by
  unfold bits wordM place
  apply BitVec.eq_of_getLsbD_eq
  intro i hi
  interval_cases i <;> simp

@[simp] theorem bits_wordM_zero (op : BitVec 6) (mode : BitVec 2) : bits (wordM op mode) 0 24 = 0#24 := by
  unfold bits wordM place
  apply BitVec.eq_of_getLsbD_eq
  intro i hi
  interval_cases i <;> simp

theorem wordM_and_mask (op : BitVec 6) (mode : BitVec 2) : wordM op mode &&& 0xFCFFFFFF#32 = place op 26 := by
  unfold wordM place
  apply BitVec.eq_of_getLsbD_eq
  intro i hi
  interval_cases i <;> simp

/-! ### The reserved fields of FXNEG, TWID and STAGE -/

theorem bits_wordR_fxneg (op : BitVec 6) (rd ra : BitVec 4) : bits (wordR op rd ra 0#4) 0 18 = 0#18 := by
  unfold bits wordR place
  apply BitVec.eq_of_getLsbD_eq
  intro i hi
  interval_cases i <;> simp

theorem wordR_fxneg_and_mask (op : BitVec 6) (rd ra : BitVec 4) :
    wordR op rd ra 0#4 &&& 0xFC03FFFF#32 = place op 26 := by
  unfold wordR place
  apply BitVec.eq_of_getLsbD_eq
  intro i hi
  interval_cases i <;> simp

theorem bits_wordP_twid (op : BitVec 6) (p : BitVec 3) (imm : BitVec 16) :
    bits (wordP op p 0#1 imm) 16 7 = 0#7 := by
  unfold bits wordP place
  apply BitVec.eq_of_getLsbD_eq
  intro i hi
  interval_cases i <;> simp

theorem wordP_twid_and_mask (op : BitVec 6) (p : BitVec 3) (imm : BitVec 16) :
    wordP op p 0#1 imm &&& 0xFC7F0000#32 = place op 26 := by
  unfold wordP place
  apply BitVec.eq_of_getLsbD_eq
  intro i hi
  interval_cases i <;> simp

theorem bits_wordX_stage (op : BitVec 6) (s : BitVec 5) : bits (wordX op s 0#16) 0 21 = 0#21 := by
  unfold bits wordX place
  apply BitVec.eq_of_getLsbD_eq
  intro i hi
  interval_cases i <;> simp

theorem wordX_stage_and_mask (op : BitVec 6) (s : BitVec 5) :
    wordX op s 0#16 &&& 0xFC1FFFFF#32 = place op 26 := by
  unfold wordX place
  apply BitVec.eq_of_getLsbD_eq
  intro i hi
  interval_cases i <;> simp

/-! ### Register, pair and buffer fields as numbers -/

@[simp] theorem toNat_regBits (r : Reg) : (regBits r).toNat = r.val := by
  simp [regBits]

@[simp] theorem toNat_pairBits (p : PairNum) : (pairBits p).toNat = p.val := by
  simp [pairBits]

theorem selBits_eq_zero (b : BufSel) : selBits b = 0#1 ↔ b = .inbuf := by
  cases b <;> decide

/-- The low half of a zero-extended command word is the word, and the high half is 0 (R70, R85). -/
theorem decodeData_zeroExtend (c : CmdWord) : decodeData (c.zeroExtend 64) = decodeWord c := by
  have h1 : (c.zeroExtend 64).extractLsb' 32 32 = 0#32 := by
    apply BitVec.eq_of_getLsbD_eq
    intro i hi
    simp [hi]
  have h2 : (c.zeroExtend 64).extractLsb' 0 32 = c := by
    apply BitVec.eq_of_getLsbD_eq
    intro i hi
    have : i < 64 := by omega
    simp [hi, this]
  rw [decodeData, if_pos h1, h2]

end Sys2Proof
end

