-- ==== Sys2Proof/Laws/Loops.lean ====
section
/-! SUPPORT. What a loop of buffer writes can do, said once, and what one pass of each loop of PERMUTE,
STAGE and SPECTRUM writes (41_butterfly_stage.md R113, R115; 44_spectrum.md R174). -/

namespace Sys2Proof.Machine

section Loops

variable {α β : Type} {pass : Memory α → β → Memory α} {l : List β} {m : Memory α} {k : Nat}

/-- A slot that no pass writes is as before the loop. -/
theorem get_foldl_other (h : ∀ i ∈ l, ∀ y, (pass y i).get k = y.get k) :
    (l.foldl pass m).get k = m.get k := by
  induction l generalizing m with
  | nil => rfl
  | cons a rest ih =>
    rw [List.foldl_cons, ih fun i hi => h i (List.mem_cons_of_mem _ hi), h a (List.mem_cons_self)]

/-- A slot that one pass writes, and no other changes, holds what that pass wrote. -/
theorem get_foldl_written {i : β} {w : Option α} (hi : i ∈ l)
    (hw : ∀ y, (pass y i).get k = w) (h : ∀ j ∈ l, j ≠ i → ∀ y, (pass y j).get k = y.get k) :
    (l.foldl pass m).get k = w := by
  induction l generalizing m with
  | nil => simp at hi
  | cons a rest ih =>
    rw [List.foldl_cons]
    by_cases hr : i ∈ rest
    · exact ih hr fun j hj => h j (List.mem_cons_of_mem _ hj)
    · have ha : i = a := by
        rcases List.mem_cons.1 hi with h1 | h1
        · exact h1
        · exact absurd h1 hr
      rw [get_foldl_other fun j hj => h j (List.mem_cons_of_mem _ hj) fun e => hr (e ▸ hj), ← ha, hw]

/-- A property of buffers that every pass keeps, the loop keeps. -/
theorem foldl_keeps {P : Memory α → Prop} (h : ∀ i ∈ l, ∀ y, P y → P (pass y i)) (hm : P m) :
    P (l.foldl pass m) := by
  induction l generalizing m with
  | nil => exact hm
  | cons a rest ih =>
    exact ih (fun i hi => h i (List.mem_cons_of_mem _ hi)) (h a List.mem_cons_self m hm)

end Loops

/-! ### The passes of the three loops -/

/-- One butterfly writes its two entries and no other. -/
theorem get_stageOne_other {q : Twq} {t : Tag} {L s i k : Nat} (x y : Memory TWord)
    (h1 : k / 2 ≠ addr1 s i) (h2 : k / 2 ≠ addr2 s i) : (stageOne q t L s x y i).get k = y.get k := by
  have slots : ∀ j, k / 2 ≠ j → k ≠ reSlot j ∧ k ≠ imSlot j := by
    intro j hj
    simp only [reSlot, imSlot]
    omega
  simp only [stageOne, Memory.putRawEntry]
  rw [Memory.get_putEntry_some_other _ _ _ _ _ (slots _ h2).1 (slots _ h2).2,
    Memory.get_putEntry_some_other _ _ _ _ _ (slots _ h1).1 (slots _ h1).2]

/-- The second operand of a butterfly lies above the first (R110). -/
theorem addr1_lt_addr2 (s i : Nat) : addr1 s i < addr2 s i := by
  simp only [addr2]
  have := Nat.two_pow_pos s
  omega

/-- What one butterfly leaves in its first entry. -/
theorem get_stageOne_first (q : Twq) (t : Tag) (L s i : Nat) (x y : Memory TWord) :
    let r := bfly t (x.rawEntry (addr1 s i)) (x.rawEntry (addr2 s i)) (rom q t L (tidx L s i))
    (stageOne q t L s x y i).get (reSlot (addr1 s i)) = some { tag := t, raw := r.1.re } ∧
      (stageOne q t L s x y i).get (imSlot (addr1 s i)) = some { tag := t, raw := r.1.im } := by
  have h := (addr1_lt_addr2 s i).ne
  simp [stageOne, Memory.putRawEntry, Memory.get_putEntry_some_re, Memory.get_putEntry_some_im, h]

/-- What one butterfly leaves in its second entry. -/
theorem get_stageOne_second (q : Twq) (t : Tag) (L s i : Nat) (x y : Memory TWord) :
    let r := bfly t (x.rawEntry (addr1 s i)) (x.rawEntry (addr2 s i)) (rom q t L (tidx L s i))
    (stageOne q t L s x y i).get (reSlot (addr2 s i)) = some { tag := t, raw := r.2.re } ∧
      (stageOne q t L s x y i).get (imSlot (addr2 s i)) = some { tag := t, raw := r.2.im } := by
  simp [stageOne, Memory.putRawEntry, Memory.get_putEntry_some_re, Memory.get_putEntry_some_im]

/-- SPECTRUM leaves in bins 0 to N/2 - 1 the words of the bin, and every other slot as it was. -/
theorem get_spectrumBody (mode : BitVec 2) (w n : Nat) (out : Memory TWord) (sp : Memory Word) :
    (∀ k, k < n / 2 →
      (spectrumBody mode w n out sp).get (reSlot k) = some (binWords mode w (out.rawEntry k)).1 ∧
      (spectrumBody mode w n out sp).get (imSlot k) = some (binWords mode w (out.rawEntry k)).2) ∧
    ∀ k, n / 2 ≤ k / 2 → (spectrumBody mode w n out sp).get k = sp.get k := by
  refine ⟨fun k hk => ⟨?_, ?_⟩, fun k hk => ?_⟩
  · refine get_foldl_written (i := k) (by simpa using hk) (fun y => ?_) fun j _ hj y => ?_
    · simp [spectrumOne, Memory.get_putEntry_some_re]
    · simp [spectrumOne, Memory.get_putEntry_some_re, Ne.symm hj]
  · refine get_foldl_written (i := k) (by simpa using hk) (fun y => ?_) fun j _ hj y => ?_
    · simp [spectrumOne, Memory.get_putEntry_some_im]
    · simp [spectrumOne, Memory.get_putEntry_some_im, Ne.symm hj]
  · refine get_foldl_other fun j hj y => ?_
    have hj' : j < n / 2 := by simpa using hj
    refine Memory.get_putEntry_some_other _ _ _ _ _ ?_ ?_ <;> simp only [reSlot, imSlot] <;> omega

end Sys2Proof.Machine
end

