-- ==== Sys2Proof/Laws/Index.lean ====
section
/-! SUPPORT. Bit by bit: what rev, addr1, addr2 and tidx are (40_bitrev_twiddle.md R90;
41_butterfly_stage.md R110). -/

namespace Sys2Proof.Machine

/-- The sum of R90, one summand at a time: the bits of `j` from the top bit down to bit `w - n` fill
the bits below `n`. -/
theorem rev_succ (w j : Nat) :
    rev (w + 1) j = (j.testBit w).toNat + 2 * rev w j := by
  have h : ∀ b ∈ List.range w, (j.testBit b).toNat * 2 ^ (w + 1 - 1 - b) =
      2 * ((j.testBit b).toNat * 2 ^ (w - 1 - b)) := by
    intro b hb
    have hb' : b < w := by simpa using hb
    have : w + 1 - 1 - b = (w - 1 - b) + 1 := by omega
    rw [this, pow_succ]
    ring
  rw [rev, List.range_succ, List.map_append, List.sum_append, List.map_congr_left h, rev]
  rw [← List.sum_map_mul_left]
  simp
  ring

/-- Bit `b` of rev_w(j) is bit `w - 1 - b` of `j` (R90). -/
theorem testBit_rev (w j b : Nat) : (rev w j).testBit b = (decide (b < w) && j.testBit (w - 1 - b)) := by
  induction w generalizing b with
  | zero => simp [rev]
  | succ w ih =>
    rw [rev_succ]
    cases b with
    | zero =>
      cases h : j.testBit w <;> simp [Nat.testBit_zero, h, Nat.add_mod]
    | succ b =>
      have : ((j.testBit w).toNat + 2 * rev w j) / 2 = rev w j := by
        have := Bool.toNat_lt (j.testBit w)
        omega
      rw [Nat.testBit_succ, this, ih]
      have e : w - (b + 1) = w - 1 - b := by omega
      simp [e]

theorem rev_lt (w j : Nat) : rev w j < 2 ^ w := by
  apply Nat.lt_pow_two_of_testBit
  intro b hb
  rw [testBit_rev]
  simp [Nat.not_lt.2 hb]

/-- addr1 as arithmetic (R110). -/
theorem addr1_eq (s i : Nat) : addr1 s i = 2 ^ (s + 1) * (i / 2 ^ s) + i % 2 ^ s := by
  simp only [addr1, Nat.shiftRight_eq_div_pow, Nat.shiftLeft_eq, Nat.and_two_pow_sub_one_eq_mod]
  rw [pow_succ]
  ring

/-- tidx as arithmetic (R110). -/
theorem tidx_eq (L s i : Nat) : tidx L s i = i % 2 ^ s * 2 ^ (L - s - 1) := by
  simp only [tidx, Nat.shiftLeft_eq, Nat.and_two_pow_sub_one_eq_mod]

/-- The part of addr1 below bit `s`, and the part from bit `s` up. -/
theorem addr1_parts (s i : Nat) : addr1 s i % 2 ^ s = i % 2 ^ s ∧ addr1 s i / 2 ^ s = 2 * (i / 2 ^ s) := by
  have hp := Nat.two_pow_pos s
  have e : addr1 s i = i % 2 ^ s + 2 ^ s * (2 * (i / 2 ^ s)) := by
    rw [addr1_eq, pow_succ]
    ring
  rw [e]
  exact ⟨by rw [Nat.add_mul_mod_self_left, Nat.mod_mod],
    by rw [Nat.add_mul_div_left _ _ hp, Nat.div_eq_of_lt (Nat.mod_lt _ hp), zero_add]⟩

/-- The same parts of addr2: one more from bit `s` up. -/
theorem addr2_parts (s i : Nat) :
    addr2 s i % 2 ^ s = i % 2 ^ s ∧ addr2 s i / 2 ^ s = 2 * (i / 2 ^ s) + 1 := by
  have hp := Nat.two_pow_pos s
  obtain ⟨h1, h2⟩ := addr1_parts s i
  rw [addr2, Nat.add_mod_right, Nat.add_div_right _ hp, h1, h2]
  exact ⟨rfl, rfl⟩

/-- A number is its parts below and from bit `s`. -/
theorem parts_ext {s a b : Nat} (h1 : a % 2 ^ s = b % 2 ^ s) (h2 : a / 2 ^ s = b / 2 ^ s) : a = b := by
  rw [← Nat.div_add_mod a (2 ^ s), ← Nat.div_add_mod b (2 ^ s), h1, h2]

end Sys2Proof.Machine
end

