-- ==== Sys2Proof/Laws/Exec.lean ====
section
/-! SUPPORT. What each shared shape of a command, each host access and each step can do, said once: the
inversion lemmas that proofs cite instead of unfolding a meaning. -/

namespace Sys2Proof.Machine

/-! ### Shapes of commands -/

/-- A two-operand command succeeds exactly when both operands are written, their tags agree and the
function gives a result; it then writes that result into rd (R144 to R155). -/
theorem binary_eq_ok {s u : State} {rd ra rb : Reg} {f : Tag → Word → Word → Check Word} :
    s.binary rd ra rb f = .ok u ↔
      ∃ a b r, s.reg ra = some a ∧ s.reg rb = some b ∧ b.tag = a.tag ∧ f a.tag a.raw b.raw = .ok r ∧
        u = s.setReg rd (some { tag := a.tag, raw := r }) := by
  simp only [State.binary, State.operand, bind_eq_ok, written_eq_ok, commonTag_eq_ok, pure_eq_ok]
  constructor
  · rintro ⟨a, ha, b, hb, t, ⟨ht, rfl⟩, r, hr, h⟩
    exact ⟨a, b, r, ha, hb, ht b (by simp), hr, (Except.ok.inj h).symm⟩
  · rintro ⟨a, b, r, ha, hb, ht, hr, rfl⟩
    exact ⟨a, ha, b, hb, a.tag, ⟨by simpa using ht, rfl⟩, r, hr, rfl⟩

/-- A two-operand command fails with the first of the errors of R155, or with the function's. -/
theorem binary_eq_error {s : State} {rd ra rb : Reg} {f : Tag → Word → Word → Check Word} {e : ErrCode} :
    s.binary rd ra rb f = .error e ↔
      ((s.reg ra = none ∨ s.reg rb = none) ∧ e = .uninitializedOperand) ∨
      ∃ a b, s.reg ra = some a ∧ s.reg rb = some b ∧
        ((b.tag ≠ a.tag ∧ e = .widthMismatch) ∨ (b.tag = a.tag ∧ f a.tag a.raw b.raw = .error e)) := by
  simp only [State.binary, State.operand]
  cases ha : s.reg ra with
  | none => simp [eq_comm]
  | some a =>
    cases hb : s.reg rb with
    | none => simp [eq_comm]
    | some b =>
      by_cases ht : b.tag = a.tag
      · simp [commonTag, ht, bind_eq_error]
      · simp [commonTag, ht, eq_comm]

/-- A pair operand is read exactly when both its words are written. -/
theorem pairOperand_eq_ok {s : State} {p : PairNum} {x : TWord × TWord} :
    s.pairOperand p = .ok x ↔ s.reg (reReg p) = some x.1 ∧ s.reg (imReg p) = some x.2 :=
  writtenPair_eq_ok

theorem pairOperand_eq_error {s : State} {p : PairNum} {e : ErrCode} :
    s.pairOperand p = .error e ↔
      (s.reg (reReg p) = none ∨ s.reg (imReg p) = none) ∧ e = .uninitializedOperand :=
  writtenPair_eq_error

@[simp] theorem reg_setPairRaw_re (s : State) (p : PairNum) (t : Tag) (c : Cx) :
    (s.setPairRaw p t c).reg (reReg p) = some { tag := t, raw := c.re } :=
  State.reg_setPair_re s p _ _

@[simp] theorem reg_setPairRaw_im (s : State) (p : PairNum) (t : Tag) (c : Cx) :
    (s.setPairRaw p t c).reg (imReg p) = some { tag := t, raw := c.im } :=
  State.reg_setPair_im s p _ _

theorem reg_setPairRaw_other (s : State) {p : PairNum} {r : Reg} (t : Tag) (c : Cx) (h1 : r ≠ reReg p)
    (h2 : r ≠ imReg p) : (s.setPairRaw p t c).reg r = s.reg r :=
  State.reg_setPair_other s _ _ h1 h2

/-! ### Host accesses -/

/-- A host data write stores the word, or reports NotConfigured and does nothing else (R186). -/
theorem dataWrite_eq (s : State) (d : Word) (store : TWord → State) :
    s.dataWrite d store =
      if s.cfg.valid then (store (dataWord s.cfg d)).succeed else s.raise .notConfigured := by
  simp only [State.dataWrite, State.config]
  cases s.cfg.valid <;> rfl

/-- The word a host data write stores is masked to its tag's width (R31, R186). -/
theorem dataWord_raw (c : Cfg) (d : Word) :
    (dataWord c d).raw = (d.setWidth c.tag.width).setWidth 64 := by
  simp only [dataWord, uint, wrap_natCast]
  apply BitVec.eq_of_toNat_eq
  simp only [BitVec.toNat_ofNat, BitVec.toNat_setWidth]

/-- A guarded access goes on only if the interface defines it and, while BUSY = 1, it is allowed. -/
theorem guardAccess_eq_next {s t : State} {addr : Addr} {size : Nat} {b : Bool}
    {k : Host.Outcome State Fault Refusal} :
    guardAccess s addr size b k = .next t ↔
      insideInterface addr size = true ∧ (s.status.busy = false ∨ b = true) ∧ k = .next t := by
  unfold guardAccess
  cases insideInterface addr size <;> cases s.status.busy <;> cases b <;> simp

/-- A buffer address names a slot of its buffer, below its capacity, or is reserved (R52). -/
theorem bufferSlot_cases (base entries a : Nat) (mk : Nat → Location) :
    (∃ k, k < 2 * entries ∧ bufferSlot base entries a mk = mk k) ∨
      bufferSlot base entries a mk = .reserved := by
  unfold bufferSlot
  split
  · exact .inl ⟨_, by omega, rfl⟩
  · exact .inr rfl

theorem registerAt_eq_cmd {a : Nat} : registerAt a = .cmd ↔ a = 0 := by
  unfold registerAt
  split_ifs <;> simp_all

theorem registerAt_eq_status {a : Nat} : registerAt a = .status ↔ a = 8 := by
  unfold registerAt
  split_ifs <;> simp_all

/-- No register address names a buffer slot (R51). -/
theorem registerAt_no_slot (a : Nat) :
    (∀ k, registerAt a ≠ .inbuf k) ∧ (∀ k, registerAt a ≠ .outbuf k) ∧ ∀ k, registerAt a ≠ .spec k := by
  unfold registerAt
  refine ⟨fun k => ?_, fun k => ?_, fun k => ?_⟩ <;> split_ifs <;> simp

/-- What an address names: a register, or a slot of one buffer below its capacity, or nothing (R51,
R52). -/
theorem locate_cases (p : Params) (addr : Addr) :
    (addr.toNat < 0x100000 ∧ locate p addr = registerAt addr.toNat) ∨
    (0x100000 ≤ addr.toNat ∧ locate p addr = .reserved) ∨
    (0x100000 ≤ addr.toNat ∧ ∃ k,
      (k < 2 * p.nmax ∧ (locate p addr = .inbuf k ∨ locate p addr = .outbuf k)) ∨
      (k < 2 * (p.nmax / 2) ∧ locate p addr = .spec k)) := by
  unfold locate
  dsimp only
  split_ifs with h1 h2 h3
  · exact .inl ⟨h1, rfl⟩
  · rcases bufferSlot_cases 0x100000 p.nmax addr.toNat .inbuf with ⟨k, hk, e⟩ | e
    · exact .inr (.inr ⟨by omega, k, .inl ⟨hk, .inl e⟩⟩)
    · exact .inr (.inl ⟨by omega, e⟩)
  · rcases bufferSlot_cases 0x200000 p.nmax addr.toNat .outbuf with ⟨k, hk, e⟩ | e
    · exact .inr (.inr ⟨by omega, k, .inl ⟨hk, .inr e⟩⟩)
    · exact .inr (.inl ⟨by omega, e⟩)
  · rcases bufferSlot_cases 0x300000 (p.nmax / 2) addr.toNat .spec with ⟨k, hk, e⟩ | e
    · exact .inr (.inr ⟨by omega, k, .inr ⟨hk, e⟩⟩)
    · exact .inr (.inl ⟨by omega, e⟩)

/-- Only the address 0 names CMD, and only the address 8 names STATUS (R51). -/
theorem locate_eq_cmd {p : Params} {addr : Addr} : locate p addr = .cmd ↔ addr.toNat = 0 := by
  rcases locate_cases p addr with ⟨-, e⟩ | ⟨h, e⟩ | ⟨h, k, ⟨-, e | e⟩ | ⟨-, e⟩⟩
  · rw [e, registerAt_eq_cmd]
  all_goals exact iff_of_false (by simp [e]) (by omega)

theorem locate_eq_status {p : Params} {addr : Addr} : locate p addr = .status ↔ addr.toNat = 8 := by
  rcases locate_cases p addr with ⟨-, e⟩ | ⟨h, e⟩ | ⟨h, k, ⟨-, e | e⟩ | ⟨-, e⟩⟩
  · rw [e, registerAt_eq_status]
  all_goals exact iff_of_false (by simp [e]) (by omega)

/-- Everything one host action can do when it answers a next state. -/
theorem perform_cases {s t : State} {a : HostAction} (h : perform s a = .next t) :
    (∃ addr size, a = .read addr size ∧ insideInterface addr size = true ∧ t = s.hostRead addr) ∨
    (∃ addr size d i, a = .write addr size d ∧ locate s.params addr = .cmd ∧
      decodeData d = .ok i ∧ exec i s = .next t) ∨
    (∃ addr size d e, a = .write addr size d ∧ locate s.params addr = .cmd ∧
      decodeData d = .error e ∧ t = s.raise .illegalCommand) ∨
    (∃ addr size d, a = .write addr size d ∧ insideInterface addr size = true ∧
      s.status.busy = false ∧ locate s.params addr ≠ .cmd ∧
      t = s.writeLocation d (locate s.params addr)) ∨
    (a = .reset ∧ t = s.platformReset) := by
  cases a with
  | read addr size =>
    obtain ⟨h1, -, h2⟩ := guardAccess_eq_next.1 h
    exact .inl ⟨addr, size, rfl, h1, (Host.Outcome.next.inj h2).symm⟩
  | write addr size d =>
    obtain ⟨h1, hb, h2⟩ := guardAccess_eq_next.1 h
    have hb' : s.status.busy = false := by simpa using hb
    simp only [hostWrite] at h2
    by_cases hc : locate s.params addr = .cmd
    · rw [if_pos hc, issue] at h2
      cases hd : decodeData d with
      | ok i =>
        rw [hd] at h2
        exact .inr (.inl ⟨addr, size, d, i, rfl, hc, hd, h2⟩)
      | error e =>
        rw [hd] at h2
        exact .inr (.inr (.inl ⟨addr, size, d, e, rfl, hc, hd, (Host.Outcome.next.inj h2).symm⟩))
    · rw [if_neg hc] at h2
      exact .inr (.inr (.inr (.inl ⟨addr, size, d, rfl, h1, hb', hc, (Host.Outcome.next.inj h2).symm⟩)))
  | reset => exact .inr (.inr (.inr (.inr ⟨rfl, (Host.Outcome.next.inj h).symm⟩)))

/-- A step that answers a next state is an idle one, or one host action. -/
theorem step_cases {s t : State} (h : step s = .next t) :
    (s.host.pending = [] ∧ t = s) ∨
      ∃ a rest, s.host.pending = a :: rest ∧ perform (s.takeAction rest) a = .next t := by
  rw [step, transition] at h
  cases hp : s.host.pending with
  | nil =>
    rw [hp] at h
    exact .inl ⟨rfl, (Host.Outcome.next.inj h).symm⟩
  | cons a rest =>
    rw [hp] at h
    exact .inr ⟨a, rest, rfl, h⟩

end Sys2Proof.Machine
end

