-- ==== Sys2Proof/Laws/HostCall.lean ====
section
/-! SUPPORT. What the host's accesses, its sequences of actions and the parts of its call do, said once
(45_control.md R186, R187, R189). -/

namespace Sys2Proof.Machine

/-- A write the interface defines, to a location other than CMD. -/
theorem perform_write {s : State} {addr : Addr} {d : Word} (hi : insideInterface addr 8 = true)
    (hb : s.status.busy = false) (hc : locate s.params addr ≠ .cmd) :
    perform s (.write addr 8 d) = .next (s.writeLocation d (locate s.params addr)) := by
  simp [perform, guardAccess, hi, hb, hostWrite, hc]

/-- A read the interface defines. -/
theorem perform_read {s : State} {addr : Addr} (hi : insideInterface addr 8 = true)
    (hb : s.status.busy = false) :
    perform s (.read addr 8) = .next (s.giveToHost (s.readLocation (locate s.params addr))) := by
  simp [perform, guardAccess, hi, hb, State.hostRead]

/-- A sequence of actions goes on where its first part ended. -/
theorem runActions_append {l l' : List HostAction} {s t : State} (h : runActions l s = .next t) :
    runActions (l ++ l') s = runActions l' t := by
  induction l generalizing s with
  | nil =>
    cases h
    rfl
  | cons a l ih =>
    simp only [runActions, List.cons_append] at h ⊢
    cases hp : perform s a with
    | next u =>
      rw [hp] at h
      exact ih h
    | fault r => cases r
    | refused r =>
      rw [hp] at h
      cases h

/-- The call goes on with the state its actions ended in. -/
theorem andThen_next {l : List HostAction} {s t : State} {k : State → CallResult}
    (h : runActions l s = .next t) : andThen l s k = k t := by simp [andThen, h]

/-- Only success has the code 0 (R200). -/
theorem ErrCode.code_eq_zero (e : ErrCode) : e.code = 0#4 ↔ e = .ok := by cases e <;> decide

/-- What the quantiser gives has no bit at or above its width (R31, R162). -/
theorem quantise_lt {K : Type} [Field K] [LinearOrder K] [FloorRing K] (q : Twq) (t : Tag) (v : K) :
    (quantise q t v).toNat < 2 ^ t.width :=
  wrap_lt (by have := t.width_le; omega) _

/-- The words of a list of complex pairs, read one after another, pair up again (R189). -/
theorem pairUp_flatMap (f : Nat → Cx) (l : List Nat) :
    pairUp (l.flatMap fun k => [(f k).re, (f k).im]) = l.map fun k => ((f k).re, (f k).im) := by
  induction l with
  | nil => rfl
  | cons k l ih => simp [pairUp, ih]

/-- The sizes the host's check lets through (R189). -/
theorem sizeInRange_iff (n : Int) : sizeInRange n = true ↔ ∃ L : Nat, 1 ≤ L ∧ L < 16 ∧ n = 2 ^ L := by
  simp only [sizeInRange, Bool.and_eq_true, decide_eq_true_eq, beq_iff_eq]
  constructor
  · rintro ⟨⟨h1, h2⟩, h3⟩
    obtain ⟨m, rfl⟩ := Int.eq_ofNat_of_zero_le (show 0 ≤ n by omega)
    simp only [Int.toNat_natCast] at h2
    refine ⟨Nat.log2 m, ?_, ?_, ?_⟩
    · by_contra h
      rw [show Nat.log2 m = 0 by omega] at h2
      omega
    · by_contra h
      have : 2 ^ 16 ≤ 2 ^ Nat.log2 m := Nat.pow_le_pow_right (by omega) (by omega)
      omega
    · rw [← h2]
      simp
  · rintro ⟨L, h1, h2, rfl⟩
    have e : (2 : Int) ^ L = ((2 ^ L : Nat) : Int) := by push_cast; rfl
    have l1 : 2 ^ 1 ≤ 2 ^ L := Nat.pow_le_pow_right (by omega) h1
    have l2 : 2 ^ L ≤ 2 ^ 15 := Nat.pow_le_pow_right (by omega) (by omega)
    rw [e, Int.toNat_natCast, Nat.log2_two_pow]
    exact ⟨⟨by omega, rfl⟩, by omega⟩

end Sys2Proof.Machine
end

