-- ==== Sys2Proof/Laws/PerInstr.lean ====
section
/-! SUPPORT. For every command: the word the encoder builds matches the row of R80 that carries the
command's mnemonic. -/

namespace Sys2Proof.Laws.EncodeFitsRow

/-- The encoding of `i` matches its row of the opcode map (R80, R81). -/
def Statement (i : Instr) : Prop :=
  ∃ r ∈ opcodeMap, r.mnemonic = i.mnemonic ∧ r.matchesWord (encode i) = true

/-- A row of the map, and the command's word under that row's mask. -/
theorem of_row {i : Instr} (r : OpcodeRow) (hr : r ∈ opcodeMap) (hm : r.mnemonic = i.mnemonic)
    {op : BitVec 6} (h : encode i &&& r.mask = place op 26) (hv : place op 26 = r.value) : Statement i :=
  ⟨r, hr, hm, by simp [OpcodeRow.matchesWord, h, hv]⟩

theorem nop : Statement (.nop) :=
  of_row ⟨"NOP", 0x00000000, 0xFFFFFFFF⟩ (by decide) rfl (wordZ_and_mask _) (by decide)

theorem setcfg (n : BitVec 16) (iw fw : BitVec 5) : Statement (.setcfg n iw fw) :=
  of_row ⟨"SETCFG", 0x04000000, 0xFC000000⟩ (by decide) rfl (wordS_and_mask _ _ _ _) (by decide)

theorem fxadd (rd ra rb : Reg) : Statement (.fxadd rd ra rb) :=
  of_row ⟨"FXADD", 0x08000000, 0xFC003FFF⟩ (by decide) rfl (wordR_and_mask _ _ _ _) (by decide)

theorem fxsub (rd ra rb : Reg) : Statement (.fxsub rd ra rb) :=
  of_row ⟨"FXSUB", 0x0C000000, 0xFC003FFF⟩ (by decide) rfl (wordR_and_mask _ _ _ _) (by decide)

theorem fxneg (rd ra : Reg) : Statement (.fxneg rd ra) :=
  of_row ⟨"FXNEG", 0x10000000, 0xFC03FFFF⟩ (by decide) rfl (wordR_fxneg_and_mask _ _ _) (by decide)

theorem fxmul (rd ra rb : Reg) : Statement (.fxmul rd ra rb) :=
  of_row ⟨"FXMUL", 0x14000000, 0xFC003FFF⟩ (by decide) rfl (wordR_and_mask _ _ _ _) (by decide)

theorem fxsubu (rd ra rb : Reg) : Statement (.fxsubu rd ra rb) :=
  of_row ⟨"FXSUBU", 0x18000000, 0xFC003FFF⟩ (by decide) rfl (wordR_and_mask _ _ _ _) (by decide)

theorem fxmulu (rd ra rb : Reg) : Statement (.fxmulu rd ra rb) :=
  of_row ⟨"FXMULU", 0x1C000000, 0xFC003FFF⟩ (by decide) rfl (wordR_and_mask _ _ _ _) (by decide)

theorem cmul (p1 p2 p3 : PairNum) : Statement (.cmul p1 p2 p3) :=
  of_row ⟨"CMUL", 0x40000000, 0xFC01FFFF⟩ (by decide) rfl (wordC_and_mask _ _ _ _) (by decide)

theorem bfly (p1 p2 p3 : PairNum) : Statement (.bfly p1 p2 p3) :=
  of_row ⟨"BFLY", 0x44000000, 0xFC01FFFF⟩ (by decide) rfl (wordC_and_mask _ _ _ _) (by decide)

theorem bitrev (w : BitVec 5) (j : BitVec 16) : Statement (.bitrev w j) :=
  of_row ⟨"BITREV", 0x60000000, 0xFC1F0000⟩ (by decide) rfl (wordX_and_mask _ _ _) (by decide)

theorem addrgen (s : BitVec 5) (i : BitVec 16) : Statement (.addrgen s i) :=
  of_row ⟨"ADDRGEN", 0x64000000, 0xFC1F0000⟩ (by decide) rfl (wordX_and_mask _ _ _) (by decide)

theorem twid (p : PairNum) (k : BitVec 16) : Statement (.twid p k) :=
  of_row ⟨"TWID", 0x68000000, 0xFC7F0000⟩ (by decide) rfl (wordP_twid_and_mask _ _ _) (by decide)

theorem ldc (p : PairNum) (b : BufSel) (j : BitVec 16) : Statement (.ldc p b j) :=
  of_row ⟨"LDC", 0x80000000, 0xFC3F0000⟩ (by decide) rfl (wordP_and_mask _ _ _ _) (by decide)

theorem stc (p : PairNum) (b : BufSel) (j : BitVec 16) : Statement (.stc p b j) :=
  of_row ⟨"STC", 0x84000000, 0xFC3F0000⟩ (by decide) rfl (wordP_and_mask _ _ _ _) (by decide)

theorem permute : Statement (.permute) :=
  of_row ⟨"PERMUTE", 0xA0000000, 0xFFFFFFFF⟩ (by decide) rfl (wordZ_and_mask _) (by decide)

theorem stage (s : BitVec 5) : Statement (.stage s) :=
  of_row ⟨"STAGE", 0xA4000000, 0xFC1FFFFF⟩ (by decide) rfl (wordX_stage_and_mask _ _) (by decide)

theorem fft : Statement (.fft) :=
  of_row ⟨"FFT", 0xA8000000, 0xFFFFFFFF⟩ (by decide) rfl (wordZ_and_mask _) (by decide)

theorem spectrum (mode : BitVec 2) : Statement (.spectrum mode) :=
  of_row ⟨"SPECTRUM", 0xC0000000, 0xFCFFFFFF⟩ (by decide) rfl (wordM_and_mask _ _) (by decide)

end Sys2Proof.Laws.EncodeFitsRow
end

