-- ==== Sys2Proof/Tests/Slice0.lean ====
section
/-! SUPPORT. The model's own tests: what WellFormed refuses, one word written out bit by bit for every
command, small steps against values of spec/95_test_vectors.md and of the rules' own examples, and for
every statement with hypotheses a state and operands that meet them. -/

/- The proofs here are evaluations by the kernel, done one after another: a thread each would wait for it
and hold a stack. -/
set_option Elab.async false

namespace Sys2Proof.Tests

open Sys2Proof Sys2Proof.Machine

/-! ### Helpers -/

/-- The format of most vectors: I = F = 8. -/
def tag88 : Tag := { iw := 8#5, fw := 8#5 }

/-- A word of the format I = F = 8. -/
def word88 (raw : Word) : TWord := { tag := tag88, raw := raw }

/-- The core after reset and a `setcfg n, 8, 8` with log2 n = l. -/
def configured (n : BitVec 16) (l : BitVec 4) : State :=
  { State.reset with cfg := { n := n, fw := 8#5, iw := 8#5, valid := true, log2n := l } }

/-- `s` with words of the format I = F = 8 in some registers. -/
def withRegs (s : State) (l : List (Reg × Word)) : State :=
  l.foldl (fun t p => t.setReg p.1 (some (word88 p.2))) s

/-- A buffer whose slots from 0 on hold words of the format I = F = 8. -/
def buffer88 (l : List Word) : Memory TWord := { cells := l.zipIdx.map fun p => (p.2, word88 p.1) }

/-- The state a command answers; `s` itself if it stops. -/
def after (i : Instr) (s : State) : State :=
  match exec i s with
  | .next t => t
  | _ => s

/-- Every command answers a next state, and `after` is that state. -/
theorem exec_eq_after (i : Instr) (s : State) : exec i s = .next (after i s) := by
  obtain ⟨t, h⟩ : ∃ t, exec i s = .next t := by
    cases i
    all_goals exact ⟨_, rfl⟩
  simp [after, h]

/-- The raw pattern of a register; all ones if it is EMPTY, which no vector here has as a result. -/
def rawReg (s : State) (r : Reg) : Word :=
  match s.reg r with
  | some w => w.raw
  | none => BitVec.allOnes 64

/-- The raw patterns of entries 0 to n - 1 of a buffer, `re` before `im`. -/
def raws (m : Memory TWord) (n : Nat) : List Word := (List.range (2 * n)).map m.raw

/-- The N = 4 core of V-TR: IN = [1, 2, 3, 4]. -/
def ramp4 : State :=
  { configured 4#16 2#4 with inbuf := buffer88 [0x100, 0, 0x200, 0, 0x300, 0, 0x400, 0] }

/-- An N = 4 core with OUT = 3+4i, -3-4i, 0, 0 (V-SP). -/
def out4 : State :=
  { configured 4#16 2#4 with outbuf := buffer88 [0x300, 0x400, 0xFD00, 0xFC00, 0, 0, 0, 0] }

/-- The core of the FXSUBU table: V0 = 1, V1 = 2, V2 = 0x1234. -/
def regs012 : State := withRegs (configured 4#16 2#4) [(0, 0x100), (1, 0x200), (2, 0x1234)]

/-- P0 = (0x0080, 0x0040), P1 = (0x00B5, 0xFF4B), P2 = (0x0100, 0), P3 = (0, 0xFF00). -/
def pairs4 : State :=
  withRegs (configured 4#16 2#4)
    [(0, 0x0080), (1, 0x0040), (2, 0x00B5), (3, 0xFF4B), (4, 0x0100), (5, 0x0000), (6, 0x0000), (7, 0xFF00)]

/-! ### WellFormed -/

/-- The one check of WellFormed: mode 3 is refused, the other modes pass (R78, R82). -/
theorem test_wellFormed_refuses_mode3 :
    (Instr.spectrum 3#2).wellFormed = false ∧ (Instr.spectrum 0#2).wellFormed = true ∧
    (Instr.spectrum 1#2).wellFormed = true ∧ (Instr.spectrum 2#2).wellFormed = true := by decide

/-- And the decoder refuses its word by name (V-SP: `spectrum` with mode 3 is 0xC3000000). -/
theorem test_decode_refuses_mode3 : decodeWord 0xC3000000#32 = .error .reservedMode := by decide

/-! ### Decoding: a word for every command, from the formats R72 to R78 and the opcodes of R80 -/

theorem test_decode_nop : decodeWord (0b000000#6 ++ 0#26) = .ok .nop := by decide

theorem test_decode_setcfg :
    decodeWord (0b000001#6 ++ 0b00100#5 ++ 0b00001#5 ++ 0b0000000000001000#16) = .ok (.setcfg 8#16 4#5 1#5) := by
  decide

theorem test_decode_fxadd :
    decodeWord (0b000010#6 ++ 0b0010#4 ++ 0b0000#4 ++ 0b1111#4 ++ 0#14) = .ok (.fxadd 2 0 15) := by decide

theorem test_decode_fxsub :
    decodeWord (0b000011#6 ++ 0b0010#4 ++ 0b0001#4 ++ 0b1000#4 ++ 0#14) = .ok (.fxsub 2 1 8) := by decide

theorem test_decode_fxneg :
    decodeWord (0b000100#6 ++ 0b0011#4 ++ 0b0010#4 ++ 0b0000#4 ++ 0#14) = .ok (.fxneg 3 2) := by decide

theorem test_decode_fxmul :
    decodeWord (0b000101#6 ++ 0b1000#4 ++ 0b0100#4 ++ 0b0001#4 ++ 0#14) = .ok (.fxmul 8 4 1) := by decide

theorem test_decode_fxsubu :
    decodeWord (0b000110#6 ++ 0b0010#4 ++ 0b0000#4 ++ 0b0001#4 ++ 0#14) = .ok (.fxsubu 2 0 1) := by decide

theorem test_decode_fxmulu :
    decodeWord (0b000111#6 ++ 0b0001#4 ++ 0b0010#4 ++ 0b0100#4 ++ 0#14) = .ok (.fxmulu 1 2 4) := by decide

theorem test_decode_cmul :
    decodeWord (0b010000#6 ++ 0b010#3 ++ 0b000#3 ++ 0b001#3 ++ 0#17) = .ok (.cmul 2 0 1) := by decide

theorem test_decode_bfly :
    decodeWord (0b010001#6 ++ 0b000#3 ++ 0b001#3 ++ 0b111#3 ++ 0#17) = .ok (.bfly 0 1 7) := by decide

theorem test_decode_bitrev :
    decodeWord (0b011000#6 ++ 0b00011#5 ++ 0b00000#5 ++ 0b0000000000000110#16) = .ok (.bitrev 3#5 6#16) := by
  decide

theorem test_decode_addrgen :
    decodeWord (0b011001#6 ++ 0b00001#5 ++ 0b00000#5 ++ 0b0000000000000011#16) = .ok (.addrgen 1#5 3#16) := by
  decide

theorem test_decode_twid :
    decodeWord (0b011010#6 ++ 0b010#3 ++ 0b0#1 ++ 0b000000#6 ++ 0b0000000000000001#16) = .ok (.twid 2 1#16) := by
  decide

theorem test_decode_ldc :
    decodeWord (0b100000#6 ++ 0b001#3 ++ 0b1#1 ++ 0b000000#6 ++ 0b0000000000000011#16) =
      .ok (.ldc 1 .outbuf 3#16) := by decide

theorem test_decode_stc :
    decodeWord (0b100001#6 ++ 0b100#3 ++ 0b0#1 ++ 0b000000#6 ++ 0b1000000000000001#16) =
      .ok (.stc 4 .inbuf 0x8001#16) := by decide

theorem test_decode_permute : decodeWord (0b101000#6 ++ 0#26) = .ok .permute := by decide

theorem test_decode_stage :
    decodeWord (0b101001#6 ++ 0b00010#5 ++ 0b00000#5 ++ 0#16) = .ok (.stage 2#5) := by decide

theorem test_decode_fft : decodeWord (0b101010#6 ++ 0#26) = .ok .fft := by decide

theorem test_decode_spectrum : decodeWord (0b110000#6 ++ 0b10#2 ++ 0#24) = .ok (.spectrum 2#2) := by decide

/-- The eight little-endian byte lanes of `fft` (R53, R70), and a datum with a bit above 31 set. -/
theorem test_decode_bytes :
    decodeBytes [0x00, 0x00, 0x00, 0xA8, 0, 0, 0, 0] = .ok .fft ∧
    decodeBytes [0x00, 0x00, 0x00, 0xA8, 1, 0, 0, 0] = .error .highHalf := by decide

/-- The illegal words of V-TW, V-TR, V-CX and V-FX. -/
theorem test_decode_refuses :
    decodeWord 0x69400001#32 = .error .mustBeZero ∧ decodeWord 0xA4000001#32 = .error .mustBeZero ∧
    decodeWord 0x41020001#32 = .error .mustBeZero ∧ decodeWord 0x10C84000#32 = .error .mustBeZero ∧
    decodeWord 0xFFFFFFFF#32 = .error .reservedOpcode := by decide

/-! ### Small steps -/

/-- R180's example: NOP after a failed command clears LASTERR and keeps FIRSTERR. -/
theorem test_nop_keeps_firsterr :
    (after .nop (after .fft State.reset)).statusWord = 0x50#64 := by decide +kernel

/-- R181's example: `setcfg 8, 8, 8` gives CFG = 0x1D080008. -/
theorem test_setcfg_cfg_word :
    (after (.setcfg 8#16 8#5 8#5) State.reset).cfg.word = 0x1D080008#64 := by decide +kernel

/-- S8 and R181: sizes 6 and 2048 give code 1, zero widths code 2, and CFG reads 0. -/
theorem test_setcfg_errors :
    (after (.setcfg 6#16 8#5 8#5) ramp4).status.lastErr = .invalidSize ∧
    (after (.setcfg 2048#16 8#5 8#5) ramp4).status.lastErr = .invalidSize ∧
    (after (.setcfg 4#16 0#5 8#5) ramp4).status.lastErr = .invalidWidth ∧
    (after (.setcfg 2#16 4#5 0#5) ramp4).cfg.word = 0#64 := by decide +kernel

/-- V-FX: max + ulp = min; S6: 7 + 1 wraps to -8 in four bits. -/
theorem test_fxadd_wraps :
    rawReg (after (.fxadd 2 0 1) (withRegs ramp4 [(0, 0x7FFF), (1, 0x0001)])) 2 = 0x8000#64 ∧
    fxAdd 4 0x7#64 0x1#64 = 0x8#64 ∧ sint 4 0x8#64 = -8 := by decide +kernel

/-- V-FX: min - ulp = max, with the destination one of the sources. -/
theorem test_fxsub_wraps :
    rawReg (after (.fxsub 0 0 1) (withRegs ramp4 [(0, 0x8000), (1, 0x0001)])) 0 = 0x7FFF#64 := by
  decide +kernel

/-- V-FX: 3.5 to -3.5, and the most negative value is its own negation. -/
theorem test_fxneg_most_negative :
    rawReg (after (.fxneg 1 0) (withRegs ramp4 [(0, 0x0380)])) 1 = 0xFC80#64 ∧
    rawReg (after (.fxneg 0 0) (withRegs ramp4 [(0, 0x8000)])) 0 = 0x8000#64 := by decide +kernel

/-- V-FX: floor(-0.5 ulp) = -1 ulp, and 1.5 * -2.25 = -3.375. -/
theorem test_fxmul_floors :
    rawReg (after (.fxmul 2 0 1) (withRegs ramp4 [(0, 0xFFFF), (1, 0x0080)])) 2 = 0xFFFF#64 ∧
    rawReg (after (.fxmul 2 0 1) (withRegs ramp4 [(0, 0x0180), (1, 0xFDC0)])) 2 = 0xFCA0#64 := by
  decide +kernel

/-- V-FX's table: 1 - 2 fails with code 8 and V2 stays; unchecked it wraps. -/
theorem test_fxsubu_underflow :
    (after (.fxsubu 2 0 1) regs012).status.lastErr = .underflow ∧
    rawReg (after (.fxsubu 2 0 1) regs012) 2 = 0x1234#64 ∧
    rawReg (after (.fxsubu 2 0 1) { regs012 with params := { Params.default with usubChecked := false } }) 2 =
      0xFF00#64 := by decide +kernel

/-- V-FX's table: 2 - 1 = 1, and equal operands give 0 with no error (C7). -/
theorem test_fxsubu_no_underflow :
    rawReg (after (.fxsubu 2 1 0) regs012) 2 = 0x0100#64 ∧
    rawReg (after (.fxsubu 2 0 0) regs012) 2 = 0#64 ∧
    (after (.fxsubu 2 0 0) regs012).status.lastErr = .ok := by decide +kernel

/-- V-FX: 255 * 2 = 510 wraps to 254. -/
theorem test_fxmulu_unsigned :
    rawReg (after (.fxmulu 2 0 1) (withRegs ramp4 [(0, 0xFF00), (1, 0x0200)])) 2 = 0xFE00#64 := by
  decide +kernel

/-- R131's example, as V-CX gives it. -/
theorem test_cmul_example :
    rawReg (after (.cmul 2 0 1) pairs4) 4 = 0x0088#64 ∧
    rawReg (after (.cmul 2 0 1) pairs4) 5 = 0xFFD2#64 := by decide +kernel

/-- V-CX: an EMPTY pair gives code 4. -/
theorem test_cmul_empty :
    (after (.cmul 2 0 1) ramp4).status.lastErr = .uninitializedOperand := by decide +kernel

/-- R133's example: a = 1, b = (0x0080, 0x0040), w = -i. -/
theorem test_bfly_example :
    let t := after (.bfly 2 0 3) pairs4
    rawReg t 4 = 0x0140#64 ∧ rawReg t 5 = 0xFF80#64 ∧ rawReg t 0 = 0x00C0#64 ∧ rawReg t 1 = 0x0080#64 := by
  decide +kernel

/-- V-CX: with p1 = p2 the second write wins. -/
theorem test_bfly_same_pair :
    let t := after (.bfly 2 2 2) pairs4
    rawReg t 4 = 0#64 ∧ rawReg t 5 = 0#64 := by decide +kernel

/-- V-BR: `bitrev 16, 0x1234`, and width 0, width 17 and 8 >= 2^3 give code 6. -/
theorem test_bitrev :
    (after (.bitrev 16#5 0x1234#16) State.reset).res0 = 0x2C48#64 ∧
    (after (.bitrev 0#5 0#16) State.reset).status.lastErr = .operandRange ∧
    (after (.bitrev 17#5 0#16) State.reset).status.lastErr = .operandRange ∧
    (after (.bitrev 3#5 8#16) State.reset).status.lastErr = .operandRange := by decide +kernel

/-- V-AG: N = 8, `addrgen 1, 3`. -/
theorem test_addrgen :
    let t := after (.addrgen 1#5 3#16) (configured 8#16 3#4)
    t.res0 = 5#64 ∧ t.res1 = 7#64 ∧ t.res2 = 2#64 := by decide +kernel

/-- V-AG and V-TR: code 5 before code 6, then code 6 for the stage and for the index. -/
theorem test_addrgen_errors :
    (after (.addrgen 2#5 0#16) State.reset).status.lastErr = .notConfigured ∧
    (after (.addrgen 2#5 0#16) ramp4).status.lastErr = .operandRange ∧
    (after (.addrgen 0#5 2#16) ramp4).status.lastErr = .operandRange := by decide +kernel

/-- V-TW: `twid p2, 1` at N = 8. -/
theorem test_twid :
    let t := after (.twid 2 1#16) (configured 8#16 3#4)
    t.reg 4 = some (word88 0x00B5) ∧ t.reg 5 = some (word88 0xFF4B) := by decide +kernel

/-- V-TW: N = 16, k = 1, which the two roundings send apart. -/
theorem test_rom_rounding :
    rom .trunc tag88 4 1 = { re := 0x00EC, im := 0xFF9F } ∧
    rom .nearest tag88 4 1 = { re := 0x00ED, im := 0xFF9E } := by decide +kernel

/-- R183: both words of the last entry, and code 6 at the size. -/
theorem test_ldc :
    let t := after (.ldc 7 .inbuf 3#16) ramp4
    t.reg 14 = some (word88 0x400) ∧ t.reg 15 = some (word88 0) ∧
    (after (.ldc 7 .inbuf 4#16) ramp4).status.lastErr = .operandRange := by decide +kernel

/-- R184: both words of the pair; other slots stay. -/
theorem test_stc :
    let t := after (.stc 1 .outbuf 1#16) { out4 with v := pairs4.v }
    raws t.outbuf 2 = [0x300, 0x400, 0x00B5, 0xFF4B] ∧ t.inbuf = out4.inbuf := by decide +kernel

/-- V-TR: `permute` of [1, 2, 3, 4]. -/
theorem test_permute :
    raws (after .permute ramp4).outbuf 4 = [0x100, 0, 0x300, 0, 0x200, 0, 0x400, 0] := by decide +kernel

/-- V-TR: `stage 1` on what `stage 0` leaves. -/
theorem test_stage :
    raws (after (.stage 1#5)
      { configured 4#16 2#4 with outbuf := buffer88 [0x400, 0, 0xFE00, 0, 0x600, 0, 0xFE00, 0] }).outbuf 4 =
      [0xA00, 0, 0xFE00, 0x200, 0xFE00, 0, 0xFE00, 0xFE00] := by decide +kernel

/-- V-TR: code 5 before 6, 6 before 4. -/
theorem test_stage_errors :
    (after (.stage 5#5) State.reset).status.lastErr = .notConfigured ∧
    (after (.stage 5#5) ramp4).status.lastErr = .operandRange ∧
    (after (.stage 0#5) ramp4).status.lastErr = .uninitializedOperand := by decide +kernel

/-- R116's example. -/
theorem test_fft :
    raws (after .fft ramp4).outbuf 4 = [0xA00, 0, 0xFE00, 0x200, 0xFE00, 0, 0xFE00, 0xFE00] := by
  decide +kernel

/-- Program P6: IN written at (8,8), then a configuration at (8,4), gives code 3. -/
theorem test_fft_tags :
    (after .fft { ramp4 with cfg := { ramp4.cfg with fw := 4#5 } }).status.lastErr = .widthMismatch := by
  decide +kernel

/-- V-SP: 3+4i and -3-4i in the three modes. -/
theorem test_spectrum_modes :
    (after (.spectrum 0#2) out4).spec.cells = [(0, 0x500), (1, 0), (2, 0x500), (3, 0)] ∧
    (after (.spectrum 1#2) out4).spec.cells = [(0, 0x300), (1, 0), (2, 0xFD00), (3, 0)] ∧
    (after (.spectrum 2#2) out4).spec.cells = [(0, 0x190000), (1, 0), (2, 0x190000), (3, 0)] := by
  decide +kernel

/-- V-SP: the largest MAG and POWER at W = 62. -/
theorem test_spectrum_largest :
    let x : Cx := { re := 0x2000000000000000, im := 0x2000000000000000 }
    binWords 0#2 62 x = (0x2D413CCCFE779921, 0) ∧ binWords 2#2 62 x = (0, 0x0800000000000000) := by
  decide +kernel

/-- V-CT: reads after reset; an EMPTY and an invalid word draw free values, one after another. -/
theorem test_reset_reads :
    ∀ s, runActions [rd 0x000000, rd 0x000008, rd 0x000010, rd 0x000030, rd 0x000100, rd 0x000180,
        rd 0x300000, rd 0x1FFFF8] State.reset = .next s →
      s.host.returned = [0, 0, 0, 0, Config.freeRead 0, 0, Config.freeRead 1, 0] := by
  intro s h
  cases h
  rfl

/-- R186 and R187: a data write masks to W bits and tags with cfgTag. -/
theorem test_data_write :
    ∀ s, perform ramp4 (wr 0x000108 0xFFFFFFFFFFFF1234) = .next s → s.reg 1 = some (word88 0x1234) := by
  intro s h
  cases h
  decide +kernel

/-- V-FX: renderings (R164); R175's example: 2 * 48000 / 16 = 6000. -/
theorem test_host_views :
    render tag88 0xFC80 = "16'b1_1111100_10000000" ∧
    render { iw := 1#5, fw := 8#5 } 0x100 = "9'b1__00000000" ∧
    freq 16 (some 48000) 2 = 6000 ∧ freq 8 none 3 = 3 := by decide +kernel

/-- The raws of a call's result and the state it leaves; none where the call fails or stops. -/
def resultRaws : CallResult → Option (List (Word × Word) × State)
  | .result _ raws s => some (raws, s)
  | .fail _ _ => none
  | .stopped _ => none

/-- R189 on the samples of R116's example, from reset, then R174's SPECTRUM in mode MAG on the state the
call leaves: SPEC[0].lo = 0xA00 and SPEC[1].lo = 0x2D4. -/
theorem test_compute_fft_fixed :
    (resultRaws (computeFftFixed (K := ℚ) 4 [(1, 0), (2, 0), (3, 0), (4, 0)] 8 8 State.reset)).map
        (fun p => (p.1, (after (.spectrum 0#2) p.2).spec.get (reSlot 0),
          (after (.spectrum 0#2) p.2).spec.get (reSlot 1))) =
      some ([(0xA00, 0), (0xFE00, 0x200), (0xFE00, 0), (0xFE00, 0xFE00)], some 0xA00#64, some 0x2D4#64) := by
  decide +kernel

/-- S8's size 6, a negative width, and a missing sample: the host-side checks of R189. -/
theorem test_compute_fft_fixed_checks :
    computeFftFixed (K := ℚ) 6 [] 8 8 State.reset = .fail 1#4 State.reset ∧
    computeFftFixed (K := ℚ) 2 [] (-1) 8 State.reset = .fail 2#4 State.reset ∧
    computeFftFixed (K := ℚ) 2 [(1, 0)] 8 8 State.reset = .fail 1#4 State.reset := by decide +kernel

/-! ### Witnesses: states and operands that meet the hypotheses of each statement, clause by clause -/

/-- A host about to issue `fft`. -/
def pendingFft : State := { ramp4 with host := { HostPort.idle with pending := [cmd .fft] } }

/-- A core whose BUSY is 1, a state no run reaches. -/
def busyCore : State := { State.reset with status := { Status.clear with busy := true } }

theorem witness_DecodeOfEncodeIsIdentity :
    (Instr.spectrum 2#2).wellFormed = true ∧ (Instr.setcfg 0xFFFF#16 31#5 31#5).wellFormed = true := by decide

theorem witness_DecodedWordsReencode :
    decodeWord 0x41020000#32 = .ok (.cmul 2 0 1) ∧ decodeData 0x41020000#64 = .ok (.cmul 2 0 1) := by decide

/-- The decoder refuses the datum. -/
def refuses (d : Word) : Bool := (decodeData d).toOption.isNone

/-- The first and the last opcode of every reserved range of R82, and words for each of its other
clauses. -/
theorem witness_IllegalWordsReportIllegalCommand :
    [0x100000000, 0x20000000, 0x3C000000, 0x48000000, 0x5C000000, 0x6C000000, 0x7C000000, 0x88000000,
      0x9C000000, 0xAC000000, 0xBC000000, 0xC4000000, 0xFC000000, 0x00000001, 0xA2000000, 0xAA000000,
      0x08002000, 0x0C000001, 0x14002000, 0x18002000, 0x1C000001, 0x10000001, 0x10020000, 0x40010000,
      0x44000001, 0x60100000, 0x64010000, 0xA4010000, 0xA4000001, 0x80200000, 0x84010000, 0x68200000,
      0x68400000, 0xC0800000, 0xC3000000].all refuses = true := by decide +kernel

/-- A command, an illegal datum, and a word for the prepared state. -/
theorem witness_StepRunsTheDecodedCommand :
    pendingFft.host.pending = .write 0x000000#22 8 0xA8000000#64 :: [] ∧ pendingFft.status.busy = false ∧
    decodeData 0xA8000000#64 = .ok .fft ∧ decodeData 0xC3000000#64 = .error .reservedMode ∧
    decodeTableWord 32 0xA8000000 = some .fft := by decide +kernel

theorem witness_IdleCoreHoldsItsState : State.reset.host.pending = [] := rfl

/-- The two refusals. -/
theorem witness_StepStopsOnlyOnUndefinedAccesses :
    step { State.reset with host := { HostPort.idle with pending := [.read 0x000004#22 8] } } =
      .refused .accessOutsideInterface ∧
    step { busyCore with host := { HostPort.idle with pending := [cmd .nop] } } =
      .refused .accessWhileBusy := ⟨rfl, rfl⟩

theorem witness_EveryStepKeepsInvariant : State.reset.Inv ∧ step State.reset = .next State.reset :=
  ⟨⟨by decide, by decide, by decide, by decide, by decide, by decide, by decide, by decide⟩, rfl⟩

/-- A step that stores words: the FFT of ramp4, whose words are all masked. -/
theorem witness_StoredRawsStayMasked :
    pendingFft.AllMasked ∧ step pendingFft = .next (after .fft (pendingFft.takeAction [])) :=
  ⟨⟨by decide +kernel, by decide +kernel, by decide +kernel⟩, exec_eq_after .fft (pendingFft.takeAction [])⟩

/-- A failing command, an illegal word, a failing SETCFG and failing data writes. -/
theorem witness_FailingCommandChangesOnlyStatus :
    exec .fft State.reset = .next (State.reset.raise .notConfigured) ∧
    decodeData 0xC3000000#64 = .error .reservedMode ∧
    (State.reset.raise .notConfigured).status.lastErr ≠ .ok ∧
    (after (.setcfg 6#16 8#5 8#5) ramp4).status.lastErr ≠ .ok ∧
    (State.reset.writeLocation 1#64 (.v 3)).status.lastErr ≠ .ok ∧
    (State.reset.writeLocation 1#64 (.inbuf 0)).status.lastErr ≠ .ok ∧
    (State.reset.writeLocation 1#64 (.outbuf 2047)).status.lastErr ≠ .ok :=
  ⟨rfl, rfl, by decide +kernel⟩

/-- A success, a failure and an illegal word. -/
theorem witness_ErrorsAreReportedInStatus :
    exec .nop State.reset = .next State.reset ∧ exec .fft ramp4 = .next (after .fft ramp4) ∧
    issue 0xC3000000#64 State.reset = .next (State.reset.raise .illegalCommand) :=
  ⟨rfl, exec_eq_after _ _, rfl⟩

/-- Every code that a command can report, and a success. -/
theorem witness_CommandsReportTheFirstError :
    (after .nop State.reset).status.lastErr = .ok ∧
    (after (.setcfg 1#16 0#5 0#5) State.reset).status.lastErr = .invalidSize ∧
    (after (.setcfg 2#16 0#5 1#5) State.reset).status.lastErr = .invalidWidth ∧
    (after .permute { ramp4 with cfg := { ramp4.cfg with iw := 7#5 } }).status.lastErr = .widthMismatch ∧
    (after .permute (configured 4#16 2#4)).status.lastErr = .uninitializedOperand ∧
    (after .permute State.reset).status.lastErr = .notConfigured ∧
    (after (.stage 2#5) ramp4).status.lastErr = .operandRange ∧
    (after (.spectrum 3#2) ramp4).status.lastErr = .illegalCommand ∧
    (after (.fxsubu 2 0 1) regs012).status.lastErr = .underflow := by decide +kernel

theorem witness_RegisterFrame :
    exec (.twid 1 1#16) ramp4 = .next (after (.twid 1 1#16) ramp4) ∧
    (4 : Reg) ∉ (Instr.twid 1 1#16).destRegs ∧ (1 : Reg) ∉ (Instr.twid 1 1#16).destRegs :=
  ⟨exec_eq_after _ _, by decide +kernel⟩

/-- Both STC forms at the first and the last entry, and the slots next to what the transform commands
write. -/
theorem witness_BufferFrame :
    ramp4.cfg.wf ramp4.params ∧ exec .fft ramp4 = .next (after .fft ramp4) ∧
    exec (.stc 0 .inbuf 3#16) pairs4 = .next (after (.stc 0 .inbuf 3#16) pairs4) ∧
    ¬ (Instr.stc 0 .inbuf 3#16).storesIn 5 ∧ ¬ (Instr.stc 0 .inbuf 3#16).storesOut 4 6 ∧
    ¬ (Instr.stc 0 .outbuf 0#16).storesOut 4 2 ∧ ¬ Instr.fft.storesOut 4 8 ∧
    ¬ (Instr.spectrum 0#2).storesSpec 4 4 := by
  refine ⟨by decide, exec_eq_after _ _, exec_eq_after _ _, ?_⟩
  simp [Instr.storesIn, Instr.storesOut, Instr.storesSpec, reSlot, imSlot]

theorem witness_SpecialStateFrame :
    exec (.bitrev 3#5 6#16) ramp4 = .next (after (.bitrev 3#5 6#16) ramp4) ∧
    (Instr.bitrev 3#5 6#16).isSetcfg = false ∧ (Instr.bitrev 3#5 6#16).isAddrgen = false ∧
    Instr.fft.isBitrev = false := ⟨exec_eq_after _ _, by decide⟩

/-- The last clause, at its two boundary words. -/
theorem witness_NopOnlyClearsLasterr :
    bits 0x00000001#32 26 6 = 0x00#6 ∧ bits 0x03FFFFFF#32 26 6 = 0x00#6 ∧ 0x00000001#32 ≠ 0x00000000#32 := by
  decide

/-- The least and the greatest N, and the least and the greatest widths. -/
theorem witness_SetcfgWritesCfg :
    (2#16).toNat = 2 ^ 1 ∧ 2 ^ 1 ≤ State.reset.params.nmax ∧ (1024#16).toNat = 2 ^ 10 ∧
    2 ^ 10 ≤ State.reset.params.nmax ∧ 1#5 ≠ 0#5 ∧ 31#5 ≠ 0#5 := by decide

/-- Bad sizes 0, 1, 3 and twice NMAX, and bad widths with a good size. -/
theorem witness_FailedSetcfgUnconfigures :
    (∀ n ∈ [0#16, 1#16, 3#16, 2048#16], ¬ ∃ k, 1 ≤ k ∧ n.toNat = 2 ^ k ∧ 2 ^ k ≤ State.reset.params.nmax) ∧
    (∃ k, 1 ≤ k ∧ (2#16).toNat = 2 ^ k ∧ 2 ^ k ≤ State.reset.params.nmax) ∧
    ((0#5 : BitVec 5) = 0#5 ∨ (31#5 : BitVec 5) = 0#5) := by
  refine ⟨?_, ⟨1, by decide⟩, .inl rfl⟩
  rintro n hn ⟨k, h1, h2, h3⟩
  have hk : k ≤ 10 := (Nat.pow_le_pow_iff_right (by omega)).1 h3
  simp only [List.mem_cons, List.not_mem_nil, or_false] at hn
  rcases hn with rfl | rfl | rfl | rfl <;> interval_cases k <;> exact absurd h2 (by decide)

/-- The first and the last entry of each buffer. -/
theorem witness_LdcLoadsEntry :
    ramp4.cfg.valid = true ∧ (0#16).toNat < ramp4.cfg.size ∧ (3#16).toNat < ramp4.cfg.size ∧
    (ramp4.buffer .inbuf).get (reSlot 3) = some (word88 0x400) ∧
    (ramp4.buffer .inbuf).get (imSlot 3) = some (word88 0) ∧
    (out4.buffer .outbuf).get (reSlot 0) = some (word88 0x300) ∧
    (out4.buffer .outbuf).get (imSlot 0) = some (word88 0x400) := by decide +kernel

theorem witness_StcStoresEntry :
    pairs4.cfg.valid = true ∧ (0#16).toNat < pairs4.cfg.size ∧ (3#16).toNat < pairs4.cfg.size ∧
    pairs4.reg (reReg 0) = some (word88 0x80) ∧ pairs4.reg (imReg 0) = some (word88 0x40) ∧
    (word88 0x80).tag = (word88 0x40).tag := by decide +kernel

theorem witness_FxAddSubNegResults :
    regs012.reg 0 = some { tag := tag88, raw := 0x100 } ∧ regs012.reg 1 = some { tag := tag88, raw := 0x200 } := by
  decide +kernel

/-- The most negative and the greatest pattern. -/
theorem witness_FxMulResults :
    let s := withRegs ramp4 [(0, 0x8000), (1, 0xFFFF)]
    s.reg 0 = some { tag := tag88, raw := 0x8000 } ∧ s.reg 1 = some { tag := tag88, raw := 0xFFFF } ∧
    (0x8000#64).toNat < 2 ^ tag88.width ∧ (0xFFFF#64).toNat < 2 ^ tag88.width := by decide +kernel

/-- Equal operands, an underflow with USUB_CHECKED = 1, and one with USUB_CHECKED = 0. -/
theorem witness_FxsubuResult :
    regs012.reg 0 = some { tag := tag88, raw := 0x100 } ∧ regs012.reg 1 = some { tag := tag88, raw := 0x200 } ∧
    (0x100#64).toNat ≤ (0x100#64).toNat ∧
    ((0x100#64).toNat < (0x200#64).toNat ∧ regs012.params.usubChecked = true) ∧
    { Params.default with usubChecked := false }.usubChecked = false := by decide +kernel

theorem witness_FixedPointLaws :
    (0xFFFF#64).toNat < 2 ^ tag88.width ∧ (0x8000#64).toNat < 2 ^ tag88.width ∧ (0#64).toNat < 2 ^ tag88.width ∧
    2 ≤ tag88.iw.toNat ∧ 2 ≤ ({ iw := 2#5, fw := 1#5 } : Tag).iw.toNat := by decide

/-- The least and the greatest width. -/
theorem witness_SubtractionAndNegation :
    1 ≤ 1 ∧ 1 ≤ 62 ∧ 62 ≤ 62 ∧ (0x8000#64).toNat < 2 ^ 62 ∧ (1#64).toNat < 2 ^ 1 := by decide

theorem witness_ProductKeepsMiddleBits :
    (0xFFFF#64).toNat < 2 ^ tag88.width ∧ (0x8000#64).toNat < 2 ^ tag88.width := by decide

/-- The two ends of the range, the last value below NEAREST's limit's clause and the limit itself, as
reals. -/
theorem witness_QuantiserRoundTrip :
    tag88.legal ∧ (-(2 ^ (tag88.iw.toNat - 1)) : ℝ) ≤ -128 ∧
    (32767 / 256 : ℝ) ≤ 2 ^ (tag88.iw.toNat - 1) - 1 / 2 ^ tag88.frac ∧
    (32767 / 256 : ℝ) < 2 ^ (tag88.iw.toNat - 1) - 1 / 2 ^ (tag88.frac + 1) ∧
    (2 ^ (tag88.iw.toNat - 1) - 1 / 2 ^ (tag88.frac + 1) : ℝ) ≤ 65535 / 512 ∧
    (65535 / 512 : ℝ) < 2 ^ (tag88.iw.toNat - 1) := by
  refine ⟨by decide, ?_⟩
  have h1 : tag88.iw.toNat = 8 := rfl
  have h2 : tag88.frac = 8 := rfl
  rw [h1, h2]
  norm_num

theorem witness_CmulResult :
    pairs4.reg (reReg 0) = some { tag := tag88, raw := 0x80 } ∧
    pairs4.reg (imReg 0) = some { tag := tag88, raw := 0x40 } ∧
    pairs4.reg (reReg 1) = some { tag := tag88, raw := 0xB5 } ∧
    pairs4.reg (imReg 1) = some { tag := tag88, raw := 0xFF4B } := by decide +kernel

/-- Different pairs, and the pair used twice. -/
theorem witness_BflyResult :
    pairs4.reg (reReg 2) = some { tag := tag88, raw := 0x100 } ∧
    pairs4.reg (imReg 2) = some { tag := tag88, raw := 0 } ∧
    pairs4.reg (reReg 0) = some { tag := tag88, raw := 0x80 } ∧
    pairs4.reg (imReg 0) = some { tag := tag88, raw := 0x40 } ∧
    pairs4.reg (reReg 3) = some { tag := tag88, raw := 0 } ∧
    pairs4.reg (imReg 3) = some { tag := tag88, raw := 0xFF00 } ∧ (2 : PairNum) ≠ 0 := by decide +kernel

/-- Widths 1 and 16 with their greatest index. -/
theorem witness_BitrevResult :
    1 ≤ (1#5).toNat ∧ (16#5).toNat ≤ 16 ∧ (1#16).toNat < 2 ^ (1#5).toNat ∧
    (0xFFFF#16).toNat < 2 ^ (16#5).toNat := by decide

/-- N = 4: the last stage and the last pair; N = 2: the only one. -/
theorem witness_AddrgenResult :
    ramp4.cfg.valid = true ∧ (1#5).toNat < ramp4.cfg.stages ∧ (1#16).toNat < ramp4.cfg.size / 2 ∧
    (0#5).toNat < (configured 2#16 1#4).cfg.stages ∧ (0#16).toNat < (configured 2#16 1#4).cfg.size / 2 := by
  decide

theorem witness_TwidResult :
    ramp4.cfg.valid = true ∧ (0#16).toNat < ramp4.cfg.size / 2 ∧ (1#16).toNat < ramp4.cfg.size / 2 := by decide

theorem witness_BitReversalIsInvolution : 0 < 2 ^ 0 ∧ 0xFFFF < 2 ^ 16 := by decide

/-- L = 1, and both stages of L = 2 with the last pair, entry and twiddle. -/
theorem witness_ButterflyPairsPartition :
    0 < 1 ∧ 0 < 2 ∧ 1 < 2 ∧ 1 < 2 ^ (2 - 1) ∧ 3 < 2 ^ 2 ∧ 1 = 2 - 1 := by decide

/-- The first and the last k of N = 2 and of N = 32768. -/
theorem witness_RomQuantisesExactCosAndSin : 1 ≤ 1 ∧ 0 < 2 ^ 1 / 2 ∧ 16383 < 2 ^ 15 / 2 := by decide

theorem witness_RomExactEntries :
    1 ≤ 1 ∧ 2 ≤ 2 ∧ ({ iw := 1#5, fw := 8#5 } : Tag).iw = 1#5 := by decide

theorem witness_PermuteResult :
    ramp4.configured ∧ blockReady ramp4.inbuf ramp4.cfg.size ramp4.cfg.tag := by decide +kernel

theorem witness_StageResult :
    out4.configured ∧ (1#5).toNat < out4.cfg.stages ∧
    blockReady out4.outbuf out4.cfg.size out4.cfg.tag := by decide +kernel

theorem witness_StageOrderDoesNotMatter :
    1 < 2 ∧ out4.outbuf.wf ∧ [1, 0].Perm (List.range (2 ^ 2 / 2)) := by decide +kernel

/-- The last butterfly of stage 0 of out4, with its operands and its twiddle in P0, P1 and P2. -/
theorem witness_BflyReproducesStage :
    let s := withRegs out4 [(0, 0x300), (1, 0x400), (2, 0xFD00), (3, 0xFC00), (4, 0x100), (5, 0)]
    let w := rom s.params.twq s.cfg.tag s.cfg.stages (tidx s.cfg.stages 0 0)
    s.configured ∧ (0#5).toNat < s.cfg.stages ∧ 0 < s.cfg.size / 2 ∧
    blockReady s.outbuf s.cfg.size s.cfg.tag ∧ (0 : PairNum) ≠ 1 ∧
    s.reg (reReg 0) = s.outbuf.get (reSlot (addr1 0 0)) ∧ s.reg (imReg 0) = s.outbuf.get (imSlot (addr1 0 0)) ∧
    s.reg (reReg 1) = s.outbuf.get (reSlot (addr2 0 0)) ∧ s.reg (imReg 1) = s.outbuf.get (imSlot (addr2 0 0)) ∧
    s.reg (reReg 2) = some { tag := s.cfg.tag, raw := w.re } ∧
    s.reg (imReg 2) = some { tag := s.cfg.tag, raw := w.im } := by decide +kernel

theorem witness_FftIsPermuteThenStages :
    ramp4.configured ∧ blockReady ramp4.inbuf ramp4.cfg.size ramp4.cfg.tag := witness_PermuteResult

theorem witness_FftResult :
    ramp4.configured ∧ blockReady ramp4.inbuf ramp4.cfg.size ramp4.cfg.tag ∧
    3 < ramp4.cfg.size := by decide +kernel

/-- A real sequence, at the first and the last k of the second clause. -/
theorem witness_ReferenceTransformIsDft :
    0 < 2 ^ 0 ∧ 0 < 1 ∧ 1 < 2 ^ 2 ∧ 3 < 2 ^ 2 ∧ ∀ n : Nat, n < 2 ^ 2 → (n : ℂ).im = 0 := by simp

theorem witness_SpectrumMagAndReal :
    out4.cfg.valid = true ∧ blockReady out4.outbuf (out4.cfg.size / 2) out4.cfg.tag ∧ out4.AllMasked ∧
    1 < out4.cfg.size / 2 :=
  ⟨rfl, by decide +kernel, ⟨by decide +kernel, by decide +kernel, by decide +kernel⟩, by decide⟩

theorem witness_SpectrumPower :
    out4.cfg.valid = true ∧ blockReady out4.outbuf (out4.cfg.size / 2) out4.cfg.tag ∧ out4.AllMasked ∧
    out4.cfg.tag.legal ∧ 1 < out4.cfg.size / 2 :=
  ⟨rfl, by decide +kernel, ⟨by decide +kernel, by decide +kernel, by decide +kernel⟩, by decide, by decide⟩

/-- The parameters' ends, the last entries of each buffer, and the first and last reserved addresses. -/
theorem witness_AddressMap :
    Params.default.wf ∧ { Params.default with lognMax := 1 }.wf ∧ { Params.default with lognMax := 15 }.wf ∧
    1023 < Params.default.nmax ∧ 511 < Params.default.nmax / 2 ∧
    0x000030 % 8 = 0 ∧ 0x0000F8 < 0x000100 ∧ 0x0FFFF8 < 0x100000 ∧
    0x100000 + 16 * Params.default.nmax ≤ 0x104000 ∧ 0x200000 + 16 * Params.default.nmax ≤ 0x204000 ∧
    0x300000 + 16 * (Params.default.nmax / 2) ≤ 0x302000 ∧ 0x3FFFF8 < 0x400000 := by decide

theorem witness_DataWritesStoreMaskedWords :
    ramp4.params.wf ∧ ramp4.status.busy = false ∧ ramp4.cfg.valid = true ∧ State.reset.cfg.valid = false ∧
    State.reset.status.busy = false ∧ 1023 < ramp4.params.nmax := by decide

theorem witness_WriteThenReadReturnsIt :
    insideInterface 0x000178#22 8 = true ∧ ramp4.status.busy = false ∧ ramp4.cfg.valid = true ∧
    locate ramp4.params 0x000178#22 = .v 15 ∧ locate ramp4.params 0x103FF8#22 = .inbuf 2047 ∧
    locate ramp4.params 0x203FF8#22 = .outbuf 2047 := by decide +kernel

/-- A read, and a write to each kind of location whose repetition the statement covers. -/
theorem witness_ReadsAndRepeatedWritesAreIdempotent :
    perform ramp4 (.read 0x000010#22 8) = .next (ramp4.hostRead 0x000010#22) ∧
    locate ramp4.params 0x000008#22 = .status ∧ locate ramp4.params 0x000100#22 = .v 0 ∧
    locate ramp4.params 0x100000#22 = .inbuf 0 ∧ locate ramp4.params 0x200000#22 = .outbuf 0 ∧
    perform ramp4 (.write 0x000008#22 8 1#64) = .next ramp4.clearErrors :=
  ⟨rfl, by decide +kernel, by decide +kernel, by decide +kernel, by decide +kernel, rfl⟩

theorem witness_StatusWriteClears : State.reset.status.busy = false := rfl

/-- One address of each ignored kind. -/
theorem witness_IgnoredWrites :
    State.reset.status.busy = false ∧ insideInterface 0x000010#22 8 = true ∧
    locate Params.default 0x000010#22 = .cfg ∧ locate Params.default 0x000018#22 = .res0 ∧
    locate Params.default 0x000020#22 = .res1 ∧ locate Params.default 0x000028#22 = .res2 ∧
    locate Params.default 0x0001F8#22 = .vtag 15 ∧ locate Params.default 0x301FF8#22 = .spec 1023 ∧
    locate Params.default 0x302000#22 = .reserved ∧ locate Params.default 0x000030#22 = .reserved := by
  decide +kernel

theorem witness_UndefinedAccessesAreRefused :
    (4 : Nat) ≠ 8 ∧ (0x000001#22 : Addr).toNat % 8 ≠ 0 ∧ (0x000010#22 : Addr).toNat % 8 = 0 ∧
    busyCore.status.busy = true ∧ (0x000010#22 : Addr) ≠ 0x000008#22 := by decide

/-- An EMPTY register, EMPTY slots and an invalid one, and a written word of each kind. -/
theorem witness_EmptyReadsDrawFreeValues :
    insideInterface 0x000100#22 8 = true ∧ State.reset.status.busy = false ∧
    locate Params.default 0x000100#22 = .v 0 ∧ State.reset.reg 0 = none ∧
    locate Params.default 0x100000#22 = .inbuf 0 ∧ State.reset.inbuf.get 0 = none ∧
    locate Params.default 0x200000#22 = .outbuf 0 ∧ State.reset.outbuf.get 0 = none ∧
    locate Params.default 0x300000#22 = .spec 0 ∧ State.reset.spec.get 0 = none ∧
    regs012.reg 0 = some (word88 0x100) ∧ ramp4.inbuf.get 0 = some (word88 0x100) ∧
    out4.outbuf.get 0 = some (word88 0x300) := by decide +kernel

/-- One address of each kind, and a written word where the clause asks for one. -/
theorem witness_HostReadsReturnTheStatedWords :
    insideInterface 0x000000#22 8 = true ∧ State.reset.status.busy = false ∧
    locate Params.default 0x000000#22 = .cmd ∧ locate Params.default 0x302000#22 = .reserved ∧
    locate Params.default 0x000008#22 = .status ∧ locate Params.default 0x000010#22 = .cfg ∧
    locate Params.default 0x000018#22 = .res0 ∧ locate Params.default 0x000020#22 = .res1 ∧
    locate Params.default 0x000028#22 = .res2 ∧ locate Params.default 0x000180#22 = .vtag 0 ∧
    locate Params.default 0x000100#22 = .v 0 ∧ regs012.reg 0 = some (word88 0x100) ∧
    locate Params.default 0x100000#22 = .inbuf 0 ∧ ramp4.inbuf.get 0 = some (word88 0x100) ∧
    locate Params.default 0x200000#22 = .outbuf 0 ∧ out4.outbuf.get 0 = some (word88 0x300) ∧
    locate Params.default 0x300000#22 = .spec 0 ∧
    (after (.spectrum 2#2) out4).spec.get 0 = some 0x190000#64 := by decide +kernel

/-- Sizes 2 and 2^15, the widths 1 and 31 and what lies just outside them, two samples, and a size above
NMAX that the host's own check lets through. -/
theorem witness_ComputeFftFixedReturnsTheTransform :
    State.reset.params.wf ∧ State.reset.status.busy = false ∧
    (1 ≤ 1 ∧ 1 < 16 ∧ (2 : Int) = 2 ^ 1) ∧ (1 ≤ 15 ∧ 15 < 16 ∧ (32768 : Int) = 2 ^ 15) ∧
    ((0 : Int) < 1 ∧ (1 : Int) < 32) ∧ ((0 : Int) < 31 ∧ (31 : Int) < 32) ∧
    ¬ ((0 : Int) < 0 ∧ (0 : Int) < 32) ∧ ¬ ((0 : Int) < 32 ∧ (32 : Int) < 32) ∧
    (([(1, 0), (2, 0)] : List (ℚ × ℚ)).length : Int) = 2 ∧ (2 : Int) ≤ State.reset.params.nmax ∧
    State.reset.params.nmax < (2048 : Int) ∧
    ((List.replicate 2048 (0, 0) : List (ℚ × ℚ)).length : Int) = 2048 ∧
    (([] : List (ℚ × ℚ)).length : Int) ≠ 2 ∧
    ∀ n ∈ ([-2, 1, 6, 65536] : List Int), ¬ ∃ L : Nat, 1 ≤ L ∧ L < 16 ∧ n = 2 ^ L := by
  refine ⟨by decide, rfl, by decide, by decide, by decide, by decide, by decide, by decide, rfl, by decide,
    by decide, ?_, by decide, ?_⟩
  · rw [List.length_replicate]
    rfl
  · rintro n hn ⟨L, h1, h2, h3⟩
    simp only [List.mem_cons, List.not_mem_nil, or_false] at hn
    rcases hn with rfl | rfl | rfl | rfl <;> interval_cases L <;> exact absurd h3 (by decide)

end Sys2Proof.Tests
end

section
/-! PROOFS. Postconditions of checks and of a command's end; the special state's frame (O18) and FXSUBU
(O26). -/

namespace Sys2Proof.Machine

/-! ### Postconditions -/

/-- If the check succeeds, its value satisfies `P`. -/
def Ensures {α : Type} (r : Check α) (P : α → Prop) : Prop := ∀ a, r = .ok a → P a

theorem Ensures.pure {α : Type} {P : α → Prop} {a : α} (h : P a) : Ensures (pure a) P := by
  rintro _ ⟨⟩
  exact h

theorem Ensures.bind {α β : Type} {x : Check α} {f : α → Check β} {P : β → Prop}
    (h : ∀ a, x = .ok a → Ensures (f a) P) : Ensures (x >>= f) P := by
  intro b hb
  obtain ⟨a, ha, hf⟩ := bind_eq_ok.1 hb
  exact h a ha b hf

/-- A two-operand command only writes its destination register. -/
theorem Ensures.binary {s : State} {rd ra rb : Reg} {f : Tag → Word → Word → Check Word} {P : State → Prop}
    (h : ∀ w, P (s.setReg rd w)) : Ensures (s.binary rd ra rb f) P :=
  .bind fun _ _ => .bind fun _ _ => .bind fun _ _ => .bind fun _ _ => .pure (h _)

/-- What holds of both ends of a command, its success and its failure (R203), holds of the state it
answers. -/
theorem of_finish_eq_next {s t : State} {r : Check State} {P : State → Prop} (h : finish s r = .next t)
    (hok : Ensures r fun u => P u.succeed) (herror : ∀ e, r = .error e → P (s.raise e)) : P t := by
  obtain ⟨u, hu, rfl⟩ | ⟨e, he, rfl⟩ := finish_eq_next.1 h
  · exact hok u hu
  · exact herror e he

/-! ### The special state's frame -/

/-- From `s` to `t` the special state changed at most where the command `i` may write it (R9 to R11, R24,
R32). -/
structure SpecialFrame (i : Instr) (s t : State) : Prop where
  params : t.params = s.params
  host : t.host = s.host
  busy : t.status.busy = s.status.busy
  cfg : i.isSetcfg = false → t.cfg = s.cfg
  res0 : i.isBitrev = false → i.isAddrgen = false → t.res0 = s.res0
  res12 : i.isAddrgen = false → t.res1 = s.res1 ∧ t.res2 = s.res2

namespace SpecialFrame

variable {i : Instr} {s s₀ t : State}

/-- A state that differs from `s` in the registers and buffers alone. -/
theorem of_data (v : Vector (Option TWord) 16) (inb out : Memory TWord) (sp : Memory Word) :
    SpecialFrame i s { s with v := v, inbuf := inb, outbuf := out, spec := sp } :=
  ⟨rfl, rfl, rfl, fun _ => rfl, fun _ _ => rfl, fun _ => ⟨rfl, rfl⟩⟩

theorem refl : SpecialFrame i s s := of_data s.v s.inbuf s.outbuf s.spec

theorem setReg (r : Reg) (w : Option TWord) : SpecialFrame i s (s.setReg r w) :=
  of_data _ s.inbuf s.outbuf s.spec

theorem setPair (p : PairNum) (re im : Option TWord) : SpecialFrame i s (s.setPair p re im) :=
  of_data _ s.inbuf s.outbuf s.spec

theorem setBuffer (b : BufSel) (m : Memory TWord) : SpecialFrame i s (s.setBuffer b m) := by
  cases b
  · exact of_data s.v m s.outbuf s.spec
  · exact of_data s.v s.inbuf m s.spec

/-- Both ends of a command write LASTERR and FIRSTERR alone, so the frame of the body is that of the
command. SETCFG ends from another state `s₀` than it began in. -/
theorem of_finish {r : Check State} (h₀ : SpecialFrame i s s₀) (h : finish s₀ r = .next t)
    (hr : Ensures r (SpecialFrame i s)) : SpecialFrame i s t :=
  of_finish_eq_next h (fun u hu => { hr u hu with }) fun _ _ => { h₀ with }

end SpecialFrame

theorem exec_specialFrame {i : Instr} {s t : State} (h : exec i s = .next t) : SpecialFrame i s t := by
  cases i with
  | nop => exact .of_finish .refl h (.pure .refl)
  | setcfg n iw fw =>
    have clears (c : Cfg) : SpecialFrame (.setcfg n iw fw) s { s with cfg := c } :=
      { SpecialFrame.refl with cfg := nofun }
    exact .of_finish (clears _) h (.bind fun _ _ => .bind fun _ _ => .pure (clears _))
  | fxadd | fxsub | fxmul | fxsubu | fxmulu =>
    exact .of_finish .refl h (.binary fun _ => .setReg _ _)
  | fxneg => exact .of_finish .refl h (.bind fun _ _ => .pure (.setReg _ _))
  | cmul =>
    exact .of_finish .refl h (.bind fun _ _ => .bind fun _ _ => .bind fun _ _ => .pure (.setPair _ _ _))
  | bfly =>
    exact .of_finish .refl h (.bind fun _ _ => .bind fun _ _ => .bind fun _ _ => .bind fun _ _ =>
      .pure (.of_data _ s.inbuf s.outbuf s.spec))
  | bitrev =>
    exact .of_finish .refl h (.bind fun _ _ => .bind fun _ _ =>
      .pure { SpecialFrame.refl with res0 := nofun })
  | addrgen =>
    exact .of_finish .refl h (.bind fun _ _ => .bind fun _ _ => .bind fun _ _ =>
      .pure { SpecialFrame.refl with res0 := fun _ => nofun, res12 := nofun })
  | twid => exact .of_finish .refl h (.bind fun _ _ => .bind fun _ _ => .pure (.setPair _ _ _))
  | ldc =>
    exact .of_finish .refl h (.bind fun _ _ => .bind fun _ _ => .bind fun _ _ => .pure (.setPair _ _ _))
  | stc =>
    exact .of_finish .refl h (.bind fun _ _ => .bind fun _ _ => .bind fun _ _ => .bind fun _ _ =>
      .pure (.setBuffer _ _))
  | permute | fft =>
    exact .of_finish .refl h (.bind fun _ _ => .bind fun _ _ => .pure (.setBuffer .outbuf _))
  | stage =>
    exact .of_finish .refl h (.bind fun _ _ => .bind fun _ _ => .bind fun _ _ =>
      .pure (.setBuffer .outbuf _))
  | spectrum =>
    exact .of_finish .refl h (.bind fun _ _ => .bind fun _ _ => .bind fun _ _ =>
      .pure (.of_data s.v s.inbuf s.outbuf _))

/-- Settles O18: the frame holds of each command's body, and a command's end keeps it. -/
theorem specialStateFrame : Obligations.SpecialStateFrame := by
  intro i s t h
  obtain ⟨hparams, hhost, hbusy, hcfg, hres0, hres12⟩ := exec_specialFrame h
  exact ⟨hparams, hhost, hbusy, hcfg, hres0, hres12⟩

/-! ### FXSUBU -/

/-- wrap_W in the words of bit vectors: the W-bit pattern, zero-extended (R13). -/
theorem wrap_eq_setWidth_ofInt {w : Nat} (h : w ≤ 64) (x : Int) : wrap w x = (BitVec.ofInt w x).setWidth 64 := by
  apply eq_of_uint_eq
  have hlt : (BitVec.ofInt w x).toNat < 2 ^ 64 :=
    (BitVec.isLt _).trans_le (Nat.pow_le_pow_right (by norm_num) h)
  rw [uint_wrap h, uint, BitVec.toNat_setWidth, Nat.mod_eq_of_lt hlt, BitVec.toNat_ofInt,
    Int.toNat_of_nonneg (Int.emod_nonneg _ (pow_cast_pos w).ne')]

/-- fx_sub_W is the subtraction of the low W bits (R145). -/
theorem fxSub_eq_setWidth_sub {w : Nat} (h : w ≤ 64) (a b : Word) :
    fxSub w a b = (a.setWidth w - b.setWidth w).setWidth 64 := by
  rw [fxSub, wrap_eq_setWidth_ofInt h, sub_eq_add_neg, sub_eq_add_neg, BitVec.ofInt_add, BitVec.ofInt_neg]
  simp [uint]

/-- fx_subu_W subtracts when there is no underflow or it is not checked (R149). -/
theorem fxSubu_eq_ok {checked : Bool} {w : Nat} {a b : Word} (h : b.toNat ≤ a.toNat ∨ checked = false) :
    fxSubu checked w a b = .ok (fxSub w a b) := by
  unfold fxSubu uint
  obtain h | rfl := h
  · rw [if_neg (by omega)]
    rfl
  · exact ite_self _

/-- fx_subu_W reports a checked underflow (R149). -/
theorem fxSubu_eq_error {w : Nat} {a b : Word} (h : a.toNat < b.toNat) :
    fxSubu true w a b = .error .underflow := by
  unfold fxSubu uint
  rw [if_pos (by omega), if_pos rfl]

theorem wroteRegs_setReg_succeed (s : State) (r : Reg) (w : Option TWord) :
    wroteRegs s (s.setReg r w).succeed [r] :=
  ⟨fun _ hr => State.reg_setReg_other s w (by simpa using hr), rfl⟩

/-- Settles O26: the two clauses are the two answers of fx_subu_W, put through the two-operand shape. -/
theorem fxsubuResult : Obligations.FxsubuResult := by
  intro s rd ra rb t a b ha hb
  refine ⟨fun h => ?_, fun ⟨hlt, hchecked⟩ => ?_⟩
  · refine ⟨_, finish_eq_next.2 (.inl ⟨_, binary_eq_ok.2 ⟨_, _, _, ha, hb, rfl, fxSubu_eq_ok h, rfl⟩, rfl⟩),
      wroteRegs_setReg_succeed _ _ _, ?_⟩
    rw [State.reg_succeed, State.reg_setReg_same, fxSub_eq_setWidth_sub (t.width_le.trans (by norm_num))]
  · have hf : fxSubu s.params.usubChecked t.width a b = .error .underflow := by
      rw [hchecked, fxSubu_eq_error hlt]
    exact ⟨_, finish_eq_next.2 (.inr ⟨_, binary_eq_error.2 (.inr ⟨_, _, ha, hb, .inr ⟨rfl, hf⟩⟩), rfl⟩),
      rfl, rfl⟩

end Sys2Proof.Machine
end

section
/-! PROOFS. What a command and a host data write may store, said once; from it the frames of the registers
(O16) and of the buffers (O17), and that every step keeps the masked patterns (O12) and the invariant
(O11), which reset meets (O10). -/

namespace Sys2Proof.Machine

/-! ### Writes into one buffer -/

/-- `m'` comes from `m` by storing contents that satisfy `Q` into slots that satisfy `K`. -/
structure Writes {α : Type} (K : Nat → Prop) (Q : α → Prop) (m m' : Memory α) : Prop where
  wf : m.wf → m'.wf
  get_other : ∀ k, ¬ K k → m'.get k = m.get k
  cells : ∀ c ∈ m'.cells, c ∈ m.cells ∨ (K c.1 ∧ Q c.2)

namespace Writes

variable {α : Type} {K K' : Nat → Prop} {Q : α → Prop} {m m' : Memory α}

theorem refl : Writes K Q m m := ⟨id, fun _ _ => rfl, fun _ => .inl⟩

theorem mono (hK : ∀ k, K k → K' k) (h : Writes K Q m m') : Writes K' Q m m' :=
  ⟨h.wf, fun k hk => h.get_other k (mt (hK k) hk),
    fun c hc => (h.cells c hc).imp_right (.imp_left (hK c.1))⟩

theorem put {k : Nat} {a : α} (h : Writes K Q m m') (hk : K k) (ha : Q a) :
    Writes K Q m (m'.put k (some a)) where
  wf hm := Memory.wf_put (h.wf hm) _ _
  get_other k' hk' := by
    have hne : k' ≠ k := fun e => hk' (e ▸ hk)
    rw [Memory.get_put_some, if_neg hne, h.get_other k' hk']
  cells c hc := by
    obtain ⟨hck, hca⟩ | hc := Memory.mem_put hc
    · exact .inr ⟨hck ▸ hk, Option.some.inj hca ▸ ha⟩
    · exact h.cells c hc

theorem putEntry {j : Nat} {re im : α} (h : Writes K Q m m') (hj : ∀ k, k / 2 = j → K k)
    (hre : Q re) (him : Q im) : Writes K Q m (m'.putEntry j (some re) (some im)) :=
  (h.put (hj _ (by simp only [reSlot]; omega)) hre).put (hj _ (by simp only [imSlot]; omega)) him

theorem foldl {pass : Memory α → Nat → Memory α} {n : Nat}
    (h : ∀ i < n, ∀ y, Writes K Q m y → Writes K Q m (pass y i)) (hm : Writes K Q m m') :
    Writes K Q m ((List.range n).foldl pass m') :=
  foldl_keeps (P := Writes K Q m) (fun i hi => h i (List.mem_range.1 hi)) hm

end Writes

/-! ### The words a state yields -/

/-- A register or a buffer of `s` holds the word. -/
def State.Holds (s : State) (w : TWord) : Prop :=
  (∃ r, s.reg r = some w) ∨ (∃ k, (k, w) ∈ s.inbuf.cells) ∨ ∃ k, (k, w) ∈ s.outbuf.cells

/-- The tagged words that a command or a host data write may store from `s`: one that `s` holds, or a
number wrapped to the width of its tag, which is that of a held word or that of the valid CFG. -/
inductive State.Yields (s : State) : TWord → Prop where
  | held {w : TWord} (h : s.Holds w) : s.Yields w
  | ofHeld {w : TWord} (h : s.Holds w) (n : Int) : s.Yields { tag := w.tag, raw := wrap w.tag.width n }
  | ofCfg (h : s.cfg.valid = true) (n : Int) : s.Yields { tag := s.cfg.tag, raw := wrap s.cfg.tag.width n }

theorem State.Holds.of_reg {s : State} {r : Reg} {w : TWord} (h : s.reg r = some w) : s.Holds w :=
  .inl ⟨r, h⟩

theorem State.Holds.of_buffer {s : State} {b : BufSel} {k : Nat} {w : TWord}
    (h : (s.buffer b).get k = some w) : s.Holds w := by
  cases b
  · exact .inr (.inl ⟨k, Memory.get_mem h⟩)
  · exact .inr (.inr ⟨k, Memory.get_mem h⟩)

theorem masked_wrap (t : Tag) (n : Int) : TWord.masked { tag := t, raw := wrap t.width n } = true :=
  decide_eq_true (wrap_lt (t.width_le.trans (by norm_num)) n)

/-! ### What is stored between two states -/

/-- A set of registers and, for each buffer, a set of slots. -/
structure Footprint where
  regs : Reg → Prop
  inbuf : Nat → Prop
  outbuf : Nat → Prop
  spec : Nat → Prop

/-- From `s` to `t`, words that `s` yields were stored into the footprint, and nothing else into the
registers and buffers. -/
structure Stores (f : Footprint) (s t : State) : Prop where
  regs : ∀ r, t.reg r = s.reg r ∨ (f.regs r ∧ ∃ w, t.reg r = some w ∧ s.Yields w)
  inbuf : Writes f.inbuf s.Yields s.inbuf t.inbuf
  outbuf : Writes f.outbuf s.Yields s.outbuf t.outbuf
  spec : Writes f.spec (fun _ => True) s.spec t.spec

namespace Stores

variable {f : Footprint} {s s₀ t u : State}

/-- Registers and buffers that are the same data. -/
theorem of_eq (hv : t.v = s.v) (hin : t.inbuf = s.inbuf) (hout : t.outbuf = s.outbuf)
    (hspec : t.spec = s.spec) : Stores f s t :=
  ⟨fun r => .inl (State.reg_congr hv r), hin ▸ .refl, hout ▸ .refl, hspec ▸ .refl⟩

theorem refl : Stores f s s := of_eq rfl rfl rfl rfl

theorem setReg {r : Reg} {w : TWord} (h : Stores f s u) (hr : f.regs r) (hw : s.Yields w) :
    Stores f s (u.setReg r (some w)) where
  regs r' := by
    rw [State.reg_setReg]
    split
    · next e => exact .inr ⟨e ▸ hr, w, rfl, hw⟩
    · exact h.regs r'
  inbuf := h.inbuf
  outbuf := h.outbuf
  spec := h.spec

theorem setPair {p : PairNum} {re im : TWord} (h : Stores f s u) (hp : f.regs (reReg p) ∧ f.regs (imReg p))
    (hre : s.Yields re) (him : s.Yields im) : Stores f s (u.setPair p (some re) (some im)) :=
  (h.setReg hp.1 hre).setReg hp.2 him

theorem setInbuf {m : Memory TWord} (h : Writes f.inbuf s.Yields s.inbuf m) :
    Stores f s (s.setBuffer .inbuf m) :=
  ⟨fun _ => .inl rfl, h, .refl, .refl⟩

theorem setOutbuf {m : Memory TWord} (h : Writes f.outbuf s.Yields s.outbuf m) :
    Stores f s (s.setBuffer .outbuf m) :=
  ⟨fun _ => .inl rfl, .refl, h, .refl⟩

/-- Both ends of a command write LASTERR and FIRSTERR alone. SETCFG ends from another state `s₀` than it
began in. -/
theorem of_finish {r : Check State} (h₀ : Stores f s s₀) (h : finish s₀ r = .next t)
    (hr : Ensures r (Stores f s)) : Stores f s t :=
  of_finish_eq_next h (fun u hu => { hr u hu with }) fun _ _ => { h₀ with }

end Stores

/-! ### What each command stores -/

/-- The footprint of a command that begins in `s`. For a CFG that a step can leave, its slots lie within
the buffers' capacity. -/
def State.footprint (s : State) (i : Instr) : Footprint where
  regs r := r ∈ i.destRegs
  inbuf k := s.cfg.wf s.params → i.storesIn k ∧ k < 2 * s.params.nmax
  outbuf k := s.cfg.wf s.params → i.storesOut s.cfg.size k ∧ k < 2 * s.params.nmax
  spec k := s.cfg.wf s.params → i.storesSpec s.cfg.size k ∧ k < 2 * (s.params.nmax / 2)

@[simp] theorem State.footprint_regs (s : State) (i : Instr) (r : Reg) :
    (s.footprint i).regs r ↔ r ∈ i.destRegs := .rfl

theorem Cfg.wf_of_valid {p : Params} {c : Cfg} (h : c.wf p) (hv : c.valid = true) :
    c.size = 2 ^ c.stages ∧ 1 ≤ c.stages ∧ c.stages ≤ p.lognMax ∧ c.tag.legal := by
  rwa [Cfg.wf, if_pos hv] at h

/-- N is at most NMAX (R24). -/
theorem Cfg.size_le_nmax {p : Params} {c : Cfg} (h : c.wf p) (hv : c.valid = true) : c.size ≤ p.nmax := by
  obtain ⟨hsize, -, hle, -⟩ := Cfg.wf_of_valid h hv
  exact hsize ▸ Nat.pow_le_pow_right (by norm_num) hle

/-- Both entries of butterfly `i` of stage `st` lie below N = 2^L (R110). -/
theorem addr2_lt {L st i : Nat} (hst : st < L) (hi : i < 2 ^ L / 2) : addr2 st i < 2 ^ L := by
  obtain ⟨d, rfl⟩ : ∃ d, L = d + 1 + st := ⟨L - st - 1, by omega⟩
  have hpow : 2 ^ (d + 1 + st) = 2 * (2 ^ d * 2 ^ st) := by ring
  rw [hpow, Nat.mul_div_cancel_left _ (by norm_num), ← Nat.div_lt_iff_lt_mul (Nat.two_pow_pos st)] at hi
  rw [hpow, ← mul_assoc, ← Nat.div_lt_iff_lt_mul (Nat.two_pow_pos st), (addr2_parts st i).2]
  omega

/-- A command that stores the block OUT[0..N-1] may write every slot of an entry below N. -/
theorem State.footprint_outbuf {s : State} {i : Instr} {j : Nat}
    (hi : ∀ k, k < 2 * s.cfg.size → i.storesOut s.cfg.size k) (hv : s.cfg.valid = true)
    (hj : s.cfg.wf s.params → j < s.cfg.size) (k : Nat) (hk : k / 2 = j) : (s.footprint i).outbuf k := by
  intro hwf
  have hj := hj hwf
  have hle := Cfg.size_le_nmax hwf hv
  exact ⟨hi k (by omega), by omega⟩

/-- PERMUTE's loop copies words of INBUF into entries below N (R113). -/
theorem writes_permuteBody {s : State} {i : Instr}
    (hi : ∀ k, k < 2 * s.cfg.size → i.storesOut s.cfg.size k) (hv : s.cfg.valid = true)
    (hin : s.inbuf.allTagged s.cfg.size s.cfg.tag = true) :
    Writes (s.footprint i).outbuf s.Yields s.outbuf
      (permuteBody s.cfg.stages s.cfg.size s.inbuf s.outbuf) := by
  refine .foldl (fun j hj out hout => ?_) .refl
  obtain ⟨hre, him⟩ := allTagged_eq_true.1 hin j hj
  obtain ⟨x, hx, -⟩ := hasTag_eq_true.1 hre
  obtain ⟨y, hy, -⟩ := hasTag_eq_true.1 him
  rw [permuteOne, hx, hy]
  refine hout.putEntry (State.footprint_outbuf hi hv fun hwf => ?_)
    (.held (.of_buffer (b := .inbuf) hx)) (.held (.of_buffer (b := .inbuf) hy))
  rw [(Cfg.wf_of_valid hwf hv).1]
  exact rev_lt _ _

/-- A stage's loop stores wrapped results under cfgTag into entries below N (R115). -/
theorem writes_stageBody {s : State} {i : Instr}
    (hi : ∀ k, k < 2 * s.cfg.size → i.storesOut s.cfg.size k) (hv : s.cfg.valid = true) {st : Nat}
    (hst : st < s.cfg.stages) {x : Memory TWord}
    (hx : Writes (s.footprint i).outbuf s.Yields s.outbuf x) :
    Writes (s.footprint i).outbuf s.Yields s.outbuf
      (stageBody s.params.twq s.cfg.tag s.cfg.stages s.cfg.size x st) := by
  refine .foldl (fun j hj y hy => ?_) hx
  have hlt (hwf : s.cfg.wf s.params) : addr2 st j < s.cfg.size := by
    have hsize := (Cfg.wf_of_valid hwf hv).1
    rw [hsize] at hj ⊢
    exact addr2_lt hst hj
  have hlt' (hwf : s.cfg.wf s.params) : addr1 st j < s.cfg.size := (addr1_lt_addr2 st j).trans (hlt hwf)
  exact (hy.putEntry (State.footprint_outbuf hi hv hlt') (.ofCfg hv _) (.ofCfg hv _)).putEntry
    (State.footprint_outbuf hi hv hlt) (.ofCfg hv _) (.ofCfg hv _)

/-- SPECTRUM's loop stores bins below N/2 (R174). -/
theorem writes_spectrumBody {s : State} {mode : BitVec 2} (hv : s.cfg.valid = true) (w : Nat) :
    Writes (s.footprint (.spectrum mode)).spec (fun _ => True) s.spec
      (spectrumBody mode w s.cfg.size s.outbuf s.spec) := by
  refine .foldl (fun j hj sp hsp => hsp.putEntry (fun k hk hwf => ?_) trivial trivial) .refl
  have hle := Cfg.size_le_nmax hwf hv
  exact ⟨show k < 2 * (s.cfg.size / 2) by omega, by omega⟩

/-- A twiddle factor is a pair of wrapped numbers (R95). -/
theorem rom_eq_wrap (q : Twq) (t : Tag) (L k : Nat) :
    ∃ re im, rom q t L k = { re := wrap t.width re, im := wrap t.width im } := by
  unfold rom romRe
  split
  · exact ⟨_, _, rfl⟩
  · exact ⟨_, _, rfl⟩

theorem fxSubu_eq_wrap {checked : Bool} {w : Nat} {a b r : Word} (h : fxSubu checked w a b = .ok r) :
    ∃ n, r = wrap w n := by
  unfold fxSubu at h
  split_ifs at h
  all_goals exact ⟨_, (Except.ok.inj h).symm⟩

/-- A two-operand command whose function wraps its result stores a word that the state yields. -/
theorem binary_stores {s : State} {i : Instr} {rd ra rb : Reg} {f : Tag → Word → Word → Check Word}
    (hrd : rd ∈ i.destRegs) (hf : ∀ t a b r, f t a b = .ok r → ∃ n, r = wrap t.width n) :
    Ensures (s.binary rd ra rb f) (Stores (s.footprint i) s) := by
  intro u hu
  obtain ⟨a, b, r, ha, -, -, hr, rfl⟩ := binary_eq_ok.1 hu
  obtain ⟨n, rfl⟩ := hf _ _ _ _ hr
  exact Stores.refl.setReg hrd (.ofHeld (.of_reg ha) n)

/-- Every command stores words that its state yields, into its footprint alone. -/
theorem exec_stores {i : Instr} {s t : State} (h : exec i s = .next t) : Stores (s.footprint i) s t := by
  cases i with
  | nop => exact .of_finish .refl h (.pure .refl)
  | setcfg n iw fw =>
    exact .of_finish (s₀ := { s with cfg := Cfg.unconfigured }) (.of_eq rfl rfl rfl rfl) h
      (.bind fun _ _ => .bind fun _ _ => .pure (.of_eq rfl rfl rfl rfl))
  | fxadd rd ra rb | fxsub rd ra rb | fxmul rd ra rb | fxmulu rd ra rb =>
    refine .of_finish .refl h (binary_stores List.mem_cons_self ?_)
    rintro t a b _ ⟨⟩
    exact ⟨_, rfl⟩
  | fxsubu rd ra rb =>
    exact .of_finish .refl h (binary_stores List.mem_cons_self fun _ _ _ _ => fxSubu_eq_wrap)
  | fxneg rd ra =>
    refine .of_finish .refl h (.bind fun a ha => .pure ?_)
    exact Stores.refl.setReg List.mem_cons_self (.ofHeld (.of_reg (written_eq_ok.1 ha)) _)
  | cmul p1 p2 p3 =>
    refine .of_finish .refl h (.bind fun x hx => .bind fun y hy => .bind fun t ht => .pure ?_)
    obtain ⟨hre, -⟩ := pairOperand_eq_ok.1 hx
    obtain ⟨-, rfl⟩ := commonTag_eq_ok.1 ht
    exact Stores.refl.setPair (by simp [Instr.destRegs]) (.ofHeld (.of_reg hre) _)
      (.ofHeld (.of_reg hre) _)
  | bfly p1 p2 p3 =>
    refine .of_finish .refl h
      (.bind fun a ha => .bind fun b hb => .bind fun w hw => .bind fun t ht => .pure ?_)
    obtain ⟨hre, -⟩ := pairOperand_eq_ok.1 ha
    obtain ⟨-, rfl⟩ := commonTag_eq_ok.1 ht
    have yields (n : Int) := State.Yields.ofHeld (.of_reg hre) n
    exact (Stores.refl.setPair (by simp [Instr.destRegs]) (yields _) (yields _)).setPair
      (by simp [Instr.destRegs]) (yields _) (yields _)
  | bitrev w j =>
    exact .of_finish .refl h (.bind fun _ _ => .bind fun _ _ => .pure (.of_eq rfl rfl rfl rfl))
  | addrgen st j =>
    exact .of_finish .refl h
      (.bind fun _ _ => .bind fun _ _ => .bind fun _ _ => .pure (.of_eq rfl rfl rfl rfl))
  | twid p k =>
    refine .of_finish .refl h (.bind fun c hc => .bind fun _ _ => .pure ?_)
    obtain ⟨hv, rfl⟩ := config_eq_ok.1 hc
    obtain ⟨re, im, e⟩ := rom_eq_wrap s.params.twq s.cfg.tag s.cfg.stages k.toNat
    rw [e]
    exact Stores.refl.setPair (by simp [Instr.destRegs]) (.ofCfg hv _) (.ofCfg hv _)
  | ldc p b j =>
    refine .of_finish .refl h (.bind fun _ _ => .bind fun _ _ => .bind fun e he => .pure ?_)
    obtain ⟨hre, him⟩ := writtenPair_eq_ok.1 he
    exact Stores.refl.setPair (by simp [Instr.destRegs]) (.held (.of_buffer hre)) (.held (.of_buffer him))
  | stc p b j =>
    refine .of_finish .refl h
      (.bind fun c hc => .bind fun _ hj => .bind fun e he => .bind fun _ _ => .pure ?_)
    obtain ⟨hv, rfl⟩ := config_eq_ok.1 hc
    obtain ⟨hre, him⟩ := pairOperand_eq_ok.1 he
    have hj : j.toNat < s.cfg.size := of_decide_eq_true (require_eq_ok.1 hj)
    have slots (k : Nat) (hk : k / 2 = j.toNat) (hwf : s.cfg.wf s.params) :
        (k = reSlot j.toNat ∨ k = imSlot j.toNat) ∧ k < 2 * s.params.nmax := by
      have hle := Cfg.size_le_nmax hwf hv
      exact ⟨hk ▸ slot_cases k, by omega⟩
    have writes {K : Nat → Prop} {m : Memory TWord} (hK : ∀ k, k / 2 = j.toNat → K k) :
        Writes K s.Yields m (m.putEntry j.toNat (some e.1) (some e.2)) :=
      Writes.refl.putEntry hK (.held (.of_reg hre)) (.held (.of_reg him))
    cases b with
    | inbuf => exact .setInbuf (writes fun k hk hwf => (slots k hk hwf).imp_left (.intro rfl))
    | outbuf => exact .setOutbuf (writes fun k hk hwf => (slots k hk hwf).imp_left (.intro rfl))
  | permute =>
    refine .of_finish .refl h (.bind fun c hc => .bind fun _ hin => .pure ?_)
    obtain ⟨hv, rfl⟩ := config_eq_ok.1 hc
    exact .setOutbuf (writes_permuteBody (fun _ => id) hv (checkBlock_eq_ok.1 hin))
  | stage st =>
    refine .of_finish .refl h (.bind fun c hc => .bind fun _ hst => .bind fun _ _ => .pure ?_)
    obtain ⟨hv, rfl⟩ := config_eq_ok.1 hc
    exact .setOutbuf
      (writes_stageBody (fun _ => id) hv (of_decide_eq_true (require_eq_ok.1 hst)) .refl)
  | fft =>
    refine .of_finish .refl h (.bind fun c hc => .bind fun _ hin => .pure ?_)
    obtain ⟨hv, rfl⟩ := config_eq_ok.1 hc
    exact .setOutbuf (.foldl (fun st hst _ => writes_stageBody (fun _ => id) hv hst)
      (writes_permuteBody (fun _ => id) hv (checkBlock_eq_ok.1 hin)))
  | spectrum mode =>
    refine .of_finish .refl h (.bind fun _ _ => .bind fun c hc => .bind fun _ _ => .pure ?_)
    obtain ⟨hv, rfl⟩ := config_eq_ok.1 hc
    exact ⟨fun _ => .inl rfl, .refl, .refl, writes_spectrumBody hv _⟩

/-- Settles O16: a command stores into its destination registers alone. -/
theorem registerFrame : Obligations.RegisterFrame := by
  intro i s t h r hr
  exact ((exec_stores h).regs r).resolve_right fun ⟨hdest, _⟩ => hr hdest

/-- Settles O17: a command stores into its footprint alone, and with a CFG that a step can leave the
footprint's slots are those the command is said to store to. -/
theorem bufferFrame : Obligations.BufferFrame := by
  intro i s t hwf h
  obtain ⟨-, hin, hout, hspec⟩ := exec_stores h
  exact ⟨fun k hk => hin.get_other k fun hK => hk (hK hwf).1,
    fun k hk => hout.get_other k fun hK => hk (hK hwf).1,
    fun k hk => hspec.get_other k fun hK => hk (hK hwf).1⟩

/-! ### What a step stores -/

/-- Every register, and for a CFG that a step can leave every slot within the buffers' capacity (R33 to
R35). -/
def State.capacity (s : State) : Footprint where
  regs _ := True
  inbuf k := s.cfg.wf s.params → k < 2 * s.params.nmax
  outbuf k := s.cfg.wf s.params → k < 2 * s.params.nmax
  spec k := s.cfg.wf s.params → k < 2 * (s.params.nmax / 2)

theorem Stores.within_capacity {i : Instr} {s t : State} (h : Stores (s.footprint i) s t) :
    Stores s.capacity s t where
  regs r := (h.regs r).imp_right (.imp_left fun _ => trivial)
  inbuf := h.inbuf.mono fun _ hk hwf => (hk hwf).2
  outbuf := h.outbuf.mono fun _ hk hwf => (hk hwf).2
  spec := h.spec.mono fun _ hk hwf => (hk hwf).2

theorem dataWrite_stores {f : Footprint} {s : State} {d : Word} {store : TWord → State}
    (h : ∀ w, s.Yields w → Stores f s (store w)) : Stores f s (s.dataWrite d store) := by
  rw [dataWrite_eq]
  split
  · next hv => exact { h _ (.ofCfg hv _) with }
  · exact .of_eq rfl rfl rfl rfl

/-- A slot that an address names lies within its buffer's capacity (R52). -/
theorem locate_within_capacity (p : Params) (addr : Addr) :
    (∀ k, locate p addr = .inbuf k → k < 2 * p.nmax) ∧
      ∀ k, locate p addr = .outbuf k → k < 2 * p.nmax := by
  obtain ⟨hin, hout, -⟩ := registerAt_no_slot addr.toNat
  obtain ⟨-, e⟩ | ⟨-, e⟩ | ⟨-, k, ⟨hk, e | e⟩ | ⟨-, e⟩⟩ := locate_cases p addr <;> rw [e]
  · exact ⟨fun k h => absurd h (hin k), fun k h => absurd h (hout k)⟩
  · exact ⟨nofun, nofun⟩
  · exact ⟨fun _ h => Location.inbuf.inj h ▸ hk, nofun⟩
  · exact ⟨nofun, fun _ h => Location.outbuf.inj h ▸ hk⟩
  · exact ⟨nofun, nofun⟩

theorem writeLocation_status (s : State) (d : Word) :
    s.writeLocation d .status = if d.getLsbD 0 then s.clearErrors else s := rfl

theorem writeLocation_v (s : State) (d : Word) (r : Reg) :
    s.writeLocation d (.v r) = s.dataWrite d fun w => s.setReg r (some w) := rfl

theorem writeLocation_inbuf (s : State) (d : Word) (k : Nat) :
    s.writeLocation d (.inbuf k) = s.dataWrite d fun w => s.setBuffer .inbuf (s.inbuf.put k (some w)) := rfl

theorem writeLocation_outbuf (s : State) (d : Word) (k : Nat) :
    s.writeLocation d (.outbuf k) = s.dataWrite d fun w => s.setBuffer .outbuf (s.outbuf.put k (some w)) := rfl

theorem writeLocation_stores (s : State) (d : Word) (addr : Addr) :
    Stores s.capacity s (s.writeLocation d (locate s.params addr)) := by
  obtain ⟨hin, hout⟩ := locate_within_capacity s.params addr
  cases hloc : locate s.params addr with
  | v r => exact dataWrite_stores fun _ hw => Stores.refl.setReg trivial hw
  | inbuf k => exact dataWrite_stores fun _ hw => .setInbuf (Writes.refl.put (fun _ => hin k hloc) hw)
  | outbuf k => exact dataWrite_stores fun _ hw => .setOutbuf (Writes.refl.put (fun _ => hout k hloc) hw)
  | status =>
    rw [writeLocation_status]
    split <;> exact .of_eq rfl rfl rfl rfl
  | cmd | cfg | res0 | res1 | res2 | vtag _ | spec _ | reserved => exact .refl

theorem giveToHost_stores {f : Footprint} (s : State) (x : ReadValue) : Stores f s (s.giveToHost x) := by
  cases x <;> exact .of_eq rfl rfl rfl rfl

/-- Every action of the host but the reset stores words that the state yields, within the buffers'
capacity. -/
theorem perform_stores {s t : State} {a : HostAction} (h : perform s a = .next t) :
    Stores s.capacity s t ∨ t = s.platformReset := by
  obtain ⟨_, _, -, -, rfl⟩ | ⟨_, _, _, i, -, -, -, h⟩ | ⟨_, _, _, _, -, -, -, rfl⟩ |
    ⟨addr, _, d, -, -, -, -, rfl⟩ | ⟨-, rfl⟩ := perform_cases h
  · exact .inl (giveToHost_stores s _)
  · exact .inl (exec_stores h).within_capacity
  · exact .inl (.of_eq rfl rfl rfl rfl)
  · exact .inl (writeLocation_stores s d addr)
  · exact .inr rfl

/-- A state reached by storing holds words that the state before yields. -/
theorem Stores.yields {f : Footprint} {s t : State} (h : Stores f s t) {w : TWord} (hw : t.Holds w) :
    s.Yields w := by
  obtain ⟨r, hr⟩ | ⟨k, hk⟩ | ⟨k, hk⟩ := hw
  · obtain e | ⟨-, w', hr', hw'⟩ := h.regs r
    · exact .held (.of_reg (e ▸ hr))
    · rw [hr'] at hr
      exact Option.some.inj hr ▸ hw'
  · obtain hk | ⟨-, hw⟩ := h.inbuf.cells _ hk
    · exact .held (.inr (.inl ⟨k, hk⟩))
    · exact hw
  · obtain hk | ⟨-, hw⟩ := h.outbuf.cells _ hk
    · exact .held (.inr (.inr ⟨k, hk⟩))
    · exact hw

/-! ### Every step keeps the masked patterns -/

theorem State.allMasked_iff {s : State} : s.AllMasked ↔ ∀ w, s.Holds w → w.masked = true := by
  constructor
  · rintro ⟨hregs, hin, hout⟩ w (⟨r, h⟩ | ⟨k, h⟩ | ⟨k, h⟩)
    · exact hregs r w h
    · exact hin _ h
    · exact hout _ h
  · exact fun h => ⟨fun r w hw => h w (.of_reg hw), fun c hc => h c.2 (.inr (.inl ⟨c.1, hc⟩)),
      fun c hc => h c.2 (.inr (.inr ⟨c.1, hc⟩))⟩

theorem platformReset_holds_nothing (s : State) (w : TWord) : ¬ s.platformReset.Holds w := by
  rintro (⟨r, h⟩ | ⟨k, h⟩ | ⟨k, h⟩)
  · simp [State.reg, State.platformReset, State.reset, Vector.get_eq_getElem] at h
  · exact absurd h List.not_mem_nil
  · exact absurd h List.not_mem_nil

theorem perform_allMasked {s t : State} {a : HostAction} (hs : s.AllMasked) (h : perform s a = .next t) :
    t.AllMasked := by
  obtain h | rfl := perform_stores h
  · refine State.allMasked_iff.2 fun w hw => ?_
    cases h.yields hw with
    | held hw => exact State.allMasked_iff.1 hs w hw
    | ofHeld | ofCfg => exact masked_wrap _ _
  · exact State.allMasked_iff.2 fun w hw => absurd hw (platformReset_holds_nothing s w)

/-- Settles O12: the idle step keeps the state, and what an action stores is masked. -/
theorem storedRawsStayMasked : Obligations.StoredRawsStayMasked := by
  intro s t hs h
  obtain ⟨-, rfl⟩ | ⟨a, rest, -, h⟩ := step_cases h
  · exact hs
  · exact perform_allMasked (s := s.takeAction rest) { hs with } h

/-! ### CFG and STATUS -/

/-- The sizes SETCFG takes (R181). -/
theorem sizeLegal_iff {p : Params} {n : Nat} :
    sizeLegal p n = true ↔ ∃ k, 1 ≤ k ∧ n = 2 ^ k ∧ 2 ^ k ≤ p.nmax := by
  simp only [sizeLegal, Bool.and_eq_true, decide_eq_true_eq, beq_iff_eq]
  constructor
  · rintro ⟨⟨h2, hpow⟩, hle⟩
    refine ⟨Nat.log2 n, ?_, hpow.symm, hpow.trans_le hle⟩
    by_contra hk
    rw [show Nat.log2 n = 0 by omega] at hpow
    omega
  · rintro ⟨k, hk, rfl, hle⟩
    exact ⟨⟨Nat.pow_le_pow_right (n := 2) (by norm_num) hk, by rw [Nat.log2_two_pow]⟩, hle⟩

theorem Cfg.unconfigured_wf (p : Params) : Cfg.unconfigured.wf p := rfl

/-- What SETCFG writes after its checks is a CFG as R24 has it. -/
theorem Cfg.make_wf {p : Params} {n : BitVec 16} {iw fw : BitVec 5} (hn : sizeLegal p n.toNat = true)
    (hw : (iw != 0#5 && fw != 0#5) = true) : (Cfg.make n iw fw).wf p := by
  obtain ⟨k, hk, hpow, hle⟩ := sizeLegal_iff.1 hn
  have hk16 : k < 16 := (Nat.pow_lt_pow_iff_right (by norm_num)).1 (hpow ▸ n.isLt)
  have hstages : (Cfg.make n iw fw).stages = k := by
    simp only [Cfg.stages, Cfg.make, hpow, Nat.log2_two_pow, BitVec.toNat_ofNat]
    omega
  rw [Cfg.wf, if_pos (show (Cfg.make n iw fw).valid = true from rfl), hstages]
  obtain ⟨hiw, hfw⟩ : iw ≠ 0#5 ∧ fw ≠ 0#5 := by simpa using hw
  exact ⟨hpow, hk, (Nat.pow_le_pow_iff_right (by norm_num)).1 hle, show 1 ≤ iw.toNat by bv_omega,
    show 1 ≤ fw.toNat by bv_omega⟩

theorem State.succeed_consistent (s : State) : s.succeed.status.consistent := fun hne => absurd rfl hne

theorem State.raise_consistent (s : State) (e : ErrCode) : (s.raise e).status.consistent := by
  intro hne
  rw [State.raise_firstErr]
  split
  · exact hne
  · assumption

/-- What `t` has to keep of CFG and STATUS as they were in `s`. -/
structure KeepsControl (s t : State) : Prop where
  params : t.params = s.params
  cfg : t.cfg.wf s.params
  status : t.status.consistent
  busy : t.status.busy = false

namespace KeepsControl

variable {s t : State}

theorem of_inv (h : s.Inv) : KeepsControl s s := ⟨rfl, h.cfg, h.status, h.busy⟩

theorem succeed (h : KeepsControl s t) : KeepsControl s t.succeed :=
  { h with status := t.succeed_consistent }

theorem clearErrors (h : KeepsControl s t) : KeepsControl s t.clearErrors :=
  { h with status := fun hne => absurd rfl hne }

theorem raise (h : KeepsControl s t) (e : ErrCode) : KeepsControl s (t.raise e) :=
  { h with status := t.raise_consistent e }

theorem giveToHost (h : KeepsControl s t) (x : ReadValue) : KeepsControl s (t.giveToHost x) := by
  cases x <;> exact { h with }

theorem dataWrite {d : Word} {store : TWord → State} (h : KeepsControl s t)
    (hstore : ∀ w, KeepsControl s (store w)) : KeepsControl s (t.dataWrite d store) := by
  rw [dataWrite_eq]
  split
  · exact (hstore _).succeed
  · exact h.raise _

theorem writeLocation (h : KeepsControl s t) (d : Word) (loc : Location) :
    KeepsControl s (t.writeLocation d loc) := by
  cases loc with
  | v r =>
    rw [writeLocation_v]
    exact h.dataWrite fun _ => { h with }
  | inbuf k =>
    rw [writeLocation_inbuf]
    exact h.dataWrite fun _ => { h with }
  | outbuf k =>
    rw [writeLocation_outbuf]
    exact h.dataWrite fun _ => { h with }
  | status =>
    rw [writeLocation_status]
    split
    · exact h.clearErrors
    · exact h
  | cmd | cfg | res0 | res1 | res2 | vtag | spec | reserved => exact h

end KeepsControl

/-- Every command ends as R203 says. -/
theorem exec_eq_finish (i : Instr) (s : State) : ∃ s₀ r, exec i s = finish s₀ r := by
  cases i <;> exact ⟨_, _, rfl⟩

theorem exec_status_consistent {i : Instr} {s t : State} (h : exec i s = .next t) : t.status.consistent := by
  obtain ⟨s₀, r, e⟩ := exec_eq_finish i s
  exact of_finish_eq_next (P := fun t => t.status.consistent) (e ▸ h)
    (fun _ _ => State.succeed_consistent _) fun _ _ => State.raise_consistent _ _

theorem exec_cfg_wf {i : Instr} {s t : State} (hs : s.cfg.wf s.params) (h : exec i s = .next t) :
    t.cfg.wf s.params := by
  cases i with
  | setcfg n iw fw =>
    exact of_finish_eq_next (P := fun t => t.cfg.wf s.params) h
      (.bind fun _ hn => .bind fun _ hw => .pure (Cfg.make_wf (require_eq_ok.1 hn) (require_eq_ok.1 hw)))
      fun _ _ => Cfg.unconfigured_wf _
  | _ => exact (exec_specialFrame h).cfg rfl ▸ hs

theorem exec_keepsControl {i : Instr} {s t : State} (hs : s.Inv) (h : exec i s = .next t) :
    KeepsControl s t where
  params := (exec_specialFrame h).params
  cfg := exec_cfg_wf hs.cfg h
  status := exec_status_consistent h
  busy := (exec_specialFrame h).busy.trans hs.busy

/-! ### Every step keeps the invariant -/

theorem State.Inv.holds_wf {s : State} (hs : s.Inv) {w : TWord} (hw : s.Holds w) : w.wf = true := by
  obtain ⟨r, h⟩ | ⟨k, h⟩ | ⟨k, h⟩ := hw
  · exact hs.regs r w h
  · exact (hs.inbuf.2 _ h).2
  · exact (hs.outbuf.2 _ h).2

theorem wf_wrap {t : Tag} (ht : t.legal) (n : Int) : TWord.wf { tag := t, raw := wrap t.width n } = true := by
  simp [TWord.wf, masked_wrap, ht]

theorem TWord.legal_of_wf {w : TWord} (h : w.wf = true) : w.tag.legal := by
  simp only [TWord.wf, Bool.and_eq_true, decide_eq_true_eq] at h
  exact h.2

theorem State.Inv.yields_wf {s : State} (hs : s.Inv) {w : TWord} (hw : s.Yields w) : w.wf = true := by
  cases hw with
  | held h => exact hs.holds_wf h
  | ofHeld h n => exact wf_wrap (TWord.legal_of_wf (hs.holds_wf h)) n
  | ofCfg hv n =>
    obtain ⟨-, -, -, hlegal⟩ := Cfg.wf_of_valid hs.cfg hv
    exact wf_wrap hlegal n

theorem State.Inv.of_stores {s t : State} (hs : s.Inv) (hc : KeepsControl s t) (h : Stores s.capacity s t) :
    t.Inv := by
  have wf (w : TWord) (hw : t.Holds w) : w.wf = true := hs.yields_wf (h.yields hw)
  obtain ⟨hparams, hcfg, hstatus, hbusy⟩ := hc
  obtain ⟨hin, hinCells⟩ := hs.inbuf
  obtain ⟨hout, houtCells⟩ := hs.outbuf
  obtain ⟨hspec, hspecCells⟩ := hs.spec
  exact {
    params := hparams ▸ hs.params
    cfg := hparams ▸ hcfg
    status := hstatus
    busy := hbusy
    regs := fun r w hw => wf w (.of_reg hw)
    inbuf := hparams ▸ ⟨h.inbuf.wf hin, fun c hc =>
      ⟨(h.inbuf.cells c hc).elim (fun hc => (hinCells c hc).1) fun hc => hc.1 hs.cfg,
        wf c.2 (.inr (.inl ⟨c.1, hc⟩))⟩⟩
    outbuf := hparams ▸ ⟨h.outbuf.wf hout, fun c hc =>
      ⟨(h.outbuf.cells c hc).elim (fun hc => (houtCells c hc).1) fun hc => hc.1 hs.cfg,
        wf c.2 (.inr (.inr ⟨c.1, hc⟩))⟩⟩
    spec := hparams ▸ ⟨h.spec.wf hspec, fun c hc =>
      (h.spec.cells c hc).elim (hspecCells c) fun hc => hc.1 hs.cfg⟩ }

/-- The platform's reset meets the invariant whatever state it is applied in (R41, R220). -/
theorem platformReset_inv {s : State} (hp : s.params.wf) : s.platformReset.Inv where
  params := hp
  cfg := Cfg.unconfigured_wf _
  status := fun hne => absurd rfl hne
  busy := rfl
  regs _ w hw := absurd (.of_reg hw) (platformReset_holds_nothing s w)
  inbuf := ⟨Memory.wf_empty, fun _ hc => absurd hc List.not_mem_nil⟩
  outbuf := ⟨Memory.wf_empty, fun _ hc => absurd hc List.not_mem_nil⟩
  spec := ⟨Memory.wf_empty, fun _ hc => absurd hc List.not_mem_nil⟩

theorem perform_inv {s t : State} {a : HostAction} (hs : s.Inv) (h : perform s a = .next t) : t.Inv := by
  have control := KeepsControl.of_inv hs
  obtain ⟨_, _, -, -, rfl⟩ | ⟨_, _, _, i, -, -, -, h⟩ | ⟨_, _, _, _, -, -, -, rfl⟩ |
    ⟨addr, _, d, -, -, -, -, rfl⟩ | ⟨-, rfl⟩ := perform_cases h
  · exact hs.of_stores (control.giveToHost _) (giveToHost_stores s _)
  · exact hs.of_stores (exec_keepsControl hs h) (exec_stores h).within_capacity
  · exact hs.of_stores (control.raise _) (.of_eq rfl rfl rfl rfl)
  · exact hs.of_stores (control.writeLocation d _) (writeLocation_stores s d addr)
  · exact platformReset_inv hs.params

/-- Settles O11: the idle step keeps the state, and every action of the host keeps the invariant. -/
theorem everyStepKeepsInvariant : Obligations.EveryStepKeepsInvariant := by
  intro s t hs h
  obtain ⟨-, rfl⟩ | ⟨a, rest, -, h⟩ := step_cases h
  · exact hs
  · exact perform_inv (s := s.takeAction rest) { hs with } h

/-- Settles O10: reset is the platform's reset with the default parameters. -/
theorem resetMeetsInvariant : Obligations.ResetMeetsInvariant :=
  platformReset_inv (s := State.reset) (by decide)

end Sys2Proof.Machine
end

section
/-! PROOFS. The step and the reset (O6, O9), SETCFG (O20), the registers' views (O51) and the host's
accesses (O52, O55, O59). -/

namespace Sys2Proof.Machine

/-! ### The step -/

theorem step_of_pending {s : State} {a : HostAction} {rest : List HostAction}
    (h : s.host.pending = a :: rest) : step s = perform (s.takeAction rest) a := by
  rw [step, transition, h]

theorem locate_zero (p : Params) : locate p 0x000000#22 = .cmd := locate_eq_cmd.2 rfl

/-- A CMD write issues its datum (R185). -/
theorem perform_cmdWrite {s : State} (hb : s.status.busy = false) (d : Word) :
    perform s (.write 0x000000#22 8 d) = issue d s := by
  simp [perform, guardAccess, insideInterface, hb, hostWrite, locate_zero]

theorem step_cmdWrite {s : State} {d : Word} {rest : List HostAction}
    (h : s.host.pending = .write 0x000000#22 8 d :: rest) (hb : s.status.busy = false) :
    step s = issue d (s.takeAction rest) := by
  rw [step_of_pending h, perform_cmdWrite (s := s.takeAction rest) hb]

theorem issue_of_ok {s : State} {d : Word} {i : Instr} (h : decodeData d = .ok i) : issue d s = exec i s := by
  rw [issue, h]

theorem issue_of_error {s : State} {d : Word} {e : Reject} (h : decodeData d = .error e) :
    issue d s = .next (s.raise .illegalCommand) := by
  rw [issue, h, finish_error]

theorem decodeTableWord_eq_some {nbits w : Nat} {i : Instr} :
    decodeTableWord nbits w = some i ↔ decodeData (tableData nbits w) = .ok i := by
  unfold decodeTableWord
  cases decodeData (tableData nbits w) <;> simp [Except.toOption]

/-- Settles O6: the step performs the first pending action, and a CMD write among them issues its datum. -/
theorem stepRunsTheDecodedCommand : Obligations.StepRunsTheDecodedCommand := by
  refine ⟨fun _ _ _ => step_of_pending, fun s rest d hp hb => ⟨fun i hi => ?_, fun e he => ?_⟩,
    fun s w i hi => ?_, fun s => ⟨_, rfl, rfl⟩⟩
  · rw [step_cmdWrite hp hb, issue_of_ok hi]
  · rw [step_cmdWrite hp hb, issue_of_error he]
  · rw [step_cmdWrite rfl rfl, issue_of_ok (decodeTableWord_eq_some.1 hi)]
    rfl

/-! ### Reset -/

theorem platformReset_reg (s : State) (r : Reg) : s.platformReset.reg r = none := by
  simp [State.reg, State.platformReset, State.reset, Vector.get_eq_getElem]

theorem unconfigured_word : Cfg.unconfigured.word = 0#64 := by decide

theorem platformReset_statusWord (s : State) : s.platformReset.statusWord = 0#64 := by
  change State.reset.statusWord = 0#64
  decide

/-- Settles O9: `State.reset` is the platform's reset applied in it. -/
theorem resetLeavesTheStatedValues : Obligations.ResetLeavesTheStatedValues := by
  unfold Obligations.ResetLeavesTheStatedValues
  intro asStated
  have stated (s : State) : asStated s.platformReset :=
    ⟨unconfigured_word, platformReset_statusWord s, rfl, rfl, rfl, platformReset_reg s, fun _ => rfl,
      fun _ => rfl, fun _ => rfl⟩
  exact ⟨stated State.reset, fun s => ⟨_, rfl, stated s, rfl⟩⟩

/-! ### SETCFG -/

/-- Settles O20: both of SETCFG's checks pass. -/
theorem setcfgWritesCfg : Obligations.SetcfgWritesCfg := by
  intro s n iw fw k hk hn hle hiw hfw
  have hsize : sizeLegal s.params n.toNat = true := sizeLegal_iff.2 ⟨k, hk, hn, hle⟩
  have hwidth : (iw != 0#5 && fw != 0#5) = true := by simp [hiw, hfw]
  rw [exec, execSetcfg, hsize, hwidth]
  simp only [require_true, ok_bind, pure_eq_ok, finish_ok, Cfg.make, hn, Nat.log2_two_pow]
  rfl

/-! ### The registers' views -/

section Fields

variable {n lo : Nat} (x : BitVec n)

/-- The bits of a field in its register. -/
theorem getElem_regPart {i : Nat} (hi : i < 64) :
    (regPart x lo)[i] = (decide (lo ≤ i) && x.getLsbD (i - lo)) := by
  by_cases h : lo ≤ i <;> simp [regPart, h]

/-- A field reads back as what was put there. -/
theorem extractLsb'_regPart_same (h : lo + n ≤ 64) : (regPart x lo).extractLsb' lo n = x := by
  ext i hi
  simp [show lo + i < 64 by omega, getElem_regPart, BitVec.getLsbD_eq_getElem hi]

/-- Beside a field every bit is 0. -/
theorem extractLsb'_regPart_other {a len : Nat} (h : a + len ≤ lo ∨ lo + n ≤ a) (h64 : a + len ≤ 64) :
    (regPart x lo).extractLsb' a len = 0#len := by
  ext i hi
  rw [BitVec.getElem_extractLsb', BitVec.getLsbD_eq_getElem (by omega), getElem_regPart]
  obtain h | h := h
  · simp [show ¬ lo ≤ a + i by omega]
  · simp [BitVec.getLsbD_of_ge x (a + i - lo) (by omega)]

end Fields

theorem statusWord_fields (s : State) :
    s.statusWord.extractLsb' 0 4 = s.status.lastErr.code ∧
    s.statusWord.extractLsb' 4 4 = s.status.firstErr.code ∧
    s.statusWord.getLsbD 8 = s.cfg.valid ∧ s.statusWord.getLsbD 9 = s.status.busy ∧
    s.statusWord.extractLsb' 10 54 = 0#54 := by
  simp [State.statusWord, BitVec.extractLsb'_or, extractLsb'_regPart_same, extractLsb'_regPart_other,
    getElem_regPart]

theorem cfgWord_fields (c : Cfg) :
    c.word.extractLsb' 0 16 = c.n ∧ c.word.extractLsb' 16 5 = c.fw ∧ c.word.extractLsb' 21 5 = c.iw ∧
    c.word.getLsbD 26 = c.valid ∧ c.word.extractLsb' 27 4 = c.log2n ∧ c.word.extractLsb' 31 33 = 0#33 := by
  simp [Cfg.word, BitVec.extractLsb'_or, extractLsb'_regPart_same, extractLsb'_regPart_other,
    getElem_regPart]

theorem vtagWord_fields (w : TWord) :
    (vtagWord (some w)).extractLsb' 0 16 = 0#16 ∧ (vtagWord (some w)).extractLsb' 16 5 = w.tag.fw ∧
    (vtagWord (some w)).extractLsb' 21 5 = w.tag.iw ∧ (vtagWord (some w)).getLsbD 26 = true ∧
    (vtagWord (some w)).extractLsb' 27 37 = 0#37 := by
  simp [vtagWord, BitVec.extractLsb'_or, extractLsb'_regPart_same, extractLsb'_regPart_other,
    getElem_regPart]

/-- Settles O51: each register is the union of its fields, which do not overlap. -/
theorem registerViews : Obligations.RegisterViews :=
  ⟨statusWord_fields, cfgWord_fields, vtagWord_fields, rfl, by decide⟩

/-! ### Host accesses -/

/-- Settles O55: address 8 names STATUS. -/
theorem statusWriteClears : Obligations.StatusWriteClears := by
  intro s d hb
  have hloc : locate s.params 0x000008#22 = .status := locate_eq_status.2 rfl
  rw [perform_write (by decide) hb (by simp [hloc]), hloc, writeLocation_status]
  rfl

section Addresses

variable {p : Params} {a k : Nat}

theorem toNat_addr (h : a < 0x400000) : (BitVec.ofNat 22 a).toNat = a :=
  Nat.mod_eq_of_lt h

theorem insideInterface_aligned (h : a < 0x400000) (ha : a % 8 = 0) :
    insideInterface (BitVec.ofNat 22 a) 8 = true := by
  simp [insideInterface, toNat_addr h, ha]

/-- The slots of a buffer stand one after another from its base (R52). -/
theorem bufferSlot_eq {base entries : Nat} {mk : Nat → Location} (hk : k < 2 * entries) :
    bufferSlot base entries (base + 8 * k) mk = mk k := by
  have hentry : (base + 8 * k - base) / 16 < entries := by omega
  have hslot : (base + 8 * k - base) / 8 = k := by omega
  rw [bufferSlot, if_pos hentry, hslot]

/-- The registers V0 to V15 stand one after another (R51). -/
theorem registerAt_v (r : Reg) : registerAt (0x000100 + 8 * r.val) = .v r := by
  have hr := r.isLt
  rw [registerAt, if_neg (by omega), if_neg (by omega), if_neg (by omega), if_neg (by omega),
    if_neg (by omega), if_neg (by omega), if_neg (by omega), if_pos (by omega)]
  congr 1
  ext
  simp only [blockReg, Fin.val_ofNat]
  omega

theorem locate_v (p : Params) (r : Reg) : locate p (BitVec.ofNat 22 (0x000100 + 8 * r.val)) = .v r := by
  have hr := r.isLt
  simp only [locate, toNat_addr (show 0x000100 + 8 * r.val < 0x400000 by omega)]
  rw [if_pos (by omega), registerAt_v]

/-- NMAX is at most 2^15 (R9). -/
theorem Params.nmax_le (hp : p.wf) : p.nmax ≤ 0x8000 := Nat.pow_le_pow_right (n := 2) (by norm_num) hp.2

theorem locate_inbuf (hp : p.wf) (hk : k < 2 * p.nmax) :
    locate p (BitVec.ofNat 22 (0x100000 + 8 * k)) = .inbuf k := by
  have hle := Params.nmax_le hp
  simp only [locate, toNat_addr (show 0x100000 + 8 * k < 0x400000 by omega)]
  rw [if_neg (by omega), if_pos (by omega), bufferSlot_eq hk]

theorem locate_outbuf (hp : p.wf) (hk : k < 2 * p.nmax) :
    locate p (BitVec.ofNat 22 (0x200000 + 8 * k)) = .outbuf k := by
  have hle := Params.nmax_le hp
  simp only [locate, toNat_addr (show 0x200000 + 8 * k < 0x400000 by omega)]
  rw [if_neg (by omega), if_neg (by omega), if_pos (by omega), bufferSlot_eq hk]

end Addresses

theorem dataWord_eq (c : Cfg) (d : Word) :
    dataWord c d = { tag := c.tag, raw := (d.setWidth c.tag.width).setWidth 64 } := by
  rw [← dataWord_raw]
  rfl

/-- A host data write stores the word, or fails with NotConfigured (R186). -/
theorem dataWrite_ends {s : State} {d : Word} {store : TWord → State}
    {r : Host.Outcome State Fault Refusal} (h : r = .next (s.dataWrite d store)) :
    (s.cfg.valid = true →
      r = .next (store { tag := s.cfg.tag, raw := (d.setWidth s.cfg.tag.width).setWidth 64 }).succeed) ∧
    (s.cfg.valid = false → r = .next (s.raise .notConfigured)) := by
  rw [h, dataWrite_eq, dataWord_eq]
  exact ⟨fun hv => by rw [if_pos hv], fun hv => by rw [hv, if_neg Bool.false_ne_true]⟩

/-- A host write to an aligned address that names the location `loc` other than CMD. -/
theorem perform_write_at {s : State} {a : Nat} {loc : Location} (d : Word) (hb : s.status.busy = false)
    (ha : a < 0x400000 ∧ a % 8 = 0) (hloc : locate s.params (BitVec.ofNat 22 a) = loc) (hc : loc ≠ .cmd) :
    perform s (.write (BitVec.ofNat 22 a) 8 d) = .next (s.writeLocation d loc) := by
  rw [perform_write (insideInterface_aligned ha.1 ha.2) hb (hloc ▸ hc), hloc]

/-- Settles O52: each address names its slot, and a write to a slot is a host data write. -/
theorem dataWritesStoreMaskedWords : Obligations.DataWritesStoreMaskedWords := by
  unfold Obligations.DataWritesStoreMaskedWords
  intro s d hp hb w st outcome
  have hle := Params.nmax_le hp
  have inbuf (k a : Nat) (hk : k < 2 * s.params.nmax) (ha : 0x100000 + 8 * k = a) :
      outcome a { s with inbuf := s.inbuf.put k (some w), status := st } := by
    have e := perform_write_at d hb (by omega) (locate_inbuf hp hk) nofun
    rw [writeLocation_inbuf, ha] at e
    exact dataWrite_ends e
  have outbuf (k a : Nat) (hk : k < 2 * s.params.nmax) (ha : 0x200000 + 8 * k = a) :
      outcome a { s with outbuf := s.outbuf.put k (some w), status := st } := by
    have e := perform_write_at d hb (by omega) (locate_outbuf hp hk) nofun
    rw [writeLocation_outbuf, ha] at e
    exact dataWrite_ends e
  refine ⟨fun r => ?_, fun j hj => ⟨inbuf (reSlot j) _ ?_ ?_, inbuf (imSlot j) _ ?_ ?_,
    outbuf (reSlot j) _ ?_ ?_, outbuf (imSlot j) _ ?_ ?_⟩⟩
  · have e := perform_write_at d hb (by omega) (locate_v s.params r) nofun
    rw [writeLocation_v] at e
    exact dataWrite_ends e
  all_goals
    simp only [reSlot, imSlot]
    omega

/-- A STATUS read is allowed while BUSY = 1 (R223). -/
theorem perform_read_status (s : State) :
    perform s (.read 0x000008#22 8) = .next (s.giveToHost (.known s.statusWord)) := by
  have hloc : locate s.params 0x000008#22 = .status := locate_eq_status.2 rfl
  simp [perform, guardAccess, insideInterface, State.hostRead, hloc, State.readLocation]

/-- Settles O59: each location's value is known where the spec gives it. -/
theorem hostReadsReturnTheStatedWords : Obligations.HostReadsReturnTheStatedWords := by
  refine ⟨fun s addr hi hb => ?_, perform_read_status⟩
  have returns {loc : Location} {w : Word} (hw : s.readLocation loc = .known w)
      (hloc : locate s.params addr = loc) :
      perform s (.read addr 8) = .next (s.giveToHost (.known w)) := by
    rw [perform_read hi hb, hloc, hw]
  refine ⟨fun h => h.elim (returns rfl) (returns rfl), returns rfl, returns rfl, returns rfl, returns rfl,
    returns rfl, fun r => returns rfl, fun r x h hx => returns ?_ h, fun k x h hx => returns ?_ h,
    fun k x h hx => returns ?_ h, fun k w h hw => returns ?_ h⟩
  all_goals simp [State.readLocation, *, readTagged, readSpec]

end Sys2Proof.Machine
end

section
/-! PROOFS. The address map (O50), and what the host's accesses keep, refuse, ignore and return (O8, O53,
O54, O56, O57, O58). -/

namespace Sys2Proof.Machine

/-! ### Which accesses are refused -/

theorem insideInterface_iff {addr : Addr} {size : Nat} :
    insideInterface addr size = true ↔ size = 8 ∧ addr.toNat % 8 = 0 := by
  simp [insideInterface]

section Guard

variable {s : State} {addr : Addr} {size : Nat} {b : Bool} {k : Host.Outcome State Fault Refusal}

theorem guardAccess_outside (h : ¬ insideInterface addr size = true) :
    guardAccess s addr size b k = .refused .accessOutsideInterface := if_neg h

theorem guardAccess_busy (hi : insideInterface addr size = true) (hb : s.status.busy = true)
    (hn : b = false) : guardAccess s addr size b k = .refused .accessWhileBusy := by
  simp [guardAccess, hi, hb, hn]

/-- The guard refuses an access for R55 or for R223, and passes on no refusal where the access itself
answers a next state. -/
theorem guardAccess_eq_refused {t : State} {r : Refusal} (hk : k = .next t)
    (h : guardAccess s addr size b k = .refused r) :
    (r = .accessOutsideInterface ∧ ¬ insideInterface addr size = true) ∨
      (r = .accessWhileBusy ∧ s.status.busy = true) := by
  rw [guardAccess, hk] at h
  split_ifs at h with hi hb
  · exact .inr ⟨(Host.Outcome.refused.inj h).symm, (Bool.and_eq_true_iff.1 hb).1⟩
  · exact .inl ⟨(Host.Outcome.refused.inj h).symm, hi⟩

end Guard

/-- Every command completes (R205). -/
theorem exec_next (i : Instr) (s : State) : ∃ t, exec i s = .next t := by
  obtain ⟨s₀, r, e⟩ := exec_eq_finish i s
  exact ⟨_, e⟩

/-- An issued datum completes: its command does, and an illegal one is reported (R185). -/
theorem issue_next (d : Word) (s : State) : ∃ t, issue d s = .next t := by
  cases hd : decodeData d with
  | ok i => exact issue_of_ok (s := s) hd ▸ exec_next i s
  | error e => exact ⟨_, issue_of_error hd⟩

theorem hostWrite_next (s : State) (addr : Addr) (d : Word) : ∃ t, hostWrite s addr d = .next t := by
  rw [hostWrite]
  split
  · exact issue_next d s
  · exact ⟨_, rfl⟩

/-- A host action is refused only by the guard of its access. -/
theorem perform_eq_refused {s : State} {a : HostAction} {r : Refusal} (h : perform s a = .refused r) :
    ∃ addr size, (a = .read addr size ∨ ∃ d, a = .write addr size d) ∧
      ((r = .accessOutsideInterface ∧ ¬ insideInterface addr size = true) ∨
        (r = .accessWhileBusy ∧ s.status.busy = true)) := by
  cases a with
  | read addr size => exact ⟨addr, size, .inl rfl, guardAccess_eq_refused rfl h⟩
  | write addr size d =>
    obtain ⟨t, ht⟩ := hostWrite_next s addr d
    exact ⟨addr, size, .inr ⟨d, rfl⟩, guardAccess_eq_refused ht h⟩
  | reset => cases h

/-- A step that is refused performs a host action that is. -/
theorem step_eq_refused {s : State} {r : Refusal} (h : step s = .refused r) :
    ∃ a rest, s.host.pending = a :: rest ∧ perform (s.takeAction rest) a = .refused r := by
  cases hp : s.host.pending with
  | nil =>
    rw [step, transition, hp] at h
    cases h
  | cons a rest => exact ⟨a, rest, rfl, step_of_pending hp ▸ h⟩

/-- Settles O8: every command completes, there is no fault, and only the guard of an access refuses. -/
theorem stepStopsOnlyOnUndefinedAccesses : Obligations.StepStopsOnlyOnUndefinedAccesses := by
  refine ⟨exec_next, fun _ r => (nomatch r), fun s r h => ?_⟩
  obtain ⟨a, rest, hp, h⟩ := step_eq_refused h
  obtain ⟨addr, size, ha, hr⟩ := perform_eq_refused h
  simp only [hp, List.head?_cons, Option.some.injEq, ← insideInterface_iff]
  exact ⟨addr, size, ha, hr⟩

/-- Settles O57: the guard refuses each of these accesses, and lets a STATUS read pass. -/
theorem undefinedAccessesAreRefused : Obligations.UndefinedAccessesAreRefused := by
  refine fun s addr size d => ⟨fun h => ?_, fun ha hb => ?_⟩
  · have hout : ¬ insideInterface addr size = true := by
      rw [insideInterface_iff]
      tauto
    exact ⟨guardAccess_outside hout, guardAccess_outside hout⟩
  · have hi : insideInterface addr 8 = true := insideInterface_iff.2 ⟨rfl, ha⟩
    refine ⟨guardAccess_busy hi hb rfl, fun hne => guardAccess_busy hi hb ?_, _, perform_read_status s⟩
    exact decide_eq_false fun hloc => hne (BitVec.eq_of_toNat_eq (locate_eq_status.1 hloc))

/-! ### The address map -/

section Addresses

variable {p : Params} {a k : Nat}

/-- A buffer ends after its last entry (R52). -/
theorem bufferSlot_reserved {base entries : Nat} {mk : Nat → Location} (h : base + 16 * entries ≤ a) :
    bufferSlot base entries a mk = .reserved :=
  if_neg (by omega)

theorem locate_register (p : Params) (h : a < 0x100000) : locate p (BitVec.ofNat 22 a) = registerAt a := by
  simp only [locate, toNat_addr (show a < 0x400000 by omega)]
  rw [if_pos h]

theorem locate_inbufArea (h : 0x100000 ≤ a ∧ a < 0x200000) :
    locate p (BitVec.ofNat 22 a) = bufferSlot 0x100000 p.nmax a .inbuf := by
  simp only [locate, toNat_addr (show a < 0x400000 by omega)]
  rw [if_neg (by omega), if_pos (by omega)]

theorem locate_outbufArea (h : 0x200000 ≤ a ∧ a < 0x300000) :
    locate p (BitVec.ofNat 22 a) = bufferSlot 0x200000 p.nmax a .outbuf := by
  simp only [locate, toNat_addr (show a < 0x400000 by omega)]
  rw [if_neg (by omega), if_neg (by omega), if_pos (by omega)]

theorem locate_specArea (h : 0x300000 ≤ a ∧ a < 0x400000) :
    locate p (BitVec.ofNat 22 a) = bufferSlot 0x300000 (p.nmax / 2) a .spec := by
  simp only [locate, toNat_addr h.2]
  rw [if_neg (by omega), if_neg (by omega), if_neg (by omega)]

theorem locate_spec (hp : p.wf) (hk : k < 2 * (p.nmax / 2)) :
    locate p (BitVec.ofNat 22 (0x300000 + 8 * k)) = .spec k := by
  have hle := Params.nmax_le hp
  rw [locate_specArea (by omega), bufferSlot_eq hk]

/-- The tags VTAG0 to VTAG15 stand one after another (R51). -/
theorem registerAt_vtag (r : Reg) : registerAt (0x000180 + 8 * r.val) = .vtag r := by
  revert r
  decide

theorem locate_vtag (p : Params) (r : Reg) :
    locate p (BitVec.ofNat 22 (0x000180 + 8 * r.val)) = .vtag r := by
  rw [locate_register p (by omega), registerAt_vtag]

/-- Between RES2 and V0, and past VTAG15, no register stands (R51). -/
theorem registerAt_reserved (h : (0x000030 ≤ a ∧ a < 0x000100) ∨ 0x000200 ≤ a) :
    registerAt a = .reserved := by
  rw [registerAt, if_neg (by omega), if_neg (by omega), if_neg (by omega), if_neg (by omega),
    if_neg (by omega), if_neg (by omega)]
  split_ifs
  · rfl
  · omega
  · omega
  · rfl

/-- The addresses of the window that name nothing (R51, R52). -/
theorem locate_gap (h : (0x000030 ≤ a ∧ a < 0x000100) ∨ (0x000200 ≤ a ∧ a < 0x100000) ∨
      (0x100000 + 16 * p.nmax ≤ a ∧ a < 0x200000) ∨ (0x200000 + 16 * p.nmax ≤ a ∧ a < 0x300000) ∨
      (0x300000 + 16 * (p.nmax / 2) ≤ a ∧ a < 0x400000)) :
    locate p (BitVec.ofNat 22 a) = .reserved := by
  obtain h | h | h | h | h := h
  · rw [locate_register p (by omega), registerAt_reserved (.inl h)]
  · rw [locate_register p h.2, registerAt_reserved (.inr h.1)]
  · rw [locate_inbufArea (by omega), bufferSlot_reserved h.1]
  · rw [locate_outbufArea (by omega), bufferSlot_reserved h.1]
  · rw [locate_specArea (by omega), bufferSlot_reserved h.1]

end Addresses

/-- Settles O50: the registers, the slots of the three buffers, and the gaps between them. -/
theorem addressMap : Obligations.AddressMap := by
  intro p hp at_
  have inbuf (k a : Nat) (hk : k < 2 * p.nmax) (ha : 0x100000 + 8 * k = a) : at_ a = .inbuf k :=
    ha ▸ locate_inbuf hp hk
  have outbuf (k a : Nat) (hk : k < 2 * p.nmax) (ha : 0x200000 + 8 * k = a) : at_ a = .outbuf k :=
    ha ▸ locate_outbuf hp hk
  have spec (k a : Nat) (hk : k < 2 * (p.nmax / 2)) (ha : 0x300000 + 8 * k = a) : at_ a = .spec k :=
    ha ▸ locate_spec hp hk
  refine ⟨⟨rfl, rfl, rfl, rfl, rfl, rfl⟩, fun r => ⟨locate_v p r, locate_vtag p r⟩, fun j hj =>
    ⟨inbuf _ _ ?_ ?_, inbuf _ _ ?_ ?_, outbuf _ _ ?_ ?_, outbuf _ _ ?_ ?_⟩, fun j hj =>
    ⟨spec _ _ ?_ ?_, spec _ _ ?_ ?_⟩, fun a _ => locate_gap⟩
  all_goals
    simp only [reSlot, imSlot]
    omega

/-! ### What a location holds, and what a read of it returns -/

/-- The location `loc` is a tagged word of the core, with the content `x` (R28). -/
def State.TaggedAt (s : State) (loc : Location) (x : Option TWord) : Prop :=
  (∃ r, loc = .v r ∧ s.reg r = x) ∨ (∃ k, loc = .inbuf k ∧ s.inbuf.get k = x) ∨
    ∃ k, loc = .outbuf k ∧ s.outbuf.get k = x

theorem State.TaggedAt.readLocation {s : State} {loc : Location} {x : Option TWord}
    (h : s.TaggedAt loc x) : s.readLocation loc = readTagged x := by
  obtain ⟨r, rfl, rfl⟩ | ⟨k, rfl, rfl⟩ | ⟨k, rfl, rfl⟩ := h <;> rfl

theorem readLocation_invalid_spec {s : State} {loc : Location}
    (h : ∃ k, loc = .spec k ∧ s.spec.get k = none) : s.readLocation loc = .unspecified := by
  obtain ⟨k, rfl, hk⟩ := h
  rw [State.readLocation, hk, readSpec]

/-- Settles O58: an EMPTY or invalid word is unspecified, and a written word is known. -/
theorem emptyReadsDrawFreeValues : Obligations.EmptyReadsDrawFreeValues := by
  refine fun s addr hi hb => ⟨_, perform_read hi hb, fun h => ?_, fun w h => ?_⟩
  · have hread : s.readLocation (locate s.params addr) = .unspecified := by
      obtain h | h | h | h := h
      · exact State.TaggedAt.readLocation (.inl h)
      · exact State.TaggedAt.readLocation (.inr (.inl h))
      · exact State.TaggedAt.readLocation (.inr (.inr h))
      · exact readLocation_invalid_spec h
    rw [hread]
    exact ⟨rfl, rfl⟩
  · rw [State.TaggedAt.readLocation h]
    exact ⟨rfl, rfl⟩

/-! ### What a write keeps and stores -/

/-- A write to a location other than CMD keeps the parameters, CFG, BUSY and the host's side (R27, R54,
R186). -/
theorem writeLocation_frame (s : State) (d : Word) (loc : Location) :
    (s.writeLocation d loc).params = s.params ∧ (s.writeLocation d loc).cfg = s.cfg ∧
      (s.writeLocation d loc).status.busy = s.status.busy ∧ (s.writeLocation d loc).host = s.host := by
  cases loc with
  | v | inbuf | outbuf =>
    simp only [writeLocation_v, writeLocation_inbuf, writeLocation_outbuf, dataWrite_eq]
    split <;> exact ⟨rfl, rfl, rfl, rfl⟩
  | status =>
    rw [writeLocation_status]
    split <;> exact ⟨rfl, rfl, rfl, rfl⟩
  | cmd | cfg | res0 | res1 | res2 | vtag | spec | reserved => exact ⟨rfl, rfl, rfl, rfl⟩

/-- With CFG valid, a host data write leaves its word in the location (R186). -/
theorem writeLocation_taggedAt {s : State} {loc : Location} (hv : s.cfg.valid = true)
    (h : (∃ r, loc = .v r) ∨ (∃ k, loc = .inbuf k) ∨ ∃ k, loc = .outbuf k) (d : Word) :
    (s.writeLocation d loc).TaggedAt loc (some (dataWord s.cfg d)) := by
  obtain ⟨r, rfl⟩ | ⟨k, rfl⟩ | ⟨k, rfl⟩ := h
  · rw [writeLocation_v, dataWrite_eq, if_pos hv]
    exact .inl ⟨r, rfl, State.reg_setReg_same s r _⟩
  · rw [writeLocation_inbuf, dataWrite_eq, if_pos hv]
    exact .inr (.inl ⟨k, rfl, (Memory.get_put_some s.inbuf k k _).trans (if_pos rfl)⟩)
  · rw [writeLocation_outbuf, dataWrite_eq, if_pos hv]
    exact .inr (.inr ⟨k, rfl, (Memory.get_put_some s.outbuf k k _).trans (if_pos rfl)⟩)

/-- Settles O53: the word that the write leaves in its location is the one that the read finds there. -/
theorem writeThenReadReturnsIt : Obligations.WriteThenReadReturnsIt := by
  intro s addr d hi hb hv hloc
  obtain ⟨hp, -, hb', hh⟩ := writeLocation_frame s d (locate s.params addr)
  have hread := (writeLocation_taggedAt hv hloc d).readLocation
  have hc : locate s.params addr ≠ .cmd := by
    obtain ⟨_, e⟩ | ⟨_, e⟩ | ⟨_, e⟩ := hloc <;> rw [e] <;> nofun
  refine ⟨_, _, perform_write hi hb hc, perform_read hi (hb'.trans hb), ?_⟩
  rw [hp, hread, ← hh, ← dataWord_raw]
  rfl

/-! ### Repeated writes -/

theorem storeCell_storeCell_some {α : Type} (l : List (Nat × α)) (k : Nat) (a : α) :
    storeCell (storeCell l k (some a)) k (some a) = storeCell l k (some a) := by
  induction l with
  | nil => simp [storeCell, oneCell]
  | cons c l ih =>
    obtain ⟨k', b⟩ := c
    obtain hlt | rfl | hgt := Nat.lt_trichotomy k k'
    · simp [storeCell, oneCell, hlt]
    · simp [storeCell, oneCell]
    · simp [storeCell, Nat.not_lt_of_gt hgt, hgt.ne', ih]

theorem Memory.put_put_some {α : Type} (m : Memory α) (k : Nat) (a : α) :
    (m.put k (some a)).put k (some a) = m.put k (some a) := by
  simp only [Memory.put, storeCell_storeCell_some]

theorem State.raise_raise (s : State) (e : ErrCode) : (s.raise e).raise e = s.raise e := by
  simp only [State.raise]
  congr 2
  split_ifs <;> rfl

/-- A host data write whose storing is idempotent is idempotent, also where it fails. -/
theorem dataWrite_dataWrite {s : State} {store : State → TWord → State} (d : Word)
    (hcfg : ∀ w, (store s w).cfg = s.cfg)
    (hstore : ∀ w, store (store s w).succeed w = (store s w).succeed) :
    (s.dataWrite d (store s)).dataWrite d (store (s.dataWrite d (store s))) = s.dataWrite d (store s) := by
  rw [dataWrite_eq s]
  by_cases hv : s.cfg.valid = true
  · rw [if_pos hv, dataWrite_eq, State.succeed_cfg, hcfg, if_pos hv, hstore]
    rfl
  · rw [if_neg hv, dataWrite_eq, State.raise_cfg, if_neg hv, State.raise_raise]

theorem writeLocation_writeLocation (s : State) (d : Word) (loc : Location) :
    (s.writeLocation d loc).writeLocation d loc = s.writeLocation d loc := by
  cases loc with
  | v r =>
    refine dataWrite_dataWrite (store := fun s w => s.setReg r (some w)) d (fun _ => rfl) fun w => ?_
    simp only [State.setReg, State.succeed, Vector.set_set]
  | inbuf k =>
    refine dataWrite_dataWrite (store := fun s w => { s with inbuf := s.inbuf.put k (some w) }) d
      (fun _ => rfl) fun w => ?_
    simp only [State.succeed, Memory.put_put_some]
  | outbuf k =>
    refine dataWrite_dataWrite (store := fun s w => { s with outbuf := s.outbuf.put k (some w) }) d
      (fun _ => rfl) fun w => ?_
    simp only [State.succeed, Memory.put_put_some]
  | status =>
    simp only [writeLocation_status]
    split <;> rfl
  | cmd | cfg | res0 | res1 | res2 | vtag | spec | reserved => rfl

/-- Settles O54: a read only gives the host its value, and a write to a location is idempotent. -/
theorem readsAndRepeatedWritesAreIdempotent : Obligations.ReadsAndRepeatedWritesAreIdempotent := by
  refine ⟨fun s t addr size h => ?_, fun s t addr d hc h => ?_⟩
  · obtain ⟨-, -, h⟩ := guardAccess_eq_next.1 h
    cases h
    rw [State.hostRead]
    cases s.readLocation (locate s.params addr) <;> exact ⟨rfl, rfl⟩
  · obtain ⟨hi, hb, -⟩ := guardAccess_eq_next.1 h
    have hb : s.status.busy = false := hb.resolve_right nofun
    rw [perform_write hi hb hc] at h
    cases h
    obtain ⟨hp, -, hb', -⟩ := writeLocation_frame s d (locate s.params addr)
    rw [perform_write hi (hb'.trans hb) (by rwa [hp]), hp, writeLocation_writeLocation]

/-! ### Ignored writes -/

/-- A write that does nothing in its location does nothing at all (R54, R56). -/
theorem perform_write_ignored {s : State} {addr : Addr} {d : Word} {loc : Location}
    (hi : insideInterface addr 8 = true) (hb : s.status.busy = false) (hloc : locate s.params addr = loc)
    (hc : loc ≠ .cmd) (hw : s.writeLocation d loc = s) : perform s (.write addr 8 d) = .next s := by
  rw [perform_write hi hb (hloc ▸ hc), hloc, hw]

/-- Settles O56: these locations take no write, and a reserved one reads as a known 0. -/
theorem ignoredWrites : Obligations.IgnoredWrites := by
  refine fun s addr hi hb => ⟨fun d h => ?_, fun h => ⟨_, perform_read hi hb, ?_⟩⟩
  · obtain h | h | h | h | ⟨r, h⟩ | ⟨k, h⟩ | h := h <;> exact perform_write_ignored hi hb h nofun rfl
  · rw [h]
    exact ⟨rfl, rfl⟩

end Sys2Proof.Machine
end

section
/-! PROOFS. The encoding (O1 to O5): each format's fields and its word determine each other, so the encoder
and the decoder are inverse, and the decoder refuses exactly what R82 lists. -/

namespace Sys2Proof

/-! ### Fields and words -/

@[simp] theorem regBits_regField (c : CmdWord) (lo : Nat) : regBits (regField c lo) = bits c lo 4 := by
  simp [regBits, regField]

@[simp] theorem pairBits_pairField (c : CmdWord) (lo : Nat) : pairBits (pairField c lo) = bits c lo 3 := by
  simp [pairBits, pairField]

@[simp] theorem selBits_selField (c : CmdWord) : selBits (selField c) = bits c 22 1 := by
  rw [selField]
  split
  · simp_all [selBits]
  · exact ((BitVec.eq_zero_or_eq_one _).resolve_left ‹_›).symm

theorem regField_of_bits {c : CmdWord} {lo : Nat} {r : Reg} (h : bits c lo 4 = regBits r) :
    regField c lo = r := by
  simp [regField, h]

theorem pairField_of_bits {c : CmdWord} {lo : Nat} {p : PairNum} (h : bits c lo 3 = pairBits p) :
    pairField c lo = p := by
  simp [pairField, h]

theorem selField_of_bits {c : CmdWord} {b : BufSel} (h : bits c 22 1 = selBits b) : selField c = b := by
  rw [selField, h]
  cases b <;> rfl

/-- The bits of a field moved to where it stood. -/
theorem getLsbD_place_bits (c : CmdWord) (lo len i : Nat) :
    (place (bits c lo len) lo).getLsbD i = (decide (lo ≤ i ∧ i < lo + len) && c.getLsbD i) := by
  by_cases h : i < 32
  · by_cases hlo : lo ≤ i
    · have hlen : i - lo < len ↔ i < lo + len := by omega
      simp [place, bits, h, hlo, hlen]
    · simp [place, hlo, Nat.not_le.1 hlo]
  · rw [BitVec.getLsbD_of_ge _ _ (by omega), BitVec.getLsbD_of_ge _ _ (by omega), Bool.and_false]

/-- Two adjacent fields are one. -/
theorem place_bits_join (c : CmdWord) (lo n m : Nat) :
    place (bits c (lo + n) m) (lo + n) ||| place (bits c lo n) lo = place (bits c lo (n + m)) lo := by
  ext i hi
  simp only [← BitVec.getLsbD_eq_getElem, BitVec.getLsbD_or, getLsbD_place_bits]
  rw [← Bool.and_or_distrib_right, ← Bool.decide_or]
  congr 2
  simp only [eq_iff_iff]
  omega

theorem place_bits_all (c : CmdWord) : place (bits c 0 32) 0 = c := by
  ext i hi
  rw [← BitVec.getLsbD_eq_getElem, getLsbD_place_bits]
  simp [hi]

/-- A field that is 0 adds nothing to the word. -/
theorem place_bits_zero {c : CmdWord} {lo len : Nat} (h : bits c lo len = 0#len) :
    place (bits c lo len) lo = 0#32 := by
  simp [h, place]

theorem bits_eq_zero_iff (c : CmdWord) (lo len : Nat) :
    bits c lo len = 0#len ↔ ∀ i < len, c.getLsbD (lo + i) = false := by
  rw [BitVec.eq_of_getLsbD_eq_iff]
  refine forall₂_congr fun i hi => ?_
  simp [bits, hi]

/-- A field is 0 when its two parts are. -/
theorem bits_add_eq_zero_iff (c : CmdWord) (lo n m : Nat) :
    bits c lo (n + m) = 0#(n + m) ↔ bits c (lo + n) m = 0#m ∧ bits c lo n = 0#n := by
  simp only [bits_eq_zero_iff]
  refine ⟨fun h => ⟨fun i hi => Nat.add_assoc lo n i ▸ h (n + i) (by omega), fun i hi => h i (by omega)⟩,
    fun ⟨hm, hn⟩ i hi => ?_⟩
  obtain hlt | hge := Nat.lt_or_ge i n
  · exact hn i hlt
  · have := hm (i - n) (by omega)
    rwa [show lo + n + (i - n) = lo + i by omega] at this

/-- The must-be-0 bits of FXNEG: below its rb, and rb (R82). -/
theorem bits_fxneg_eq_zero (c : CmdWord) : bits c 0 18 = 0#18 ↔ bits c 0 14 = 0#14 ∧ bits c 14 4 = 0#4 :=
  (bits_add_eq_zero_iff c 0 14 4).trans and_comm

/-- The must-be-0 bits of STAGE: above its imm16, and imm16 (R82). -/
theorem bits_stage_eq_zero (c : CmdWord) : bits c 0 21 = 0#21 ↔ bits c 16 5 = 0#5 ∧ bits c 0 16 = 0#16 :=
  bits_add_eq_zero_iff c 0 16 5

/-- The must-be-0 bits of TWID: above its imm16, and its b (R82). -/
theorem bits_twid_eq_zero (c : CmdWord) : bits c 16 7 = 0#7 ↔ bits c 16 6 = 0#6 ∧ bits c 22 1 = 0#1 :=
  (bits_add_eq_zero_iff c 16 6 1).trans and_comm

/-! ### A word is built from its own fields

Adjacent fields join up to the whole word; where a format has must-be-0 bits, the joined word has them as
one more field, which is 0. -/

section Words

variable {c : CmdWord}

theorem wordZ_bits (h : bits c 0 26 = 0#26) : wordZ (bits c 26 6) = c := by
  have all := place_bits_join c 0 26 6
  rwa [place_bits_zero h, BitVec.or_zero, Nat.zero_add, place_bits_all] at all

theorem wordS_bits (c : CmdWord) : wordS (bits c 26 6) (bits c 21 5) (bits c 16 5) (bits c 0 16) = c := by
  simp only [wordS, BitVec.or_assoc]
  rw [place_bits_join c 0 16 5, place_bits_join c 0 21 5, place_bits_join c 0 26 6, place_bits_all]

theorem wordR_bits (h : bits c 0 14 = 0#14) :
    wordR (bits c 26 6) (bits c 22 4) (bits c 18 4) (bits c 14 4) = c := by
  have all : wordR (bits c 26 6) (bits c 22 4) (bits c 18 4) (bits c 14 4) ||| place (bits c 0 14) 0 = c := by
    simp only [wordR, BitVec.or_assoc]
    rw [place_bits_join c 0 14 4, place_bits_join c 0 18 4, place_bits_join c 0 22 4,
      place_bits_join c 0 26 6, place_bits_all]
  rwa [place_bits_zero h, BitVec.or_zero] at all

theorem wordC_bits (h : bits c 0 17 = 0#17) :
    wordC (bits c 26 6) (bits c 23 3) (bits c 20 3) (bits c 17 3) = c := by
  have all : wordC (bits c 26 6) (bits c 23 3) (bits c 20 3) (bits c 17 3) ||| place (bits c 0 17) 0 = c := by
    simp only [wordC, BitVec.or_assoc]
    rw [place_bits_join c 0 17 3, place_bits_join c 0 20 3, place_bits_join c 0 23 3,
      place_bits_join c 0 26 6, place_bits_all]
  rwa [place_bits_zero h, BitVec.or_zero] at all

theorem wordX_bits (h : bits c 16 5 = 0#5) : wordX (bits c 26 6) (bits c 21 5) (bits c 0 16) = c := by
  have all := wordS_bits c
  rwa [wordS, place_bits_zero h, BitVec.or_zero] at all

theorem wordP_bits (h : bits c 16 6 = 0#6) :
    wordP (bits c 26 6) (bits c 23 3) (bits c 22 1) (bits c 0 16) = c := by
  have low := place_bits_join c 0 16 6
  rw [place_bits_zero h, BitVec.zero_or] at low
  simp only [wordP, low, BitVec.or_assoc]
  rw [place_bits_join c 0 22 1, place_bits_join c 0 23 3, place_bits_join c 0 26 6, place_bits_all]

theorem wordM_bits (h : bits c 0 24 = 0#24) : wordM (bits c 26 6) (bits c 24 2) = c := by
  have all : wordM (bits c 26 6) (bits c 24 2) ||| place (bits c 0 24) 0 = c := by
    simp only [wordM, BitVec.or_assoc]
    rw [place_bits_join c 0 24 2, place_bits_join c 0 26 6, place_bits_all]
  rwa [place_bits_zero h, BitVec.or_zero] at all

end Words

/-! ### Decoding an encoded command -/

section DecodeFormat

variable (op : BitVec 6)

theorem zeroChecked_of_zero {c : CmdWord} {lo len : Nat} (h : bits c lo len = 0#len) (i : Instr) :
    zeroChecked c lo len i = .ok i := if_pos h

theorem decodeS_wordS (iw fw : BitVec 5) (n : BitVec 16) :
    decodeS (wordS op iw fw n) = .ok (.setcfg n iw fw) := by
  simp [decodeS]

theorem decodeR_wordR (mk : Reg → Reg → Reg → Instr) (rd ra rb : Reg) :
    decodeR (wordR op (regBits rd) (regBits ra) (regBits rb)) mk = .ok (mk rd ra rb) := by
  rw [decodeR, zeroChecked_of_zero (bits_wordR_zero ..), regField_of_bits (bits_wordR_rd ..),
    regField_of_bits (bits_wordR_ra ..), regField_of_bits (bits_wordR_rb ..)]

theorem decodeC_wordC (mk : PairNum → PairNum → PairNum → Instr) (p1 p2 p3 : PairNum) :
    decodeC (wordC op (pairBits p1) (pairBits p2) (pairBits p3)) mk = .ok (mk p1 p2 p3) := by
  rw [decodeC, zeroChecked_of_zero (bits_wordC_zero ..), pairField_of_bits (bits_wordC_p1 ..),
    pairField_of_bits (bits_wordC_p2 ..), pairField_of_bits (bits_wordC_p3 ..)]

theorem decodeX_wordX (mk : BitVec 5 → BitVec 16 → Instr) (a5 : BitVec 5) (imm : BitVec 16) :
    decodeX (wordX op a5 imm) mk = .ok (mk a5 imm) := by
  rw [decodeX, zeroChecked_of_zero (bits_wordX_zero ..), bits_wordX_a5, bits_wordX_imm]

theorem decodeP_wordP (mk : PairNum → BufSel → BitVec 16 → Instr) (p : PairNum) (b : BufSel)
    (imm : BitVec 16) : decodeP (wordP op (pairBits p) (selBits b) imm) mk = .ok (mk p b imm) := by
  rw [decodeP, zeroChecked_of_zero (bits_wordP_zero ..), pairField_of_bits (bits_wordP_p ..),
    selField_of_bits (bits_wordP_b ..), bits_wordP_imm]

theorem decodeM_wordM {mode : BitVec 2} (h : legalMode mode = true) :
    decodeM (wordM op mode) = .ok (.spectrum mode) := by
  simp [decodeM, h]

end DecodeFormat

theorem decodeWord_encode {i : Instr} (h : i.wellFormed = true) : decodeWord (encode i) = .ok i := by
  cases i with
  | nop | permute | fft =>
    rw [encode, decodeWord, bits_wordZ_op]
    exact zeroChecked_of_zero (bits_wordZ_zero _) _
  | setcfg n iw fw =>
    rw [encode, decodeWord, bits_wordS_op]
    exact decodeS_wordS _ iw fw n
  | fxadd rd ra rb | fxsub rd ra rb | fxmul rd ra rb | fxsubu rd ra rb | fxmulu rd ra rb =>
    rw [encode, decodeWord, bits_wordR_op]
    exact decodeR_wordR _ _ rd ra rb
  | fxneg rd ra =>
    rw [encode, decodeWord, bits_wordR_op]
    refine (zeroChecked_of_zero (bits_wordR_fxneg ..) _).trans ?_
    rw [regField_of_bits (bits_wordR_rd ..), regField_of_bits (bits_wordR_ra ..)]
  | cmul p1 p2 p3 | bfly p1 p2 p3 =>
    rw [encode, decodeWord, bits_wordC_op]
    exact decodeC_wordC _ _ p1 p2 p3
  | bitrev a imm | addrgen a imm =>
    rw [encode, decodeWord, bits_wordX_op]
    exact decodeX_wordX _ _ a imm
  | stage s =>
    rw [encode, decodeWord, bits_wordX_op]
    refine (zeroChecked_of_zero (bits_wordX_stage ..) _).trans ?_
    rw [bits_wordX_a5]
  | ldc p b j | stc p b j =>
    rw [encode, decodeWord, bits_wordP_op]
    exact decodeP_wordP _ _ p b j
  | twid p k =>
    rw [encode, decodeWord, bits_wordP_op]
    refine (zeroChecked_of_zero (bits_wordP_twid ..) _).trans ?_
    rw [pairField_of_bits (bits_wordP_p ..), bits_wordP_imm]
  | spectrum mode =>
    rw [encode, decodeWord, bits_wordM_op]
    exact decodeM_wordM _ h

/-! ### Encoding a decoded word -/

theorem zeroChecked_eq_ok {c : CmdWord} {lo len : Nat} {i j : Instr} :
    zeroChecked c lo len i = .ok j ↔ bits c lo len = 0#len ∧ i = j := by
  rw [zeroChecked]
  split <;> simp [*]

theorem decodeM_eq_ok {c : CmdWord} {i : Instr} :
    decodeM c = .ok i ↔
      bits c 0 24 = 0#24 ∧ legalMode (bits c 24 2) = true ∧ .spectrum (bits c 24 2) = i := by
  rw [decodeM]
  split_ifs <;> simp [*]

/-- An opcode given as a number (R71). -/
theorem bits_opcode_eq {c : CmdWord} {n : Nat} (h : (bits c 26 6).toNat = n) : bits c 26 6 = BitVec.ofNat 6 n := by
  simp [← h]

/-- Each arm's must-be-0 check leaves the word of the fields that the arm read. -/
theorem encode_of_decodeWord {c : CmdWord} {i : Instr} (h : decodeWord c = .ok i) :
    i.wellFormed = true ∧ encode i = c := by
  unfold decodeWord at h
  split at h
  -- NOP, PERMUTE, FFT
  case h_1 hop | h_16 hop | h_18 hop =>
    obtain ⟨hz, rfl⟩ := zeroChecked_eq_ok.1 h
    exact ⟨rfl, by rw [encode, ← bits_opcode_eq hop, wordZ_bits hz]⟩
  -- SETCFG
  case h_2 hop =>
    cases h
    exact ⟨rfl, by rw [encode, ← bits_opcode_eq hop, wordS_bits]⟩
  -- FXADD, FXSUB, FXMUL, FXSUBU, FXMULU
  case h_3 hop | h_4 hop | h_6 hop | h_7 hop | h_8 hop =>
    obtain ⟨hz, rfl⟩ := zeroChecked_eq_ok.1 h
    exact ⟨rfl, by simp only [encode, regBits_regField, ← bits_opcode_eq hop, wordR_bits hz]⟩
  -- FXNEG
  case h_5 hop =>
    obtain ⟨hz, rfl⟩ := zeroChecked_eq_ok.1 h
    obtain ⟨hz, hrb⟩ := (bits_fxneg_eq_zero c).1 hz
    exact ⟨rfl, by simp only [encode, regBits_regField, ← hrb, ← bits_opcode_eq hop, wordR_bits hz]⟩
  -- CMUL, BFLY
  case h_9 hop | h_10 hop =>
    obtain ⟨hz, rfl⟩ := zeroChecked_eq_ok.1 h
    exact ⟨rfl, by simp only [encode, pairBits_pairField, ← bits_opcode_eq hop, wordC_bits hz]⟩
  -- BITREV, ADDRGEN
  case h_11 hop | h_12 hop =>
    obtain ⟨hz, rfl⟩ := zeroChecked_eq_ok.1 h
    exact ⟨rfl, by rw [encode, ← bits_opcode_eq hop, wordX_bits hz]⟩
  -- TWID
  case h_13 hop =>
    obtain ⟨hz, rfl⟩ := zeroChecked_eq_ok.1 h
    obtain ⟨hz, hb⟩ := (bits_twid_eq_zero c).1 hz
    exact ⟨rfl, by rw [encode, pairBits_pairField, ← hb, ← bits_opcode_eq hop, wordP_bits hz]⟩
  -- LDC, STC
  case h_14 hop | h_15 hop =>
    obtain ⟨hz, rfl⟩ := zeroChecked_eq_ok.1 h
    exact ⟨rfl, by rw [encode, pairBits_pairField, selBits_selField, ← bits_opcode_eq hop, wordP_bits hz]⟩
  -- STAGE
  case h_17 hop =>
    obtain ⟨hz, rfl⟩ := zeroChecked_eq_ok.1 h
    obtain ⟨hz, himm⟩ := (bits_stage_eq_zero c).1 hz
    exact ⟨rfl, by rw [encode, ← himm, ← bits_opcode_eq hop, wordX_bits hz]⟩
  -- SPECTRUM
  case h_19 hop =>
    obtain ⟨hz, hmode, rfl⟩ := decodeM_eq_ok.1 h
    exact ⟨hmode, by rw [encode, ← bits_opcode_eq hop, wordM_bits hz]⟩
  -- the reserved opcodes
  case h_20 => cases h

/-! ### The datum of a CMD write -/

/-- A datum whose high half is 0 is its low half (R70). -/
theorem zeroExtend_low {d : Word} (h : d.extractLsb' 32 32 = 0#32) :
    (d.extractLsb' 0 32).zeroExtend 64 = d := by
  refine (BitVec.setWidth_eq_append (by decide)).trans ?_
  have halves : d.extractLsb' 32 32 ++ d.extractLsb' 0 32 = d := BitVec.extractLsb'_append_extractLsb'
  rwa [h] at halves

theorem decodeData_of_high_zero {d : Word} (h : d.extractLsb' 32 32 = 0#32) :
    decodeData d = decodeWord (d.extractLsb' 0 32) := if_pos h

theorem high_zero_of_decodeData {d : Word} {i : Instr} (h : decodeData d = .ok i) :
    d.extractLsb' 32 32 = 0#32 := by
  by_contra hhigh
  rw [decodeData, if_neg hhigh] at h
  cases h

/-! ### The illegal words -/

theorem zeroChecked_eq_error {c : CmdWord} {lo len : Nat} {i : Instr} :
    (∃ e, zeroChecked c lo len i = .error e) ↔ bits c lo len ≠ 0#len := by
  rw [zeroChecked]
  split <;> simp [*]

theorem decodeM_eq_error {c : CmdWord} :
    (∃ e, decodeM c = .error e) ↔ bits c 0 24 ≠ 0#24 ∨ bits c 24 2 = 3#2 := by
  rw [decodeM]
  split_ifs <;> simp_all [legalMode]

/-! ### The rows of the opcode map -/

/-- Every command's word matches the command's row (R80, R81). -/
theorem encode_fits_row (i : Instr) : Laws.EncodeFitsRow.Statement i := by
  cases i with
  | nop => exact Laws.EncodeFitsRow.nop
  | setcfg n iw fw => exact Laws.EncodeFitsRow.setcfg n iw fw
  | fxadd rd ra rb => exact Laws.EncodeFitsRow.fxadd rd ra rb
  | fxsub rd ra rb => exact Laws.EncodeFitsRow.fxsub rd ra rb
  | fxneg rd ra => exact Laws.EncodeFitsRow.fxneg rd ra
  | fxmul rd ra rb => exact Laws.EncodeFitsRow.fxmul rd ra rb
  | fxsubu rd ra rb => exact Laws.EncodeFitsRow.fxsubu rd ra rb
  | fxmulu rd ra rb => exact Laws.EncodeFitsRow.fxmulu rd ra rb
  | cmul p1 p2 p3 => exact Laws.EncodeFitsRow.cmul p1 p2 p3
  | bfly p1 p2 p3 => exact Laws.EncodeFitsRow.bfly p1 p2 p3
  | bitrev w j => exact Laws.EncodeFitsRow.bitrev w j
  | addrgen s i => exact Laws.EncodeFitsRow.addrgen s i
  | twid p k => exact Laws.EncodeFitsRow.twid p k
  | ldc p b j => exact Laws.EncodeFitsRow.ldc p b j
  | stc p b j => exact Laws.EncodeFitsRow.stc p b j
  | permute => exact Laws.EncodeFitsRow.permute
  | stage s => exact Laws.EncodeFitsRow.stage s
  | fft => exact Laws.EncodeFitsRow.fft
  | spectrum mode => exact Laws.EncodeFitsRow.spectrum mode

section Rows

variable {r : OpcodeRow} {c : CmdWord}

theorem OpcodeRow.matchesWord_iff : r.matchesWord c = true ↔ c &&& r.mask = r.value := beq_iff_eq

/-- A field that the row's mask covers has the row's value (R81). -/
theorem bits_of_matchesWord (hm : r.matchesWord c = true) {lo len : Nat}
    (hmask : bits r.mask lo len = BitVec.allOnes len) : bits c lo len = bits r.value lo len := by
  rw [← OpcodeRow.matchesWord_iff.1 hm, bits, bits, BitVec.extractLsb'_and]
  rw [bits] at hmask
  rw [hmask, BitVec.and_allOnes]

/-- Every mask holds the whole opcode (R80). -/
theorem mask_covers_opcode : ∀ r ∈ opcodeMap, bits r.mask 26 6 = BitVec.allOnes 6 := by decide

theorem opcodeMap_opcode_injective :
    ∀ r ∈ opcodeMap, ∀ r' ∈ opcodeMap, bits r.value 26 6 = bits r'.value 26 6 → r' = r := by decide

/-- No word matches two rows (R81). -/
theorem matching_row_unique (hr : r ∈ opcodeMap) (hm : r.matchesWord c = true) {r' : OpcodeRow}
    (hr' : r' ∈ opcodeMap) (hm' : r'.matchesWord c = true) : r' = r := by
  refine opcodeMap_opcode_injective r hr r' hr' ?_
  rw [← bits_of_matchesWord hm (mask_covers_opcode r hr), bits_of_matchesWord hm' (mask_covers_opcode r' hr')]

/-- SPECTRUM's value check passes for a command the decoder can give (R82). -/
theorem valuesLegal_encode {i : Instr} (hi : i.wellFormed = true) (hr : r.mnemonic = i.mnemonic) :
    r.valuesLegal (encode i) = true := by
  rw [OpcodeRow.valuesLegal, hr]
  cases i with
  | spectrum mode => simpa [encode, Instr.mnemonic, Instr.wellFormed] using hi
  | _ => rfl

/-- A word that passes a row decodes (R81). -/
theorem decodeWord_of_row (hr : r ∈ opcodeMap) (hm : r.matchesWord c = true) (hv : r.valuesLegal c = true) :
    ∃ i, decodeWord c = .ok i := by
  have hop := bits_of_matchesWord hm (mask_covers_opcode r hr)
  have zero {lo len : Nat} (hmask : bits r.mask lo len = BitVec.allOnes len) := bits_of_matchesWord hm hmask
  rw [decodeWord, hop]
  simp only [opcodeMap, List.mem_cons, List.not_mem_nil, or_false] at hr
  rcases hr with rfl | rfl | rfl | rfl | rfl | rfl | rfl | rfl | rfl | rfl | rfl | rfl | rfl | rfl | rfl |
    rfl | rfl | rfl | rfl
  -- all but SETCFG, which has no must-be-0 bits, and SPECTRUM
  any_goals exact ⟨_, zeroChecked_of_zero (zero rfl) _⟩
  · exact ⟨_, rfl⟩
  · exact ⟨_, decodeM_eq_ok.2 ⟨zero rfl, hv, rfl⟩⟩

end Rows

end Sys2Proof

namespace Sys2Proof.Machine

/-- Settles O2: each format's fields read back from its word, and a command's datum decodes as its word. -/
theorem decodeOfEncodeIsIdentity : Obligations.DecodeOfEncodeIsIdentity := fun _ h =>
  ⟨decodeWord_encode h, (decodeData_zeroExtend _).trans (decodeWord_encode h)⟩

/-- Settles O3: a word that decodes is built from the fields read, and a datum is its low half. -/
theorem decodedWordsReencode : Obligations.DecodedWordsReencode := by
  refine ⟨fun _ _ => encode_of_decodeWord, fun d i h => ?_⟩
  have hhigh := high_zero_of_decodeData h
  obtain ⟨hi, hword⟩ := encode_of_decodeWord (decodeData_of_high_zero hhigh ▸ h)
  exact ⟨hi, by rw [encodeData, hword, zeroExtend_low hhigh]⟩

/-- Settles O4: a word that decodes is its command's word, which fits the command's row; a refused word
passes no row, since a word that passes one decodes. -/
theorem everyWordMatchesOneRowOrIsIllegal : Obligations.EveryWordMatchesOneRowOrIsIllegal := by
  intro c
  cases hd : decodeWord c with
  | ok i =>
    obtain ⟨hi, rfl⟩ := encode_of_decodeWord hd
    obtain ⟨r, hr, hname, hm⟩ := encode_fits_row i
    exact .inl ⟨r, hr, hm, valuesLegal_encode hi hname, fun _ => matching_row_unique hr hm, i, rfl,
      hname.symm⟩
  | error e =>
    refine .inr ⟨fun r hr ⟨hm, hv⟩ => ?_, fun s =>
      ⟨_, issue_of_error ((decodeData_zeroExtend c).trans hd), rfl, rfl⟩⟩
    obtain ⟨i, hi⟩ := decodeWord_of_row hr hm hv
    exact nomatch hd.symm.trans hi

/-- Settles O5: the decoder's arms refuse for the clauses of their opcode, and its last arm for the reserved
opcodes. -/
theorem illegalWordsReportIllegalCommand : Obligations.IllegalWordsReportIllegalCommand := by
  intro d c op illegal
  have refused : (∃ e, decodeData d = .error e) ↔ illegal := by
    by_cases hhigh : d.extractLsb' 32 32 = 0#32
    · rw [decodeData_of_high_zero hhigh]
      change (∃ e, decodeWord c = .error e) ↔ _
      unfold decodeWord
      split
      -- the opcodes with one must-be-0 field
      case h_1 hop | h_3 hop | h_4 hop | h_6 hop | h_7 hop | h_8 hop | h_9 hop | h_10 hop | h_11 hop |
          h_12 hop | h_14 hop | h_15 hop | h_16 hop | h_18 hop =>
        exact zeroChecked_eq_error.trans (by simp [illegal, hhigh, op, hop])
      -- SETCFG
      case h_2 hop => simp [illegal, hhigh, op, hop, decodeS]
      -- FXNEG, TWID and STAGE, whose must-be-0 bits are two fields of R82
      case h_5 hop | h_13 hop | h_17 hop =>
        refine zeroChecked_eq_error.trans ?_
        simp [illegal, hhigh, op, hop, bits_fxneg_eq_zero, bits_twid_eq_zero, bits_stage_eq_zero,
          imp_iff_not_or]
      -- SPECTRUM
      case h_19 hop => exact decodeM_eq_error.trans (by simp [illegal, hhigh, op, hop])
      -- the reserved opcodes: no listed one, so in one of the six ranges
      case h_20 =>
        refine iff_of_true ⟨_, rfl⟩ ?_
        have hlt : op < 64 := (bits c 26 6).isLt
        by_contra hlegal
        simp only [illegal, not_or] at hlegal
        obtain ⟨-, h08, h12, h1B, h22, h2B, h31, -⟩ := hlegal
        simp only [imp_false, op] at *
        omega
    · simp [illegal, decodeData, hhigh]
  refine ⟨refused, fun h s => ?_⟩
  obtain ⟨e, he⟩ := refused.2 h
  exact issue_of_error he

/-- Settles O1: the encoder writes each word of the table for a well-formed command, which it decodes to. -/
theorem encodingExamplesDecode : Obligations.EncodingExamplesDecode := by
  intro p hp
  have ⟨hword, hwf⟩ : encode p.1 = p.2 ∧ p.1.wellFormed = true := by
    revert p
    decide
  exact ⟨hword, hword ▸ decodeWord_encode hwf⟩

end Sys2Proof.Machine
end

section
/-! PROOFS. Bit reversal (O34, O37), TWID (O36), and the ROM as the quantiser of the real cosine and minus
sine, with its exact entries (O39, O40). -/

namespace Sys2Proof.Machine

/-! ### Bit reversal -/

/-- Reversing twice puts every bit back (R91). -/
theorem rev_rev {w j : Nat} (h : j < 2 ^ w) : rev w (rev w j) = j := by
  refine Nat.eq_of_testBit_eq fun b => ?_
  simp only [testBit_rev]
  by_cases hb : b < w
  · rw [Nat.sub_sub_self (by omega : b ≤ w - 1)]
    simp [hb, show w - 1 - b < w by omega]
  · have hj : j < 2 ^ b := h.trans_le (Nat.pow_le_pow_right (by norm_num) (not_lt.1 hb))
    simp [hb, Nat.testBit_lt_two_pow hj]

/-- Settles O37: the reversed index is the one index that is reversed to the given one. -/
theorem bitReversalIsInvolution : Obligations.BitReversalIsInvolution := fun w j h =>
  ⟨rev_lt w j, rev_rev h, rev w j, ⟨rev_lt w j, rev_rev h⟩, fun _ ⟨hi, e⟩ => e ▸ (rev_rev hi).symm⟩

/-! ### BITREV and TWID -/

/-- Settles O34: both checks pass, and each bit of the result is a bit of the reversed index. -/
theorem bitrevResult : Obligations.BitrevResult := by
  intro s w j hw hw16 hj
  have hexec : exec (.bitrev w j) s =
      .next { s with res0 := BitVec.ofNat 64 (rev w.toNat j.toNat) }.succeed := by
    simp [exec, execBitrev, hw, hw16, hj]
  refine ⟨_, hexec, fun b => ?_, rfl⟩
  rw [State.succeed_res0, BitVec.getLsbD_ofNat, testBit_rev, BitVec.testBit_toNat]
  by_cases hb : b < w.toNat
  · simp [show b < 64 by omega]
  · simp [hb]

theorem wroteRegs_setPairRaw_succeed (s : State) (p : PairNum) (t : Tag) (c : Cx) :
    wroteRegs s (s.setPairRaw p t c).succeed [reReg p, imReg p] := by
  refine ⟨fun r hr => ?_, rfl⟩
  obtain ⟨hre, him⟩ : r ≠ reReg p ∧ r ≠ imReg p := by simpa using hr
  exact reg_setPairRaw_other s t c hre him

/-- Settles O36: both checks pass, and the write of a pair leaves the other registers. -/
theorem twidResult : Obligations.TwidResult := by
  intro s p k hv hk
  have hexec : exec (.twid p k) s =
      .next (s.setPairRaw p s.cfg.tag (rom s.params.twq s.cfg.tag s.cfg.stages k.toNat)).succeed := by
    simp [exec, execTwid, State.config, hv, hk]
  exact ⟨_, hexec, wroteRegs_setPairRaw_succeed _ _ _ _, reg_setPairRaw_re _ _ _ _,
    reg_setPairRaw_im _ _ _ _⟩

open Real

/-! ### The quantiser -/

theorem floor_roundingShift (q : Twq) : ⌊roundingShift q⌋ = 0 := by
  cases q <;> norm_num [roundingShift]

/-- The quantiser of a number that is not negative: the floor of its shifted magnitude (R162). -/
theorem quantise_of_nonneg (q : Twq) (t : Tag) {v : ℝ} (hv : 0 ≤ v) :
    quantise q t v = wrap t.width ⌊v * 2 ^ t.frac + roundingShift q⌋ := by
  cases q <;> simp [quantise, roundingShift, hv, abs_of_nonneg hv]

/-- The quantiser of the negative of such a number; it is the same at 0, whose floor is 0 (R162). -/
theorem quantise_neg_of_nonneg (q : Twq) (t : Tag) {v : ℝ} (hv : 0 ≤ v) :
    quantise q t (-v) = wrap t.width (-⌊v * 2 ^ t.frac + roundingShift q⌋) := by
  obtain rfl | hpos := hv.eq_or_lt
  · rw [neg_zero, quantise_of_nonneg q t le_rfl]
    simp [floor_roundingShift]
  · have hneg : ¬ v ≤ 0 := not_le.2 hpos
    cases q <;> simp [quantise, roundingShift, hneg, abs_of_pos hpos]

theorem quantise_zero (q : Twq) (t : Tag) : quantise q t (0 : ℝ) = 0#64 := by
  simp [quantise_of_nonneg, floor_roundingShift, wrap]

theorem floor_unit_shifted (q : Twq) (f : Nat) :
    ⌊(1 : ℝ) * 2 ^ f + roundingShift q⌋ = ((2 ^ f : Nat) : Int) := by
  have hcast : (1 : ℝ) * 2 ^ f = ((2 ^ f : Nat) : Int) := by push_cast; ring
  rw [hcast, Int.floor_intCast_add, floor_roundingShift, add_zero]

theorem quantise_one (q : Twq) (t : Tag) :
    quantise q t (1 : ℝ) = wrap t.width ((2 ^ t.frac : Nat) : Int) := by
  rw [quantise_of_nonneg q t zero_le_one, floor_unit_shifted]

theorem quantise_neg_one (q : Twq) (t : Tag) :
    quantise q t (-1 : ℝ) = wrap t.width (-((2 ^ t.frac : Nat) : Int)) := by
  rw [quantise_neg_of_nonneg q t zero_le_one, floor_unit_shifted]

/-! ### The angles of the ROM -/

theorem cos_angle_nonneg {L k : Nat} (h : 4 * k ≤ 2 ^ L) : 0 ≤ cos (angle L k) :=
  cos_nonneg_of_neg_pi_div_two_le_of_le (by linarith [angle_nonneg L k, pi_pos]) (angle_le_half_pi h)

theorem quantise_cos_angle (q : Twq) (t : Tag) {L k : Nat} (h : 4 * k ≤ 2 ^ L) :
    quantise q t (cos (angle L k)) = wrap t.width (cosMagnitude q t.frac L k) := by
  rw [quantise_of_nonneg q t (cos_angle_nonneg h), cosMagnitude_spec q t.frac L k h]

theorem quantise_neg_cos_angle (q : Twq) (t : Tag) {L k : Nat} (h : 4 * k ≤ 2 ^ L) :
    quantise q t (-cos (angle L k)) = wrap t.width (-(cosMagnitude q t.frac L k)) := by
  rw [quantise_neg_of_nonneg q t (cos_angle_nonneg h), cosMagnitude_spec q t.frac L k h]

theorem angle_add (L a b : Nat) : angle L (a + b) = angle L a + angle L b := by
  simp only [angle, Nat.cast_add]
  ring

/-- The angle in half steps. -/
theorem angle_half_steps (L k : Nat) : angle (L + 1) (2 * k) = angle L k := by
  rw [angle_succ L k, two_mul, two_mul, angle_add]

theorem angle_half_turn (L : Nat) : angle (L + 1) (2 ^ L) = π := by
  rw [angle, pow_succ]
  push_cast
  field_simp

theorem angle_quarter_turn (L : Nat) : angle (L + 2) (2 ^ L) = π / 2 := by
  rw [← angle_half_turn L, angle_succ (L + 1)]
  ring

/-- Past the quarter turn the cosine is the negative of the mirrored angle's. -/
theorem cos_angle_mirror {L k : Nat} (h : k ≤ 2 ^ L) :
    cos (angle (L + 1) k) = -cos (angle (L + 1) (2 ^ L - k)) := by
  rw [← cos_pi_sub, ← angle_half_turn L]
  congr 1
  linarith [angle_add (L + 1) (2 ^ L - k) k, congrArg (angle (L + 1)) (Nat.sub_add_cancel h)]

/-- The sine is the cosine of the distance, in half steps, from the quarter turn. -/
theorem sin_angle_of_sum {L k d : Nat} (h : d + 2 * k = 2 ^ L ∨ d + 2 ^ L = 2 * k) :
    sin (angle (L + 1) k) = cos (angle (L + 2) d) := by
  have hk : angle (L + 2) (2 * k) = angle (L + 1) k := angle_half_steps _ _
  have hquarter := angle_quarter_turn L
  obtain h | h := h
  · have hsum : angle (L + 2) d + angle (L + 1) k = π / 2 := by rw [← hquarter, ← h, angle_add, hk]
    rw [← cos_pi_div_two_sub, ← hsum, add_sub_cancel_right]
  · have hsum : angle (L + 2) d + π / 2 = angle (L + 1) k := by rw [← hk, ← h, angle_add, hquarter]
    rw [← cos_sub_pi_div_two, ← hsum, add_sub_cancel_right]

/-! ### The ROM -/

theorem two_pow_succ_half (L : Nat) : 2 ^ (L + 1) / 2 = 2 ^ L := by
  rw [pow_succ, Nat.mul_div_cancel _ two_pos]

theorem romRe_eq_quantise (q : Twq) (t : Tag) {L k : Nat} (hk : k < 2 ^ L) :
    romRe q t (L + 1) k = quantise q t (cos (angle (L + 1) k)) := by
  have hpow : 2 ^ (L + 1) = 2 * 2 ^ L := pow_succ' 2 L
  rw [romRe, two_pow_succ_half]
  split_ifs with h
  · exact (quantise_cos_angle q t h).symm
  · rw [cos_angle_mirror hk.le, quantise_neg_cos_angle q t (by omega)]

theorem romIm_eq_quantise (q : Twq) (t : Tag) {L k : Nat} (hk : k < 2 ^ L) :
    romIm q t (L + 1) k = quantise q t (-sin (angle (L + 1) k)) := by
  have hpow : 2 ^ (L + 1) = 2 * 2 ^ L := pow_succ' 2 L
  have hpow2 : 2 ^ (L + 2) = 2 * 2 ^ (L + 1) := pow_succ' 2 (L + 1)
  rw [romIm, two_pow_succ_half]
  split_ifs with h
  · rw [sin_angle_of_sum (d := 2 ^ L - 2 * k) (.inl (by omega)), quantise_neg_cos_angle q t (by omega)]
  · rw [sin_angle_of_sum (d := 2 * k - 2 ^ L) (.inr (by omega)), quantise_neg_cos_angle q t (by omega)]

/-- The ROM of size N = 2^(L+1), by the angle of its index. -/
theorem rom_eq_quantise (q : Twq) (t : Tag) {L k : Nat} (hk : k < 2 ^ L) :
    rom q t (L + 1) k =
      { re := quantise q t (cos (angle (L + 1) k)), im := quantise q t (-sin (angle (L + 1) k)) } := by
  rw [rom, romRe_eq_quantise q t hk, romIm_eq_quantise q t hk]

/-- Settles O39: each quadrant's magnitude is the quantised cosine of an angle up to the quarter turn, mirrored
and signed. -/
theorem romQuantisesExactCosAndSin : Obligations.RomQuantisesExactCosAndSin := by
  intro q t L k hL hk
  obtain ⟨L, rfl⟩ := Nat.exists_eq_add_of_le' hL
  exact rom_eq_quantise q t (two_pow_succ_half L ▸ hk)

/-- At I = 1 the pattern of 2^F is that of -2^F (R99). -/
theorem valueS_wrap_one {t : Tag} (ht : t.iw = 1#5) :
    valueS t (wrap t.width ((2 ^ t.frac : Nat) : Int)) = -1 := by
  have hwidth : t.width = t.frac + 1 := by simp [Tag.width, Tag.frac, ht, add_comm]
  have hpos := pow_cast_pos t.frac
  have hwrap : wrap t.width ((2 ^ t.frac : Nat) : Int) = wrap t.width (-((2 ^ t.frac : Nat) : Int)) := by
    refine wrap_congr (Int.emod_eq_emod_iff_emod_sub_eq_zero.2 ?_)
    rw [hwidth, pow_succ]
    push_cast
    exact Int.emod_eq_zero_of_dvd ⟨1, by ring⟩
  have hsint : sint t.width (wrap t.width ((2 ^ t.frac : Nat) : Int)) = -((2 ^ t.frac : Nat) : Int) := by
    rw [hwrap]
    have hbound : t.width - 1 = t.frac := by omega
    exact sint_wrap (by omega) (t.width_le.trans (by norm_num)) (by rw [hbound]) (by rw [hbound]; omega)
  rw [valueS, hsint]
  push_cast
  field_simp

theorem rom_zero (q : Twq) (t : Tag) (L : Nat) :
    rom q t (L + 1) 0 = { re := wrap t.width ((2 ^ t.frac : Nat) : Int), im := 0#64 } := by
  have hangle : angle (L + 1) 0 = 0 := by simp [angle]
  rw [rom_eq_quantise q t (Nat.two_pow_pos L), hangle, cos_zero, sin_zero, neg_zero, quantise_one,
    quantise_zero]

theorem rom_quarter (q : Twq) (t : Tag) (L : Nat) :
    rom q t (L + 2) (2 ^ L) = { re := 0#64, im := wrap t.width (-((2 ^ t.frac : Nat) : Int)) } := by
  have hlt : 2 ^ L < 2 ^ (L + 1) := Nat.pow_lt_pow_succ one_lt_two
  rw [rom_eq_quantise q t hlt, angle_quarter_turn, cos_pi_div_two, sin_pi_div_two, quantise_zero,
    quantise_neg_one]

/-- Settles O40: at index 0 the cosine is 1 and the sine 0, and at index N/4 the other way round. -/
theorem romExactEntries : Obligations.RomExactEntries := by
  intro q t L hL
  obtain ⟨L, rfl⟩ := Nat.exists_eq_add_of_le' hL
  refine ⟨rom_zero q t L, fun hL2 => ?_, fun ht => by rw [rom_zero, valueS_wrap_one ht]⟩
  obtain ⟨L, rfl⟩ := Nat.exists_eq_add_of_le' (Nat.le_of_succ_le_succ hL2)
  have hpow : 2 ^ (L + 2) / 4 = 2 ^ L := by
    rw [pow_add]
    omega
  rw [hpow]
  exact rom_quarter q t L

end Sys2Proof.Machine
end

section
/-! PROOFS. The reference transform is the discrete Fourier transform (O47): by decimation in time, each
stage joins the transforms of the even and of the odd elements. -/

namespace Sys2Proof.Machine

/-! ### The ideal twiddle factors -/

theorem idealTwiddle_add (L a b : Nat) : idealTwiddle L (a + b) = idealTwiddle L a * idealTwiddle L b := by
  rw [idealTwiddle, idealTwiddle, idealTwiddle, ← Complex.exp_add]
  congr 1
  push_cast
  ring

/-- A factor of size 2^s is one of every larger size. -/
theorem idealTwiddle_scale (s d a : Nat) : idealTwiddle (s + d) (a * 2 ^ d) = idealTwiddle s a := by
  rw [idealTwiddle, idealTwiddle]
  congr 2
  push_cast
  rw [pow_add]
  field_simp

/-- Whole turns. -/
theorem idealTwiddle_turns (L a : Nat) : idealTwiddle L (a * 2 ^ L) = 1 := by
  have h := idealTwiddle_scale 0 L a
  rw [zero_add] at h
  rw [h, idealTwiddle, Complex.exp_eq_one_iff]
  exact ⟨-a, by push_cast; ring⟩

/-- Half a turn. -/
theorem idealTwiddle_half (s : Nat) : idealTwiddle (s + 1) (2 ^ s) = -1 := by
  have h := idealTwiddle_scale 1 s 1
  rw [one_mul, add_comm] at h
  rw [h, idealTwiddle, ← Complex.exp_neg_pi_mul_I]
  congr 1
  push_cast
  ring

/-- The factors of size 2^L depend on the index modulo 2^L alone. -/
theorem idealTwiddle_congr {L a b : Nat} (h : a ≡ b [MOD 2 ^ L]) : idealTwiddle L a = idealTwiddle L b := by
  have hmod (c : Nat) : idealTwiddle L c = idealTwiddle L (c % 2 ^ L) := by
    conv_lhs => rw [← Nat.mod_add_div' c (2 ^ L), idealTwiddle_add, idealTwiddle_turns, mul_one]
  rw [hmod a, h, ← hmod]

/-- Half a turn further on the factor has the opposite sign. -/
theorem idealTwiddle_succ (s j : Nat) :
    idealTwiddle (s + 1) j = (if j.testBit s then -1 else 1) * idealTwiddle (s + 1) (j % 2 ^ s) := by
  rw [← idealTwiddle_congr (Nat.mod_modEq j (2 ^ (s + 1))), Nat.mod_pow_succ,
    ← Nat.toNat_testBit, idealTwiddle_add, mul_comm]
  have hzero : idealTwiddle (s + 1) 0 = 1 := by simpa using idealTwiddle_turns (s + 1) 0
  cases j.testBit s <;> simp [hzero, idealTwiddle_half]

theorem star_idealTwiddle (L a : Nat) : star (idealTwiddle L a) = (idealTwiddle L a)⁻¹ := by
  rw [idealTwiddle, ← Complex.exp_neg, Complex.star_def, ← Complex.exp_conj, map_mul, map_neg,
    Complex.conj_ofReal, Complex.conj_I, mul_neg]

/-! ### The decimation in time -/

/-- One stage of the reference transform: the exact butterfly, with the ideal factors of size 2^L. -/
noncomputable def referenceStage (L : Nat) (y : Nat → ℂ) (s : Nat) : Nat → ℂ :=
  stageOver (fun a b w => (a + w * b, a - w * b)) (idealTwiddle L) L s y

theorem referenceTransform_eq_foldl (L : Nat) (x : Nat → ℂ) :
    referenceTransform L x = (List.range L).foldl (referenceStage L) (fun j => x (rev L j)) := rfl

/-- The transform of size 2^s that block j / 2^s of the sequence after s stages holds: that of every
2^(L-s)-th element of the input, from the block's own offset on. -/
noncomputable def partialDft (L s : Nat) (x : Nat → ℂ) (j : Nat) : ℂ :=
  ∑ n ∈ Finset.range (2 ^ s), x (rev (L - s) (j / 2 ^ s) + n * 2 ^ (L - s)) * idealTwiddle s (n * j)

/-- Before the first stage each block is one element of the bit-reversed input. -/
theorem partialDft_zero (L : Nat) (x : Nat → ℂ) : partialDft L 0 x = fun j => x (rev L j) := by
  funext j
  have h : idealTwiddle 0 0 = 1 := idealTwiddle_turns 0 0
  simp [partialDft, h]

/-- A sum over twice as many numbers, the even ones and the odd ones. -/
theorem sum_range_even_odd (m : Nat) (f : Nat → ℂ) :
    ∑ n ∈ Finset.range (m * 2), f n =
      ∑ n ∈ Finset.range m, f (2 * n) + ∑ n ∈ Finset.range m, f (2 * n + 1) := by
  rw [← Finset.sum_add_distrib]
  induction m with
  | zero => rfl
  | succ m ih =>
    rw [Nat.succ_mul, Finset.sum_range_succ, Finset.sum_range_succ, Finset.sum_range_succ, ih, mul_comm m,
      add_assoc]

/-- One more bit below the others is reversed to the place of the top bit. -/
theorem rev_two_mul_add (w a : Nat) {b : Nat} (hb : b < 2) : rev (w + 1) (2 * a + b) = rev w a + b * 2 ^ w := by
  have hlow : ((2 * a + b).testBit 0).toNat = b := by
    rw [Nat.toNat_testBit]
    omega
  rw [rev, List.range_succ_eq_map, List.map_cons, List.sum_cons, List.map_map, hlow, add_comm, rev]
  congr 2
  refine List.map_congr_left fun c _ => ?_
  have hexp : w + 1 - 1 - (c + 1) = w - 1 - c := by omega
  have hdiv : (2 * a + b) / 2 = a := by omega
  rw [Function.comp_apply, Nat.succ_eq_add_one, Nat.testBit_succ, hdiv, hexp]

/-- Decimation in time: block `q` of the next stage comes from two blocks of this one, the transforms of its
even and of its odd elements. -/
theorem partialDft_succ {L s : Nat} (hs : s < L) (x : Nat → ℂ) {q j a b : Nat} (hj : j / 2 ^ (s + 1) = q)
    (ha : a / 2 ^ s = 2 * q) (haj : a ≡ j [MOD 2 ^ s])
    (hb : b / 2 ^ s = 2 * q + 1) (hbj : b ≡ j [MOD 2 ^ s]) :
    partialDft L (s + 1) x j = partialDft L s x a + idealTwiddle (s + 1) j * partialDft L s x b := by
  obtain ⟨w, rfl⟩ : ∃ w, L = s + 1 + w := ⟨L - (s + 1), by omega⟩
  have hw : s + 1 + w - s = w + 1 := by omega
  have hleft : rev (w + 1) (2 * q) = rev w q := by simpa using rev_two_mul_add w q two_pos
  have hright : rev (w + 1) (2 * q + 1) = rev w q + 2 ^ w := by simpa using rev_two_mul_add w q one_lt_two
  have htwice (n : Nat) : idealTwiddle (s + 1) (2 * n * j) = idealTwiddle s (n * j) := by
    rw [← idealTwiddle_scale s 1, pow_one, mul_assoc, mul_comm 2]
  simp only [partialDft, hw, Nat.add_sub_cancel_left, hj, ha, hb, hleft, hright, Finset.mul_sum]
  rw [pow_succ, sum_range_even_odd]
  congr 1 <;> refine Finset.sum_congr rfl fun n _ => ?_
  · have hindex : rev w q + 2 * n * 2 ^ w = rev w q + n * 2 ^ (w + 1) := by ring
    rw [hindex, htwice, idealTwiddle_congr (haj.mul_left n)]
  · have hindex : rev w q + (2 * n + 1) * 2 ^ w = rev w q + 2 ^ w + n * 2 ^ (w + 1) := by ring
    rw [hindex, Nat.succ_mul, idealTwiddle_add, htwice, idealTwiddle_congr (hbj.mul_left n)]
    ring

/-- Stage `s` takes the transforms of size 2^s to those of size 2^(s+1). -/
theorem referenceStage_partialDft {L s : Nat} (hs : s < L) (x : Nat → ℂ) :
    referenceStage L (partialDft L s x) s = partialDft L (s + 1) x := by
  funext j
  have hdiv : j / 2 ^ (s + 1) = j / 2 ^ s / 2 := by rw [pow_succ, Nat.div_div_eq_div_mul]
  have htwiddle : idealTwiddle L (j % 2 ^ s * 2 ^ (L - s - 1)) = idealTwiddle (s + 1) (j % 2 ^ s) := by
    rw [← idealTwiddle_scale (s + 1) (L - s - 1), show s + 1 + (L - s - 1) = L by omega]
  have hbit := Nat.toNat_testBit j s
  rw [referenceStage, stageOver, htwiddle]
  cases h : j.testBit s with
  | false =>
    have hleft : j / 2 ^ s = 2 * (j / 2 ^ s / 2) := by
      rw [h, Bool.toNat_false] at hbit
      omega
    have hright : (j + 2 ^ s) / 2 ^ s = 2 * (j / 2 ^ s / 2) + 1 := by
      rw [Nat.add_div_right _ (Nat.two_pow_pos s), ← hleft]
    rw [partialDft_succ hs x hdiv hleft rfl hright (Nat.add_mod_right j _), idealTwiddle_succ s j, h]
    simp
  | true =>
    have hle : 2 ^ s ≤ j := Nat.ge_two_pow_of_testBit h
    have hright : j / 2 ^ s = 2 * (j / 2 ^ s / 2) + 1 := by
      rw [h, Bool.toNat_true] at hbit
      omega
    have hleft : (j - 2 ^ s) / 2 ^ s = 2 * (j / 2 ^ s / 2) := by
      have hsucc := Nat.add_div_right (j - 2 ^ s) (Nat.two_pow_pos s)
      rw [Nat.sub_add_cancel hle] at hsucc
      omega
    have hmod : j - 2 ^ s ≡ j [MOD 2 ^ s] := (Nat.mod_eq_sub_mod hle).symm
    rw [partialDft_succ hs x hdiv hleft hmod hright rfl, idealTwiddle_succ s j, h]
    simp [Nat.sub_add_cancel hle, sub_eq_add_neg]

/-- The stages below `s` leave the transforms of size 2^s. -/
theorem foldl_referenceStage_eq_partialDft {L s : Nat} (hs : s ≤ L) (x : Nat → ℂ) :
    (List.range s).foldl (referenceStage L) (fun j => x (rev L j)) = partialDft L s x := by
  induction s with
  | zero => exact (partialDft_zero L x).symm
  | succ s ih =>
    rw [List.range_succ, List.foldl_append, ih (by omega), List.foldl_cons, List.foldl_nil,
      referenceStage_partialDft hs]

theorem referenceTransform_eq_sum (L : Nat) (x : Nat → ℂ) (k : Nat) :
    referenceTransform L x k = ∑ n ∈ Finset.range (2 ^ L), x n * idealTwiddle L (n * k) := by
  rw [referenceTransform_eq_foldl, foldl_referenceStage_eq_partialDft le_rfl]
  simp [partialDft, rev]

/-- The factors of bin N - k are the conjugates of those of bin k. -/
theorem idealTwiddle_mirror {L k : Nat} (n : Nat) (hk : k ≤ 2 ^ L) :
    idealTwiddle L (n * (2 ^ L - k)) = star (idealTwiddle L (n * k)) := by
  rw [star_idealTwiddle]
  refine eq_inv_of_mul_eq_one_left ?_
  rw [← idealTwiddle_add, ← mul_add, Nat.sub_add_cancel hk, idealTwiddle_turns]

/-- Settles O47: after all L stages there is one block, the transform of size N, whose factors for bin N - k
are conjugate to those for bin k. -/
theorem referenceTransformIsDft : Obligations.ReferenceTransformIsDft := by
  intro L x k hk
  constructor
  · rw [referenceTransform_eq_sum]
    refine Finset.sum_congr rfl fun n _ => ?_
    rw [idealTwiddle, Nat.cast_mul, mul_assoc (2 * Real.pi)]
  · intro _ hreal
    rw [referenceTransform_eq_sum, referenceTransform_eq_sum, star_sum]
    refine Finset.sum_congr rfl fun n hn => ?_
    have hx : star (x n) = x n := Complex.conj_eq_iff_im.2 (hreal n (Finset.mem_range.1 hn))
    rw [idealTwiddle_mirror n hk.le, star_mul', hx]

end Sys2Proof.Machine
end

section
/-! PROOFS. Butterfly addressing: the pairs of one stage as a partition of the block (O38), and ADDRGEN
(O35). -/

namespace Sys2Proof.Machine

/-! ### The bits of an operand address -/

/-- The bits of a number that is `i` with the bit `v` inserted at place `s`, given by its parts below and
from bit `s` (R111). -/
theorem testBit_of_inserted {s i a : Nat} {v : Bool}
    (h : a % 2 ^ s = i % 2 ^ s ∧ a / 2 ^ s = 2 * (i / 2 ^ s) + v.toNat) (b : Nat) :
    a.testBit b = if b < s then i.testBit b else if b = s then v else i.testBit (b - 1) := by
  obtain ⟨hmod, hdiv⟩ := h
  split_ifs with hlt heq
  · have hbelow (x : Nat) : x.testBit b = (x % 2 ^ s).testBit b := by simp [Nat.testBit_mod_two_pow, hlt]
    rw [hbelow a, hmod, ← hbelow i]
  · rw [heq, ← Nat.zero_add s, ← Nat.testBit_div_two_pow, hdiv]
    cases v <;> simp
  · obtain ⟨c, rfl⟩ : ∃ c, b = c + 1 + s := ⟨b - s - 1, by omega⟩
    have hhalf : (2 * (i / 2 ^ s) + v.toNat) / 2 = i / 2 ^ s := by
      have := Bool.toNat_lt v
      omega
    rw [← Nat.testBit_div_two_pow, hdiv, Nat.testBit_succ, hhalf, Nat.testBit_div_two_pow]
    congr 1
    omega

@[simp] theorem testBit_addr1_self (s i : Nat) : (addr1 s i).testBit s = false := by
  rw [testBit_of_inserted (v := false) (addr1_parts s i), if_neg (lt_irrefl s), if_pos rfl]

@[simp] theorem testBit_addr2_self (s i : Nat) : (addr2 s i).testBit s = true := by
  rw [testBit_of_inserted (v := true) (addr2_parts s i), if_neg (lt_irrefl s), if_pos rfl]

/-! ### The pair of an index -/

/-- The butterfly of stage `s` that entry `j` belongs to: `j` without its bit `s` (R111). -/
def pairIndex (s j : Nat) : Nat := 2 ^ s * (j / 2 ^ s / 2) + j % 2 ^ s

theorem pairIndex_parts (s j : Nat) :
    pairIndex s j % 2 ^ s = j % 2 ^ s ∧ pairIndex s j / 2 ^ s = j / 2 ^ s / 2 := by
  have hmod := Nat.mod_lt j (Nat.two_pow_pos s)
  rw [pairIndex, Nat.mul_add_mod, Nat.mod_mod, Nat.mul_add_div (Nat.two_pow_pos s), Nat.div_eq_of_lt hmod]
  exact ⟨rfl, rfl⟩

@[simp] theorem pairIndex_addr1 (s i : Nat) : pairIndex s (addr1 s i) = i := by
  obtain ⟨hmod, hdiv⟩ := addr1_parts s i
  refine parts_ext (s := s) ?_ ?_
  · rw [(pairIndex_parts s _).1, hmod]
  · rw [(pairIndex_parts s _).2, hdiv]
    omega

@[simp] theorem pairIndex_addr2 (s i : Nat) : pairIndex s (addr2 s i) = i := by
  obtain ⟨hmod, hdiv⟩ := addr2_parts s i
  refine parts_ext (s := s) ?_ ?_
  · rw [(pairIndex_parts s _).1, hmod]
  · rw [(pairIndex_parts s _).2, hdiv]
    omega

/-- An entry is the first or the second operand of its pair. -/
theorem eq_addr_pairIndex (s j : Nat) : j = addr1 s (pairIndex s j) ∨ j = addr2 s (pairIndex s j) := by
  obtain ⟨hmod, hdiv⟩ := pairIndex_parts s j
  obtain ⟨hmod1, hdiv1⟩ := addr1_parts s (pairIndex s j)
  obtain ⟨hmod2, hdiv2⟩ := addr2_parts s (pairIndex s j)
  obtain h | h : j / 2 ^ s = 2 * (j / 2 ^ s / 2) ∨ j / 2 ^ s = 2 * (j / 2 ^ s / 2) + 1 := by omega
  · exact .inl (parts_ext (hmod1.trans hmod).symm (by rw [hdiv1, hdiv, ← h]))
  · exact .inr (parts_ext (hmod2.trans hmod).symm (by rw [hdiv2, hdiv, ← h]))

theorem eq_addr_iff {s i j : Nat} : j = addr1 s i ∨ j = addr2 s i ↔ i = pairIndex s j := by
  constructor
  · rintro (rfl | rfl) <;> simp
  · rintro rfl
    exact eq_addr_pairIndex s j

theorem pairIndex_lt {L s j : Nat} (hs : s < L) (hj : j < 2 ^ L) : pairIndex s j < 2 ^ L / 2 := by
  obtain ⟨d, rfl⟩ : ∃ d, L = d + s + 1 := ⟨L - s - 1, by omega⟩
  rw [two_pow_succ_half, pow_add, ← Nat.div_lt_iff_lt_mul (Nat.two_pow_pos s), (pairIndex_parts s j).2,
    Nat.div_div_eq_div_mul, ← pow_succ, Nat.div_lt_iff_lt_mul (Nat.two_pow_pos _), ← pow_add]
  exact hj

/-! ### The twiddle index -/

theorem tidx_lt {L s : Nat} (hs : s < L) (i : Nat) : tidx L s i < 2 ^ L / 2 := by
  obtain ⟨d, rfl⟩ : ∃ d, L = s + d + 1 := ⟨L - s - 1, by omega⟩
  rw [two_pow_succ_half, tidx_eq, show s + d + 1 - s - 1 = d by omega, pow_add]
  exact Nat.mul_lt_mul_of_pos_right (Nat.mod_lt _ (Nat.two_pow_pos s)) (Nat.two_pow_pos d)

/-- Settles O38: an address is the pair index with a bit inserted, and the pair index of an entry is the
entry without that bit. -/
theorem butterflyPairsPartition : Obligations.ButterflyPairsPartition := by
  intro L s hs
  obtain ⟨L, rfl⟩ := Nat.exists_eq_add_of_le' (Nat.succ_le_of_lt (Nat.zero_lt_of_lt hs))
  rw [Nat.add_sub_cancel, ← two_pow_succ_half L]
  refine ⟨fun i hi => ⟨testBit_of_inserted (v := false) (addr1_parts s i),
    testBit_of_inserted (v := true) (addr2_parts s i), (addr1_lt_addr2 s i).trans (addr2_lt hs hi),
    addr2_lt hs hi, tidx_lt hs i, ?_, ?_⟩, fun j hj => ?_, ?_⟩
  · exact tidx_eq (L + 1) s i ▸ Nat.dvd_mul_left _ _
  · rintro rfl
    simp [tidx_eq, Nat.mod_one]
  · exact ⟨pairIndex s j, ⟨pairIndex_lt hs hj, eq_addr_iff.2 rfl⟩, fun i hi => eq_addr_iff.1 hi.2⟩
  · rintro rfl k hk
    refine ⟨k, hk, ?_⟩
    rw [two_pow_succ_half] at hk
    simp [tidx_eq, Nat.mod_eq_of_lt hk]

/-! ### ADDRGEN -/

theorem addr1_add_mod (s i : Nat) : addr1 s i + i % 2 ^ s = 2 * i := by
  have h := Nat.div_add_mod i (2 ^ s)
  rw [addr1_eq, pow_succ']
  linarith

/-- Settles O35: the checks pass, and the three results fit their registers. -/
theorem addrgenResult : Obligations.AddrgenResult := by
  intro s st i hv hst hi
  have hexec : exec (.addrgen st i) s = .next { s with
      res0 := BitVec.ofNat 64 (addr1 st.toNat i.toNat)
      res1 := BitVec.ofNat 64 (addr2 st.toNat i.toNat)
      res2 := BitVec.ofNat 64 (tidx s.cfg.stages st.toNat i.toNat) }.succeed := by
    simp [exec, execAddrgen, State.config, hv, hst, hi]
  have hi16 := i.isLt
  have hstages : s.cfg.stages < 16 := s.cfg.log2n.isLt
  have haddr1 : addr1 st.toNat i.toNat ≤ 2 * i.toNat := (addr1_add_mod _ _).le.trans' (Nat.le_add_right _ _)
  have hpow : 2 ^ st.toNat ≤ 2 ^ 15 := Nat.pow_le_pow_right (by norm_num) (by omega)
  have htidx : tidx s.cfg.stages st.toNat i.toNat ≤ i.toNat * 2 ^ 15 := by
    rw [tidx_eq]
    exact Nat.mul_le_mul (Nat.mod_le _ _) (Nat.pow_le_pow_right (by norm_num) (by omega))
  have hres0 : (BitVec.ofNat 64 (addr1 st.toNat i.toNat)).toNat = addr1 st.toNat i.toNat :=
    Nat.mod_eq_of_lt (by omega)
  have hres1 : (BitVec.ofNat 64 (addr2 st.toNat i.toNat)).toNat = addr2 st.toNat i.toNat :=
    Nat.mod_eq_of_lt (by rw [addr2]; omega)
  have hres2 : (BitVec.ofNat 64 (tidx s.cfg.stages st.toNat i.toNat)).toNat =
      tidx s.cfg.stages st.toNat i.toNat :=
    Nat.mod_eq_of_lt (by omega)
  exact ⟨_, hexec, hres0.trans (addr1_eq _ _), hres1.trans (congrArg (· + 2 ^ st.toNat) hres0.symm),
    hres2.trans (tidx_eq _ _ _), rfl⟩

end Sys2Proof.Machine
end

section
/-! PROOFS. The transform on whole blocks: the loops of PERMUTE, STAGE and FFT leave in OUT[0..N-1] the
values of the transform as plain functions of a sequence (O41, O42, O43, O45, O46). -/

namespace Sys2Proof.Machine

/-! ### Entries and blocks by their values -/

/-- Both words of entry `j` carry the tag `t`, and their patterns are `c`. -/
structure Memory.HoldsEntry (m : Memory TWord) (t : Tag) (j : Nat) (c : Cx) : Prop where
  re : m.get (reSlot j) = some { tag := t, raw := c.re }
  im : m.get (imSlot j) = some { tag := t, raw := c.im }

/-- Entries 0 to n - 1 carry the tag `t`, and their patterns are the sequence `x`. -/
def Memory.HoldsBlock (m : Memory TWord) (t : Tag) (n : Nat) (x : Nat → Cx) : Prop :=
  ∀ j < n, m.HoldsEntry t j (x j)

section Blocks

variable {m : Memory TWord} {t : Tag} {n j : Nat} {x : Nat → Cx} {c : Cx}

theorem Memory.HoldsEntry.rawEntry_eq (h : m.HoldsEntry t j c) : m.rawEntry j = c := by
  simp [Memory.rawEntry, Memory.raw, h.re, h.im]

theorem Memory.HoldsBlock.blockReady (h : m.HoldsBlock t n x) : blockReady m n t := fun j hj =>
  ⟨hasTag_eq_true.2 ⟨_, (h j hj).re, rfl⟩, hasTag_eq_true.2 ⟨_, (h j hj).im, rfl⟩⟩

/-- A block that is ready holds the sequence of its own raw entries. -/
theorem holdsBlock_rawEntry (h : blockReady m n t) : m.HoldsBlock t n m.rawEntry := by
  intro j hj
  obtain ⟨hre, him⟩ := h j hj
  obtain ⟨a, ha, rfl⟩ := hasTag_eq_true.1 hre
  obtain ⟨b, hb, hab⟩ := hasTag_eq_true.1 him
  constructor
  · simp [Memory.rawEntry, Memory.raw, ha]
  · simp [Memory.rawEntry, Memory.raw, hb, ← hab]

theorem checkBlock_of_ready (h : blockReady m n t) : checkBlock m n t = .ok () :=
  checkBlock_eq_ok.2 (allTagged_eq_true.2 h)

theorem holdsEntry_putRawEntry (m : Memory TWord) (t : Tag) (j : Nat) (c : Cx) :
    (m.putRawEntry j t c).HoldsEntry t j c := by
  constructor
  · simp [Memory.putRawEntry, Memory.get_putEntry_some_re]
  · simp [Memory.putRawEntry, Memory.get_putEntry_some_im]

/-- The slots of the other entries. -/
theorem get_putRawEntry_other {k : Nat} (m : Memory TWord) (t : Tag) (c : Cx) (h : k / 2 ≠ j) :
    (m.putRawEntry j t c).get k = m.get k := by
  refine Memory.get_putEntry_some_other _ _ _ _ _ ?_ ?_ <;> simp only [reSlot, imSlot] <;> omega

theorem reSlot_half (j : Nat) : reSlot j / 2 = j := by
  simp only [reSlot]
  omega

theorem imSlot_half (j : Nat) : imSlot j / 2 = j := by
  simp only [imSlot]
  omega

/-- An entry whose two slots two buffers agree on. -/
theorem Memory.HoldsEntry.congr {m' : Memory TWord} (h : m.HoldsEntry t j c)
    (hget : ∀ k, k / 2 = j → m'.get k = m.get k) : m'.HoldsEntry t j c :=
  ⟨(hget _ (reSlot_half j)).trans h.re, (hget _ (imSlot_half j)).trans h.im⟩

/-- An entry that one pass of a loop writes, and no other pass changes, holds what that pass wrote. -/
theorem holdsEntry_foldl {pass : Memory TWord → Nat → Memory TWord} {l : List Nat} {i : Nat} (hi : i ∈ l)
    (hw : ∀ y, (pass y i).HoldsEntry t j c)
    (hother : ∀ i' ∈ l, i' ≠ i → ∀ y k, k / 2 = j → (pass y i').get k = y.get k) :
    (l.foldl pass m).HoldsEntry t j c where
  re := get_foldl_written hi (fun y => (hw y).re) fun i' hi' hne y => hother i' hi' hne y _ (reSlot_half j)
  im := get_foldl_written hi (fun y => (hw y).im) fun i' hi' hne y => hother i' hi' hne y _ (imSlot_half j)

end Blocks

/-! ### The body of PERMUTE -/

section Permute

variable {L : Nat} {t : Tag} {x : Nat → Cx} {inb : Memory TWord}

/-- A copy of a written entry stores it as a whole (R113). -/
theorem permuteOne_eq {i : Nat} (h : inb.HoldsEntry t i (x i)) (out : Memory TWord) :
    permuteOne L inb out i = out.putRawEntry (rev L i) t (x i) := by
  rw [permuteOne, h.re, h.im, Memory.putRawEntry]

theorem holdsBlock_permuteBody (h : inb.HoldsBlock t (2 ^ L) x) (out : Memory TWord) :
    (permuteBody L (2 ^ L) inb out).HoldsBlock t (2 ^ L) fun j => x (rev L j) := by
  intro j hj
  refine holdsEntry_foldl (i := rev L j) (List.mem_range.2 (rev_lt L j)) (fun y => ?_)
    fun i hi hne y k hk => ?_
  · have hstored := holdsEntry_putRawEntry y t (rev L (rev L j)) (x (rev L j))
    rwa [← permuteOne_eq (h _ (rev_lt L j)), rev_rev hj] at hstored
  · have hi := List.mem_range.1 hi
    rw [permuteOne_eq (h i hi)]
    refine get_putRawEntry_other y t _ fun e => hne ?_
    rw [← rev_rev hi, ← e, hk]

theorem get_permuteBody_other (h : inb.HoldsBlock t (2 ^ L) x) (out : Memory TWord) {k : Nat}
    (hk : 2 * 2 ^ L ≤ k) : (permuteBody L (2 ^ L) inb out).get k = out.get k := by
  refine get_foldl_other fun i hi y => ?_
  have hrev := rev_lt L i
  rw [permuteOne_eq (h i (List.mem_range.1 hi)), get_putRawEntry_other y t _ (by omega)]

end Permute

/-! ### The body of a stage -/

section Stage

variable {q : Twq} {t : Tag} {L s : Nat} {l : List Nat}

section Pairs

variable {α : Type} (butterfly : α → α → α → α × α) (twiddle : Nat → α) (L s i : Nat) (x : Nat → α)

/-- What a stage as a function of a sequence leaves at the first operand of a butterfly. -/
theorem stageOver_addr1 :
    stageOver butterfly twiddle L s x (addr1 s i) =
      (butterfly (x (addr1 s i)) (x (addr2 s i)) (twiddle (tidx L s i))).1 := by
  simp [stageOver, addr2, tidx_eq, (addr1_parts s i).1]

/-- What it leaves at the second. -/
theorem stageOver_addr2 :
    stageOver butterfly twiddle L s x (addr2 s i) =
      (butterfly (x (addr1 s i)) (x (addr2 s i)) (twiddle (tidx L s i))).2 := by
  have hsub : addr2 s i - 2 ^ s = addr1 s i := Nat.add_sub_cancel _ _
  have hadd : addr1 s i + 2 ^ s = addr2 s i := rfl
  simp [stageOver, hsub, hadd, tidx_eq, (addr2_parts s i).1]

end Pairs

/-- A stage reads a block of 2^L entries within the block. -/
theorem stageOver_congr {α : Type} {butterfly : α → α → α → α × α} {twiddle : Nat → α} {x y : Nat → α}
    (hs : s < L) (h : ∀ j < 2 ^ L, x j = y j) {j : Nat} (hj : j < 2 ^ L) :
    stageOver butterfly twiddle L s x j = stageOver butterfly twiddle L s y j := by
  have h2 := addr2_lt hs (pairIndex_lt hs hj)
  have h1 := (addr1_lt_addr2 _ _).trans h2
  obtain e | e := eq_addr_pairIndex s j <;> rw [e]
  · rw [stageOver_addr1, stageOver_addr1, h _ h1, h _ h2]
  · rw [stageOver_addr2, stageOver_addr2, h _ h1, h _ h2]

/-- A butterfly leaves in each entry of its pair what the stage's function says. -/
theorem holdsEntry_stageOne {i j : Nat} (x y : Memory TWord) (h : j = addr1 s i ∨ j = addr2 s i) :
    (stageOne q t L s x y i).HoldsEntry t j (stageOver (bfly t) (rom q t L) L s x.rawEntry j) := by
  obtain rfl | rfl := h
  · rw [stageOver_addr1]
    obtain ⟨hre, him⟩ := get_stageOne_first q t L s i x y
    exact ⟨hre, him⟩
  · rw [stageOver_addr2]
    obtain ⟨hre, him⟩ := get_stageOne_second q t L s i x y
    exact ⟨hre, him⟩

/-- The butterflies of a stage in any order (R114): each entry below N is written by its own one. -/
theorem holdsBlock_foldl_stageOne (hs : s < L) (hl : ∀ i, i ∈ l ↔ i < 2 ^ L / 2) (x y : Memory TWord) :
    (l.foldl (stageOne q t L s x) y).HoldsBlock t (2 ^ L)
      (stageOver (bfly t) (rom q t L) L s x.rawEntry) := by
  intro j hj
  refine holdsEntry_foldl ((hl _).2 (pairIndex_lt hs hj)) 
    (fun y => holdsEntry_stageOne x y (eq_addr_pairIndex s j))
    fun i _ hne y k hk => ?_
  obtain ⟨h1, h2⟩ := not_or.1 (mt eq_addr_iff.1 hne)
  exact get_stageOne_other x y (hk ▸ h1) (hk ▸ h2)

theorem get_foldl_stageOne_other (hs : s < L) (hl : ∀ i, i ∈ l ↔ i < 2 ^ L / 2) (x y : Memory TWord) {k : Nat}
    (hk : 2 * 2 ^ L ≤ k) : (l.foldl (stageOne q t L s x) y).get k = y.get k := by
  refine get_foldl_other fun i hi y => ?_
  have h2 := addr2_lt hs ((hl i).1 hi)
  have h1 := addr1_lt_addr2 s i
  exact get_stageOne_other x y (by omega) (by omega)

theorem wf_foldl_stageOne {x y : Memory TWord} (hy : y.wf) : (l.foldl (stageOne q t L s x) y).wf :=
  foldl_keeps (P := Memory.wf) (fun _ _ _ h => Memory.wf_putEntry (Memory.wf_putEntry h _ _ _) _ _ _) hy

/-- A stage takes a block that holds a sequence to one that holds the stage's sequence. -/
theorem holdsBlock_stageBody {m : Memory TWord} {x : Nat → Cx} (hs : s < L) (h : m.HoldsBlock t (2 ^ L) x) :
    (stageBody q t L (2 ^ L) m s).HoldsBlock t (2 ^ L) (stageOver (bfly t) (rom q t L) L s x) := by
  intro j hj
  rw [← stageOver_congr hs (fun i hi => (h i hi).rawEntry_eq) hj]
  exact holdsBlock_foldl_stageOne hs (fun _ => List.mem_range) m m j hj

theorem get_stageBody_other (hs : s < L) (m : Memory TWord) {k : Nat} (hk : 2 * 2 ^ L ≤ k) :
    (stageBody q t L (2 ^ L) m s).get k = m.get k :=
  get_foldl_stageOne_other hs (fun _ => List.mem_range) m m hk

end Stage

/-- Settles O43: in both orders each slot of the block is written by its own butterfly, from the entries
as they were, and no other slot is written. -/
theorem stageOrderDoesNotMatter : Obligations.StageOrderDoesNotMatter := by
  intro q t L s x l hs hx hperm
  have hl (i : Nat) : i ∈ l ↔ i < 2 ^ L / 2 := hperm.mem_iff.trans List.mem_range
  refine Memory.ext_get (wf_foldl_stageOne hx) (wf_foldl_stageOne hx) fun k => ?_
  by_cases hk : k / 2 < 2 ^ L
  · obtain ⟨hre, him⟩ := holdsBlock_foldl_stageOne (q := q) (t := t) hs hl x x _ hk
    obtain ⟨hre', him'⟩ := holdsBlock_foldl_stageOne (q := q) (t := t) hs (fun _ => List.mem_range) x x _ hk
    obtain e | e := slot_cases k
    · rw [e, hre]
      exact hre'.symm
    · rw [e, him]
      exact him'.symm
  · rw [get_foldl_stageOne_other hs hl x x (by omega), get_stageBody_other hs x (by omega)]

/-! ### The whole transform -/

section Stages

variable {q : Twq} {t : Tag} {L : Nat} {l : List Nat} {m : Memory TWord}

theorem holdsBlock_foldl_stageBody (hl : ∀ s ∈ l, s < L) {x : Nat → Cx} (h : m.HoldsBlock t (2 ^ L) x) :
    (l.foldl (stageBody q t L (2 ^ L)) m).HoldsBlock t (2 ^ L)
      (l.foldl (fun y s => stageOver (bfly t) (rom q t L) L s y) x) := by
  induction l generalizing m x with
  | nil => exact h
  | cons s l ih =>
    exact ih (fun s' hs' => hl s' (List.mem_cons_of_mem _ hs'))
      (holdsBlock_stageBody (hl s List.mem_cons_self) h)

theorem get_allStages_other (m : Memory TWord) {k : Nat} (hk : 2 * 2 ^ L ≤ k) :
    (allStages q t L (2 ^ L) m).get k = m.get k :=
  get_foldl_other fun _ hs m => get_stageBody_other (List.mem_range.1 hs) m hk

/-- The body of FFT leaves the transform of the block it reads (R116, R117). -/
theorem holdsBlock_allStages {inb : Memory TWord} {x : Nat → Cx} (h : inb.HoldsBlock t (2 ^ L) x)
    (out : Memory TWord) :
    (allStages q t L (2 ^ L) (permuteBody L (2 ^ L) inb out)).HoldsBlock t (2 ^ L) (fftValues q t L x) :=
  holdsBlock_foldl_stageBody (fun _ => List.mem_range.1) (holdsBlock_permuteBody h out)

end Stages

/-! ### The commands -/

section Commands

variable {s : State}

theorem wroteOut_succeed {m : Memory TWord} {n : Nat} (h : ∀ k, 2 * n ≤ k → m.get k = s.outbuf.get k) :
    wroteOut s { s with outbuf := m }.succeed n :=
  ⟨h, rfl⟩

theorem exec_permute (hv : s.cfg.valid = true) (h : blockReady s.inbuf s.cfg.size s.cfg.tag) :
    exec .permute s =
      .next { s with outbuf := permuteBody s.cfg.stages s.cfg.size s.inbuf s.outbuf }.succeed := by
  simp [exec, execPermute, State.config, hv, checkBlock_of_ready h]

theorem exec_stage {st : BitVec 5} (hv : s.cfg.valid = true) (hst : st.toNat < s.cfg.stages)
    (h : blockReady s.outbuf s.cfg.size s.cfg.tag) :
    exec (.stage st) s =
      .next { s with
        outbuf := stageBody s.params.twq s.cfg.tag s.cfg.stages s.cfg.size s.outbuf st.toNat }.succeed := by
  simp [exec, execStage, State.config, hv, hst, checkBlock_of_ready h]

theorem exec_fft (hv : s.cfg.valid = true) (h : blockReady s.inbuf s.cfg.size s.cfg.tag) :
    exec .fft s =
      .next { s with
        outbuf := allStages s.params.twq s.cfg.tag s.cfg.stages s.cfg.size
          (permuteBody s.cfg.stages s.cfg.size s.inbuf s.outbuf) }.succeed := by
  simp [exec, execFft, State.config, hv, checkBlock_of_ready h]

/-- Stages issued one by one: each leaves a block on which the next one's checks pass (R116). -/
theorem runCommands_stages (hc : s.configured) {l : List Nat} (hl : ∀ k ∈ l, k < s.cfg.stages)
    {m : Memory TWord} (h : blockReady m s.cfg.size s.cfg.tag) :
    runCommands (l.map fun k => .stage (BitVec.ofNat 5 k)) { s with outbuf := m }.succeed =
      .next { s with
        outbuf := l.foldl (stageBody s.params.twq s.cfg.tag s.cfg.stages s.cfg.size) m }.succeed := by
  obtain ⟨hv, hsize, -⟩ := hc
  induction l generalizing m with
  | nil => rfl
  | cons k l ih =>
    have hk : k < s.cfg.stages := hl k List.mem_cons_self
    have hstages : s.cfg.stages < 16 := s.cfg.log2n.isLt
    have htoNat : (BitVec.ofNat 5 k).toNat = k := Nat.mod_eq_of_lt (by omega)
    have hexec := exec_stage (s := { s with outbuf := m }.succeed) (st := BitVec.ofNat 5 k) hv
      (htoNat.trans_lt hk) h
    have hnext : blockReady (stageBody s.params.twq s.cfg.tag s.cfg.stages s.cfg.size m k) s.cfg.size
        s.cfg.tag := by
      rw [hsize] at h ⊢
      exact (holdsBlock_stageBody hk (holdsBlock_rawEntry h)).blockReady
    rw [List.map_cons, runCommands, hexec, htoNat]
    exact ih (fun k' hk' => hl k' (List.mem_cons_of_mem _ hk')) hnext

end Commands

/-- Settles O41: the loop writes entry rev(i) in pass i alone. -/
theorem permuteResult : Obligations.PermuteResult := by
  rintro s ⟨hv, hsize, -⟩ hready
  have hin := holdsBlock_rawEntry hready
  refine ⟨_, exec_permute hv hready, wroteOut_succeed fun k hk => ?_, fun i hi => ?_⟩
  · rw [hsize] at hin hk ⊢
    exact get_permuteBody_other hin _ hk
  · rw [hsize] at hin hi ⊢
    obtain ⟨hre, him⟩ := holdsBlock_permuteBody hin s.outbuf _ (rev_lt _ i)
    simp only [rev_rev hi] at hre him
    exact ⟨hre.trans (hin i hi).re.symm, him.trans (hin i hi).im.symm⟩

/-- Settles O42: both entries of a pair hold what the stage's function says, by the bit that tells them
apart. -/
theorem stageResult : Obligations.StageResult := by
  rintro s st ⟨hv, hsize, -⟩ hst hready
  refine ⟨_, exec_stage hv hst hready, wroteOut_succeed fun k hk => ?_, fun i hi => ?_⟩
  · rw [hsize] at hk ⊢
    exact get_stageBody_other hst _ hk
  · have hblock := holdsBlock_stageBody (q := s.params.twq) hst (holdsBlock_rawEntry (hsize ▸ hready))
    rw [hsize] at hi ⊢
    have hlt := addr2_lt hst hi
    obtain ⟨hre1, him1⟩ := hblock _ ((addr1_lt_addr2 _ _).trans hlt)
    obtain ⟨hre2, him2⟩ := hblock _ hlt
    rw [stageOver_addr1] at hre1 him1
    rw [stageOver_addr2] at hre2 him2
    exact ⟨hre1, him1, hre2, him2⟩

/-- Settles O45: the commands pass through the loops of FFT's body. -/
theorem fftIsPermuteThenStages : Obligations.FftIsPermuteThenStages := by
  intro s hc hready
  have hv := hc.1
  have hperm : blockReady (permuteBody s.cfg.stages s.cfg.size s.inbuf s.outbuf) s.cfg.size s.cfg.tag := by
    have hin := holdsBlock_rawEntry hready
    rw [hc.2.1] at hin ⊢
    exact (holdsBlock_permuteBody hin s.outbuf).blockReady
  rw [runCommands, exec_permute hv hready, exec_fft hv hready]
  exact runCommands_stages hc (fun _ => List.mem_range.1) hperm

/-- Settles O46: the block that FFT leaves holds the transform of INBUF's raw entries. -/
theorem fftResult : Obligations.FftResult := by
  rintro s ⟨hv, hsize, -⟩ hready
  have hin := holdsBlock_rawEntry hready
  refine ⟨_, exec_fft hv hready, wroteOut_succeed fun k hk => ?_, fun j hj => ?_⟩
  · rw [hsize] at hin hk ⊢
    rw [get_allStages_other _ hk, get_permuteBody_other hin _ hk]
  · rw [hsize] at hin hj ⊢
    obtain ⟨hre, him⟩ := holdsBlock_allStages (q := s.params.twq) hin s.outbuf j hj
    exact ⟨hre, him⟩

end Sys2Proof.Machine
end

section
/-! PROOFS. The host's call (O60): what its commands, its writes of the samples and its reads of the results
leave, each said once, and the call put together from them. -/

namespace Sys2Proof.Machine

theorem runActions_cons {a : HostAction} {l : List HostAction} {s t : State} (h : perform s a = .next t) :
    runActions (a :: l) s = runActions l t := by
  rw [runActions, h]

/-- The slots of an entry below `n`, and the distances of their addresses from the buffer's base (R52). -/
theorem slots_of_entry_lt (base : Nat) {j n : Nat} (hj : j < n) :
    (reSlot j < 2 * n ∧ base + 8 * reSlot j = base + 16 * j) ∧
      imSlot j < 2 * n ∧ base + 8 * imSlot j = base + 8 + 16 * j := by
  simp only [reSlot, imSlot]
  omega

/-! ### Reads -/

/-- The host has been given the words `ws` by its reads (R187). -/
def State.giveWords (s : State) (ws : List Word) : State :=
  { s with host := { s.host with returned := s.host.returned ++ ws } }

theorem giveToHost_known (s : State) (w : Word) : s.giveToHost (.known w) = s.giveWords [w] := rfl

theorem giveWords_nil (s : State) : s.giveWords [] = s := by
  simp [State.giveWords]

theorem giveWords_giveWords (s : State) (ws ws' : List Word) :
    (s.giveWords ws).giveWords ws' = s.giveWords (ws ++ ws') := by
  simp [State.giveWords]

/-- A read of a written slot of OUTBUF gives its pattern (R187). -/
theorem perform_read_outbuf {s : State} {k a : Nat} {w : TWord} (hp : s.params.wf)
    (hb : s.status.busy = false) (hk : k < 2 * s.params.nmax) (ha : 0x200000 + 8 * k = a)
    (h : s.outbuf.get k = some w) : perform s (rd (BitVec.ofNat 22 a)) = .next (s.giveWords [w.raw]) := by
  have hle := Params.nmax_le hp
  rw [rd, perform_read (insideInterface_aligned (by omega) (by omega)) hb, ← ha, locate_outbuf hp hk,
    State.readLocation, h, readTagged, giveToHost_known]

/-- The reads of entries of OUTBUF give their patterns, real parts first (R189). -/
theorem runActions_readEntries {s : State} {t : Tag} {f : Nat → Cx} (hp : s.params.wf)
    (hb : s.status.busy = false) {l : List Nat}
    (hl : ∀ k ∈ l, k < s.params.nmax ∧ s.outbuf.HoldsEntry t k (f k)) :
    runActions (l.flatMap fun k =>
        [rd (BitVec.ofNat 22 (0x200000 + 16 * k)), rd (BitVec.ofNat 22 (0x200008 + 16 * k))]) s =
      .next (s.giveWords (l.flatMap fun k => [(f k).re, (f k).im])) := by
  induction l generalizing s with
  | nil => exact congrArg Host.Outcome.next (giveWords_nil s).symm
  | cons k l ih =>
    obtain ⟨hk, hre, him⟩ := hl k List.mem_cons_self
    obtain ⟨⟨hkre, hare⟩, hkim, haim⟩ := slots_of_entry_lt 0x200000 hk
    have hreadRe := perform_read_outbuf hp hb hkre hare hre
    have hreadIm := perform_read_outbuf (s := s.giveWords [(f k).re]) hp hb hkim haim him
    have hrest := ih (s := (s.giveWords [(f k).re]).giveWords [(f k).im]) hp hb
      fun k' hk' => hl k' (List.mem_cons_of_mem _ hk')
    refine (runActions_cons hreadRe).trans ((runActions_cons hreadIm).trans (hrest.trans ?_))
    rw [giveWords_giveWords, giveWords_giveWords]
    rfl

/-- The last part of the call returns the block of OUTBUF and its decoded values (R189). -/
theorem readResult_eq {s : State} {t : Tag} {n : Nat} {f : Nat → Cx} (hp : s.params.wf)
    (hb : s.status.busy = false) (hn : n ≤ s.params.nmax) (h : s.outbuf.HoldsBlock t n f) :
    readResult n t s =
      .result (((List.range n).map fun k => ((f k).re, (f k).im)).map fun p => (valueS t p.1, valueS t p.2))
        ((List.range n).map fun k => ((f k).re, (f k).im))
        (s.giveWords ((List.range n).flatMap fun k => [(f k).re, (f k).im])) := by
  have hread := runActions_readEntries hp hb (l := List.range n) (t := t) (f := f) fun k hk =>
    ⟨(List.mem_range.1 hk).trans_le hn, h k (List.mem_range.1 hk)⟩
  have hreturned (ws : List Word) : (s.giveWords ws).host.returned.drop s.host.returned.length = ws :=
    List.drop_left
  rw [readResult, readOut, andThen_next hread, hreturned, pairUp_flatMap]

/-! ### Commands -/

/-- The host has read STATUS twice, once for `wait` and once for its error fields (R85, R189). -/
def State.pollStatus (s : State) : State := s.giveWords [s.statusWord, s.statusWord]

theorem lastRead_pollStatus (s : State) : lastRead s.pollStatus = s.statusWord := by
  simp [lastRead, State.pollStatus, State.giveWords]

section CheckedCommand

variable {i : Instr} {s t : State} (k : State → CallResult)

/-- A command of the call runs, and its LASTERR decides how the call goes on (R85, R189). -/
theorem checkedCommand_eq (hi : i.wellFormed = true) (hb : s.status.busy = false) (h : exec i s = .next t) :
    checkedCommand i s k =
      if t.status.lastErr = .ok then k t.pollStatus else .fail t.status.lastErr.code t.pollStatus := by
  have hcmd : perform s (cmd i) = .next t := by
    rw [cmd, wr, perform_cmdWrite hb, issue_of_ok (decodeOfEncodeIsIdentity i hi).2, h]
  have hstatus (u : State) : perform u (rd 0x000008#22) = .next (u.giveWords [u.statusWord]) :=
    perform_read_status u
  have hrun : runActions [cmd i, wait, rd 0x000008#22] s = .next t.pollStatus := by
    rw [runActions_cons hcmd, wait, runActions_cons (hstatus t), runActions_cons (hstatus _),
      giveWords_giveWords]
    rfl
  have hlast : t.statusWord.extractLsb' 0 4 = t.status.lastErr.code := (statusWord_fields t).1
  rw [checkedCommand, andThen_next hrun, lastRead_pollStatus, hlast]
  simp only [ErrCode.code_eq_zero]

theorem checkedCommand_of_ok (hi : i.wellFormed = true) (hb : s.status.busy = false) (h : exec i s = .next t)
    (hok : t.status.lastErr = .ok) : checkedCommand i s k = k t.pollStatus :=
  (checkedCommand_eq k hi hb h).trans (if_pos hok)

theorem checkedCommand_of_error (hi : i.wellFormed = true) (hb : s.status.busy = false)
    (h : exec i s = .next t) (herror : t.status.lastErr ≠ .ok) :
    checkedCommand i s k = .fail t.status.lastErr.code t.pollStatus :=
  (checkedCommand_eq k hi hb h).trans (if_neg herror)

end CheckedCommand

theorem exec_setcfg_badSize {s : State} {n : BitVec 16} (iw fw : BitVec 5)
    (h : sizeLegal s.params n.toNat = false) :
    exec (.setcfg n iw fw) s = .next ({ s with cfg := Cfg.unconfigured }.raise .invalidSize) := by
  simp [exec, execSetcfg, h]

/-! ### The samples -/

section Samples

variable {K : Type} [Field K] [LinearOrder K] [FloorRing K] {q : Twq} {s : State}

/-- The patterns of a quantised sample (R162). -/
def quantisePair (q : Twq) (t : Tag) (v : K × K) : Cx :=
  { re := quantise q t v.1, im := quantise q t v.2 }

/-- A masked datum is stored in INBUF as it is, with cfgTag (R186). -/
theorem perform_write_inbuf {d : Word} {k a : Nat} (hp : s.params.wf) (hb : s.status.busy = false)
    (hv : s.cfg.valid = true) (hk : k < 2 * s.params.nmax) (ha : 0x100000 + 8 * k = a)
    (hd : d.toNat < 2 ^ s.cfg.tag.width) :
    perform s (wr (BitVec.ofNat 22 a) d) =
      .next { s with inbuf := s.inbuf.put k (some { tag := s.cfg.tag, raw := d }) }.succeed := by
  have hle := Params.nmax_le hp
  have hword : dataWord s.cfg d = { tag := s.cfg.tag, raw := d } := by rw [dataWord, wrap_uint hd]
  rw [wr, ← ha, perform_write_at d hb (by omega) (locate_inbuf hp hk) (by simp), writeLocation_inbuf, dataWrite_eq,
    if_pos hv, hword]
  rfl

/-- `ldin` stores its sample's entry (R85). -/
theorem runActions_ldin {j : Nat} (hp : s.params.wf) (hb : s.status.busy = false) (hv : s.cfg.valid = true)
    (hj : j < s.params.nmax) (v : K × K) :
    runActions (ldin q s.cfg.tag j v.1 v.2) s =
      .next { s with
        inbuf := s.inbuf.putRawEntry j s.cfg.tag (quantisePair q s.cfg.tag v) }.succeed := by
  obtain ⟨⟨hkre, hare⟩, hkim, haim⟩ := slots_of_entry_lt 0x100000 hj
  have hwriteRe := perform_write_inbuf hp hb hv hkre hare (quantise_lt q s.cfg.tag v.1)
  exact (runActions_cons hwriteRe).trans
    (runActions_cons (perform_write_inbuf hp hb hv hkim haim (quantise_lt q s.cfg.tag v.2)))

theorem holdsBlock_putRawEntry {m : Memory TWord} {t : Tag} {n : Nat} {x : Nat → Cx}
    (h : m.HoldsBlock t n x) : (m.putRawEntry n t (x n)).HoldsBlock t (n + 1) x := by
  intro j hj
  obtain hlt | rfl := Nat.lt_succ_iff_lt_or_eq.1 hj
  · exact (h j hlt).congr fun k hk => get_putRawEntry_other m t _ (by omega)
  · exact holdsEntry_putRawEntry m t j (x j)

/-- The samples from `j` on, written after those before: INBUF holds them all, and the parameters, CFG and
BUSY are as before (R189). -/
theorem runActions_loadSamples {x : Nat → Cx} {samples : List (K × K)} {j : Nat} (hp : s.params.wf)
    (hb : s.status.busy = false) (hv : s.cfg.valid = true) (hcap : j + samples.length ≤ s.params.nmax)
    (hx : ∀ k v, samples[k]? = some v → x (j + k) = quantisePair q s.cfg.tag v)
    (hin : s.inbuf.HoldsBlock s.cfg.tag j x) :
    ∃ u, runActions (loadSamples q s.cfg.tag j samples) s = .next u ∧ u.params = s.params ∧ u.cfg = s.cfg ∧
      u.status.busy = false ∧ u.inbuf.HoldsBlock s.cfg.tag (j + samples.length) x := by
  induction samples generalizing j s with
  | nil => exact ⟨s, rfl, rfl, rfl, hb, hin⟩
  | cons v rest ih =>
    rw [List.length_cons] at hcap
    have hv0 : x j = quantisePair q s.cfg.tag v := hx 0 v rfl
    rw [loadSamples, runActions_append (runActions_ldin hp hb hv (by omega) v), ← hv0, List.length_cons,
      ← Nat.add_assoc, Nat.add_right_comm]
    refine ih (s := { s with inbuf := s.inbuf.putRawEntry j s.cfg.tag (x j) }.succeed) hp hb hv
      (hcap.trans' (by omega)) (fun k w hw => ?_) (holdsBlock_putRawEntry hin)
    rw [Nat.add_right_comm]
    exact hx (k + 1) w hw

end Samples

/-! ### The call -/

theorem widthInRange_iff (w : Int) : widthInRange w = true ↔ 0 < w ∧ w < 32 := by
  simp [widthInRange]

theorem ofInt_width_ne_zero {w : Int} (h : 0 < w ∧ w < 32) : BitVec.ofInt 5 w ≠ 0#5 := by
  intro e
  have htoNat := congrArg BitVec.toNat e
  rw [BitVec.toNat_ofInt, BitVec.toNat_ofNat] at htoNat
  omega

theorem toNat_ofInt_two_pow {L : Nat} (hL : L < 16) : (BitVec.ofInt 16 (2 ^ L)).toNat = 2 ^ L := by
  have hlt : 2 ^ L < 2 ^ 16 := Nat.pow_lt_pow_right (by norm_num) hL
  have hcast : (2 : Int) ^ L = ((2 ^ L : Nat) : Int) := by push_cast; rfl
  rw [hcast, BitVec.ofInt_natCast, BitVec.toNat_ofNat, Nat.mod_eq_of_lt hlt]

/-- What the call returns from a block of OUTBUF with the values `y` and the tag `t`, and with which state
(R189). -/
def blockResult (t : Tag) (n : Nat) (y : Nat → Cx) (u : State) : CallResult :=
  .result (((List.range n).map fun k => ((y k).re, (y k).im)).map fun p => (valueS t p.1, valueS t p.2))
    ((List.range n).map fun k => ((y k).re, (y k).im)) u

section Call

variable {K : Type} [Field K] [LinearOrder K] [FloorRing K] {s : State} {n i f : Int} {samples : List (K × K)}

/-- What the call's SETCFG leaves (R181). -/
theorem exec_setcfg_eq {t : Tag} {L : Nat} (hL : 1 ≤ L) (hL16 : L < 16) (hcap : 2 ^ L ≤ s.params.nmax)
    (hiw : t.iw ≠ 0#5) (hfw : t.fw ≠ 0#5) :
    ∃ u, exec (.setcfg (BitVec.ofInt 16 (2 ^ L)) t.iw t.fw) s = .next u ∧ u.status.lastErr = .ok ∧
      u.params = s.params ∧ u.status.busy = s.status.busy ∧ u.cfg.valid = true ∧ u.cfg.tag = t ∧
      u.cfg.size = 2 ^ L ∧ u.cfg.stages = L := by
  have htoNat := toNat_ofInt_two_pow hL16
  exact ⟨_, setcfgWritesCfg s _ t.iw t.fw L hL htoNat hcap hiw hfw, rfl, rfl, rfl, rfl, rfl, htoNat,
    Nat.mod_eq_of_lt hL16⟩

/-- The call past the host's three checks (R189). -/
theorem computeFftFixed_of_checks {L : Nat} {t : Tag} (hL : 1 ≤ L ∧ L < 16)
    (ht : t = { iw := BitVec.ofInt 5 i, fw := BitVec.ofInt 5 f }) (hw : (0 < i ∧ i < 32) ∧ 0 < f ∧ f < 32)
    (hlen : samples.length = 2 ^ L) :
    computeFftFixed (2 ^ L) samples i f s =
      checkedCommand (.setcfg (BitVec.ofInt 16 (2 ^ L)) t.iw t.fw) s fun s1 =>
        andThen (loadSamples s.params.twq t 0 samples) s1 fun s2 =>
          checkedCommand .fft s2 fun s3 => readResult (2 ^ L) t s3 := by
  have hsize : sizeInRange (2 ^ L) = true := (sizeInRange_iff _).2 ⟨L, hL.1, hL.2, rfl⟩
  have hwidths : (widthInRange i && widthInRange f) = true := by simp [widthInRange_iff, hw]
  have htoNat : ((2 : Int) ^ L).toNat = 2 ^ L := by
    rw [← Nat.cast_ofNat, ← Nat.cast_pow, Int.toNat_natCast]
  subst ht
  simp [computeFftFixed, hsize, hwidths, hlen, htoNat]

/-- The call past its SETCFG: on a configured core the samples are loaded, transformed and read (R189). -/
theorem loadThenFft_eq {t : Tag} {L : Nat} {x : Nat → Cx} (hp : s.params.wf) (hb : s.status.busy = false)
    (hv : s.cfg.valid = true) (htag : s.cfg.tag = t) (hsize : s.cfg.size = 2 ^ L) (hstages : s.cfg.stages = L)
    (hcap : 2 ^ L ≤ s.params.nmax) (hlen : samples.length = 2 ^ L)
    (hx : ∀ k v, samples[k]? = some v → x k = quantisePair s.params.twq t v) :
    ∃ u, andThen (loadSamples s.params.twq t 0 samples) s (fun s2 =>
          checkedCommand .fft s2 fun s3 => readResult (2 ^ L) t s3) =
        blockResult t (2 ^ L) (fftValues s.params.twq t L x) u ∧
      u.cfg = s.cfg ∧ blockReady u.outbuf (2 ^ L) t := by
  subst htag
  obtain ⟨s2, hload, hparams, hcfg, hb2, hin⟩ := runActions_loadSamples (j := 0) hp hb hv
    (by rwa [hlen, Nat.zero_add]) (fun k v hk => (Nat.zero_add k).symm ▸ hx k v hk)
    fun _ hj => absurd hj (Nat.not_lt_zero _)
  rw [Nat.zero_add, hlen] at hin
  have hfft := exec_fft (s := s2) (hcfg ▸ hv) (by rw [hcfg, hsize]; exact hin.blockReady)
  rw [hparams, hcfg, hsize, hstages] at hfft
  have hout := holdsBlock_allStages (q := s.params.twq) hin s2.outbuf
  rw [andThen_next hload, checkedCommand_of_ok _ rfl hb2 hfft rfl]
  exact ⟨_, readResult_eq hp hb2 hcap hout, rfl, hout.blockReady⟩

/-- A size above NMAX passes the host's checks and fails SETCFG (R182, R189). -/
theorem computeFftFixed_above_capacity (hb : s.status.busy = false) {L : Nat} (hL : 1 ≤ L ∧ L < 16)
    (hw : (0 < i ∧ i < 32) ∧ 0 < f ∧ f < 32) (hlen : samples.length = 2 ^ L) (hcap : s.params.nmax < 2 ^ L) :
    ∃ t, computeFftFixed (2 ^ L) samples i f s = .fail 1#4 t ∧ t.cfg = Cfg.unconfigured := by
  have hbad : sizeLegal s.params (BitVec.ofInt 16 (2 ^ L)).toNat = false := by
    rw [toNat_ofInt_two_pow hL.2]
    simp [sizeLegal, hcap]
  rw [computeFftFixed_of_checks hL rfl hw hlen,
    checkedCommand_of_error _ rfl hb (exec_setcfg_badSize _ _ hbad) nofun]
  exact ⟨_, rfl, rfl⟩

/-- A call that passes every check returns the transform of the quantised samples (R189). -/
theorem computeFftFixed_eq {t : Tag} {L : Nat} {x : Nat → Cx} (hp : s.params.wf) (hb : s.status.busy = false)
    (hL : 1 ≤ L) (ht : t = { iw := BitVec.ofInt 5 i, fw := BitVec.ofInt 5 f })
    (hw : (0 < i ∧ i < 32) ∧ 0 < f ∧ f < 32) (hlen : samples.length = 2 ^ L) (hcap : 2 ^ L ≤ s.params.nmax)
    (hx : ∀ k v, samples[k]? = some v → x k = quantisePair s.params.twq t v) :
    ∃ u, computeFftFixed (2 ^ L) samples i f s = blockResult t (2 ^ L) (fftValues s.params.twq t L x) u ∧
      u.configured ∧ u.cfg.size = 2 ^ L ∧ u.cfg.tag = t ∧ blockReady u.outbuf u.cfg.size t := by
  have hL16 : L < 16 := Nat.lt_succ_of_le
    (((Nat.pow_le_pow_iff_right (by norm_num)).1 hcap).trans hp.2)
  obtain ⟨s1, hset, hok, hparams, hbusy, hv, htag, hsize, hstages⟩ := exec_setcfg_eq (s := s) (t := t) hL hL16
    hcap (ht ▸ ofInt_width_ne_zero hw.1) (ht ▸ ofInt_width_ne_zero hw.2)
  obtain ⟨u, hu, hcfg, hready⟩ := loadThenFft_eq (s := s1.pollStatus) (hparams ▸ hp) (hbusy.trans hb) hv htag
    hsize hstages (hparams ▸ hcap) hlen (hparams ▸ hx)
  rw [computeFftFixed_of_checks ⟨hL, hL16⟩ ht hw hlen, checkedCommand_of_ok _ rfl hb hset hok, ← hparams]
  replace hcfg : u.cfg = s1.cfg := hcfg
  refine ⟨u, hu, ?_⟩
  rw [State.configured, hcfg, hsize, hstages]
  exact ⟨⟨hv, rfl, hL⟩, rfl, htag, hready⟩

end Call

/-- Settles O60: each failing check ends the call, and past them it loads, transforms and reads. -/
theorem computeFftFixedReturnsTheTransform : Obligations.ComputeFftFixedReturnsTheTransform := by
  intro K _ _ _ s n i f samples hp hb goodSize goodWidths
  have hsize : goodSize ↔ sizeInRange n = true := (sizeInRange_iff n).symm
  have hwidths : goodWidths ↔ (widthInRange i && widthInRange f) = true := by
    simp [goodWidths, widthInRange_iff]
  refine ⟨fun hn => ?_, fun hn hw => ?_, fun hn hw hlen => ?_, fun hn hw hlen hcap => ?_,
    fun L hL hn hw hlen hcap => ?_⟩
  · rw [hsize] at hn
    simp [computeFftFixed, hn, ErrCode.code]
  · rw [hsize] at hn
    rw [hwidths] at hw
    simp [computeFftFixed, hn, hw, ErrCode.code]
  · rw [hsize] at hn
    rw [hwidths] at hw
    simp [computeFftFixed, hn, hw, hlen, ErrCode.code]
  · obtain ⟨L, hL, hL16, rfl⟩ := hn
    exact computeFftFixed_above_capacity hb ⟨hL, hL16⟩ hw (by exact_mod_cast hlen) (by exact_mod_cast hcap)
  · intro t x
    subst hn
    refine computeFftFixed_eq hp hb hL rfl hw (by exact_mod_cast hlen) (by exact_mod_cast hcap)
      fun k v hk => ?_
    simp only [x, hk]
    rfl

end Sys2Proof.Machine
end

section
/-! PROOFS. The complex product, CMUL and BFLY (O31, O32, O33), and BFLY against STAGE (O44). -/

namespace Sys2Proof.Machine

/-! ### The complex product -/

/-- Terms that are wrapped before they are added give the same wrapped sum (R13, R143). -/
theorem fxAdd_wrap {w : Nat} (h : w ≤ 64) (x y : Int) : fxAdd w (wrap w x) (wrap w y) = wrap w (x + y) := by
  rw [fxAdd, uint_wrap h, uint_wrap h]
  exact wrap_congr (Int.add_emod _ _ _).symm

/-- Terms that are wrapped before they are subtracted give the same wrapped difference (R13, R145). -/
theorem fxSub_wrap {w : Nat} (h : w ≤ 64) (x y : Int) : fxSub w (wrap w x) (wrap w y) = wrap w (x - y) := by
  rw [fxSub, uint_wrap h, uint_wrap h]
  exact wrap_congr (Int.sub_emod _ _ _).symm

/-- The wraps of the four products do not show: the components are wrapped combinations of their floors
(R130). -/
theorem cmul_eq_wrap (t : Tag) (x y : Cx) :
    let f : Int := ((2 ^ t.frac : Nat) : Int)
    let xr := sint t.width x.re
    let xi := sint t.width x.im
    let yr := sint t.width y.re
    let yi := sint t.width y.im
    cmul t x y =
      { re := wrap t.width (xr * yr / f - xi * yi / f)
        im := wrap t.width (xr * yi / f + xi * yr / f) } := by
  have h64 : t.width ≤ 64 := t.width_le.trans (by norm_num)
  simp only [cmul, fxMul, fxSub_wrap h64, fxAdd_wrap h64]

section Floors

variable {f : Int} (hf : 0 < f)
include hf

/-- The floor of a number that lies in the two units from `q` up. -/
theorem ediv_eq_or_succ {q x : Int} (h1 : q * f ≤ x) (h2 : x < (q + 2) * f) : x / f = q ∨ x / f = q + 1 := by
  have hle : q ≤ x / f := (Int.le_ediv_iff_mul_le hf).2 h1
  have hlt : x / f < q + 2 := (Int.ediv_lt_iff_lt_mul hf).2 h2
  omega

/-- A difference of two floors (R130): strictly within one unit of the exact difference, and 0 or 1 unit
above its floor. -/
theorem ediv_sub_ediv_bounds (a b : Int) :
    |(a / f - b / f) * f - (a - b)| < f ∧
      (a / f - b / f = (a - b) / f ∨ a / f - b / f = (a - b) / f + 1) := by
  have ha : a / f * f ≤ a := Int.ediv_mul_le a hf.ne'
  have ha' : a < (a / f + 1) * f := Int.lt_ediv_add_one_mul_self a hf
  have hb : b / f * f ≤ b := Int.ediv_mul_le b hf.ne'
  have hb' : b < (b / f + 1) * f := Int.lt_ediv_add_one_mul_self b hf
  refine ⟨abs_lt.2 ⟨by linarith, by linarith⟩, ?_⟩
  have hfloor := ediv_eq_or_succ hf (q := a / f - b / f - 1) (x := a - b) (by linarith) (by linarith)
  omega

/-- A sum of two floors (R130): less than two units below the exact sum, never above, and 0 or 1 unit below
its floor. -/
theorem ediv_add_ediv_bounds (a b : Int) :
    (a / f + b / f) * f ≤ a + b ∧ a + b - (a / f + b / f) * f < 2 * f ∧
      (a / f + b / f = (a + b) / f ∨ a / f + b / f = (a + b) / f - 1) := by
  have ha : a / f * f ≤ a := Int.ediv_mul_le a hf.ne'
  have ha' : a < (a / f + 1) * f := Int.lt_ediv_add_one_mul_self a hf
  have hb : b / f * f ≤ b := Int.ediv_mul_le b hf.ne'
  have hb' : b < (b / f + 1) * f := Int.lt_ediv_add_one_mul_self b hf
  refine ⟨by linarith, by linarith, ?_⟩
  have hfloor := ediv_eq_or_succ hf (q := a / f + b / f) (x := a + b) (by linarith) (by linarith)
  omega

end Floors

/-- Settles O33: the real part is a difference of two floors and the imaginary part a sum. -/
theorem cmulWithinUnits : Obligations.CmulWithinUnits := by
  intro t x y f xr xi yr yi re im
  have hf : 0 < f := pow_cast_pos t.frac
  obtain ⟨hre, hrefloor⟩ := ediv_sub_ediv_bounds hf (xr * yr) (xi * yi)
  obtain ⟨himle, himlt, himfloor⟩ := ediv_add_ediv_bounds hf (xr * yi) (xi * yr)
  exact ⟨rfl, cmul_eq_wrap t x y, hre, hrefloor, himle, himlt, himfloor⟩

/-! ### Pairs by their values -/

/-- Both words of pair `p` carry the tag `t`, and their patterns are `c`. -/
structure State.HoldsPair (s : State) (p : PairNum) (t : Tag) (c : Cx) : Prop where
  re : s.reg (reReg p) = some { tag := t, raw := c.re }
  im : s.reg (imReg p) = some { tag := t, raw := c.im }

section Pairs

variable {s : State} {t : Tag} {p p1 p2 p3 : PairNum}

theorem State.HoldsPair.pairOperand {c : Cx} (h : s.HoldsPair p t c) :
    s.pairOperand p = .ok ({ tag := t, raw := c.re }, { tag := t, raw := c.im }) :=
  pairOperand_eq_ok.2 ⟨h.re, h.im⟩

theorem holdsPair_setPairRaw (s : State) (p : PairNum) (t : Tag) (c : Cx) :
    (s.setPairRaw p t c).HoldsPair p t c :=
  ⟨reg_setPairRaw_re _ _ _ _, reg_setPairRaw_im _ _ _ _⟩

theorem State.HoldsPair.setPairRaw_other {c : Cx} (h : s.HoldsPair p1 t c) (hp : p1 ≠ p2) (t' : Tag) (c' : Cx) :
    (s.setPairRaw p2 t' c').HoldsPair p1 t c where
  re := (reg_setPairRaw_other s t' c' (mt reReg_inj.1 hp) (reReg_ne_imReg _ _)).trans h.re
  im := (reg_setPairRaw_other s t' c' (reReg_ne_imReg _ _).symm (mt imReg_inj.1 hp)).trans h.im

/-- Two pairs written one after the other leave the registers outside both. -/
theorem wroteRegs_setPairRaw_twice_succeed (s : State) (p1 p2 : PairNum) (t : Tag) (c1 c2 : Cx) :
    wroteRegs s ((s.setPairRaw p1 t c1).setPairRaw p2 t c2).succeed
      [reReg p1, imReg p1, reReg p2, imReg p2] := by
  refine ⟨fun r hr => ?_, rfl⟩
  obtain ⟨hre1, him1, hre2, him2⟩ : r ≠ reReg p1 ∧ r ≠ imReg p1 ∧ r ≠ reReg p2 ∧ r ≠ imReg p2 := by
    simpa using hr
  exact (reg_setPairRaw_other _ t c2 hre2 him2).trans (reg_setPairRaw_other s t c1 hre1 him1)

/-- CMUL on written pairs of one tag: both checks pass (R131). -/
theorem exec_cmul {x y : Cx} (hx : s.HoldsPair p2 t x) (hy : s.HoldsPair p3 t y) :
    exec (.cmul p1 p2 p3) s = .next (s.setPairRaw p1 t (cmul t x y)).succeed := by
  simp [exec, execCmul, hx.pairOperand, hy.pairOperand, commonTag, rawPair]

/-- BFLY on written pairs of one tag: both checks pass, and the second pair's write is the later (R133). -/
theorem exec_bfly {a b w : Cx} (ha : s.HoldsPair p1 t a) (hb : s.HoldsPair p2 t b) (hw : s.HoldsPair p3 t w) :
    exec (.bfly p1 p2 p3) s =
      .next ((s.setPairRaw p1 t (bfly t a b w).1).setPairRaw p2 t (bfly t a b w).2).succeed := by
  simp [exec, execBfly, ha.pairOperand, hb.pairOperand, hw.pairOperand, commonTag, rawPair]

end Pairs

/-! ### The commands -/

/-- Settles O31: the command writes one pair, and its components are those of the product. -/
theorem cmulResult : Obligations.CmulResult := by
  intro s p1 p2 p3 t xr xi yr yi hxr hxi hyr hyi
  have hexec := exec_cmul (p1 := p1) (x := ⟨xr, xi⟩) (y := ⟨yr, yi⟩) ⟨hxr, hxi⟩ ⟨hyr, hyi⟩
  obtain ⟨hre, him⟩ := holdsPair_setPairRaw s p1 t (cmul t ⟨xr, xi⟩ ⟨yr, yi⟩)
  exact ⟨_, hexec, wroteRegs_setPairRaw_succeed _ _ _ _, hre, him⟩

/-- Settles O32: the first pair's write survives the second's where the pairs differ. -/
theorem bflyResult : Obligations.BflyResult := by
  intro s p1 p2 p3 t ar ai br bi wr wi har hai hbr hbi hwr hwi m
  have hexec := exec_bfly (a := ⟨ar, ai⟩) (b := ⟨br, bi⟩) (w := ⟨wr, wi⟩) ⟨har, hai⟩ ⟨hbr, hbi⟩ ⟨hwr, hwi⟩
  refine ⟨_, hexec, wroteRegs_setPairRaw_twice_succeed _ _ _ _ _ _, fun hp => ?_, ?_⟩
  · obtain ⟨hre, him⟩ := (holdsPair_setPairRaw s p1 t _).setPairRaw_other hp t _
    exact ⟨hre, him⟩
  · obtain ⟨hre, him⟩ := holdsPair_setPairRaw _ p2 t _
    exact ⟨hre, him⟩

/-- Settles O44: the two pairs hold the raw entries that STAGE's butterfly reads, so BFLY's words (O32) are
STAGE's (O42). -/
theorem bflyReproducesStage : Obligations.BflyReproducesStage := by
  intro s st i p1 p2 p3 hc hst hi hready hp a1 a2 w hre1 him1 hre2 him2 hwre hwim
  obtain ⟨t, hstage, -, hout⟩ := stageResult s st hc hst hready
  obtain ⟨hout1re, hout1im, hout2re, hout2im⟩ := hout i hi
  have ha2 : a2 < s.cfg.size := hc.2.1 ▸ addr2_lt hst (hc.2.1 ▸ hi)
  have hentry1 := holdsBlock_rawEntry hready a1 ((addr1_lt_addr2 _ _).trans ha2)
  have hentry2 := holdsBlock_rawEntry hready a2 ha2
  obtain ⟨u, hbfly, -, hfirst, hsecondre, hsecondim⟩ := bflyResult s p1 p2 p3 _ _ _ _ _ _ _
    (hre1.trans hentry1.re) (him1.trans hentry1.im) (hre2.trans hentry2.re) (him2.trans hentry2.im) hwre hwim
  obtain ⟨hfirstre, hfirstim⟩ := hfirst hp
  exact ⟨t, u, hstage, hbfly, hfirstre.trans hout1re.symm, hfirstim.trans hout1im.symm,
    hsecondre.trans hout2re.symm, hsecondim.trans hout2im.symm⟩

end Sys2Proof.Machine
end

section
/-! PROOFS. The fixed-point unit: its functions as operations on W-bit vectors (O28, O29), their laws (O27),
the commands (O24, O25), and the quantiser's round trip (O30). -/

namespace Sys2Proof.Machine

theorem Tag.width_le_slot (t : Tag) : t.width ≤ 64 := t.width_le.trans (by norm_num)

/-! ### Addition, subtraction and negation on W-bit vectors -/

section Words

variable {w : Nat} {a b : Word}

/-- A pattern of W bits is its low W bits, zero-extended (R31). -/
theorem setWidth_setWidth_of_masked (ha : a.toNat < 2 ^ w) : (a.setWidth w).setWidth 64 = a := by
  apply BitVec.eq_of_toNat_eq
  rw [BitVec.toNat_setWidth, BitVec.toNat_setWidth, Nat.mod_eq_of_lt ha, Nat.mod_eq_of_lt a.isLt]

/-- A pattern of W bits as a 64-bit word and back. -/
theorem setWidth_setWidth_slot (hw : w ≤ 64) (x : BitVec w) : (x.setWidth 64).setWidth w = x := by
  rw [BitVec.setWidth_setWidth_of_le x hw, BitVec.setWidth_eq]

/-- fx_add_W is the addition of the low W bits (R143). -/
theorem fxAdd_eq_setWidth_add (hw : w ≤ 64) (a b : Word) :
    fxAdd w a b = (a.setWidth w + b.setWidth w).setWidth 64 := by
  rw [fxAdd, wrap_eq_setWidth_ofInt hw, BitVec.ofInt_add]
  simp [uint]

/-- fx_neg_W is the negation of the low W bits (R147). -/
theorem fxNeg_eq_setWidth_neg (hw : w ≤ 64) (a : Word) : fxNeg w a = (-a.setWidth w).setWidth 64 := by
  have hwrap : fxNeg w a = wrap w (-uint a) :=
    wrap_congr (by rw [sub_eq_add_neg, Int.add_emod_left])
  rw [hwrap, wrap_eq_setWidth_ofInt hw, BitVec.ofInt_neg]
  simp [uint]

theorem fxAdd_comm (a b : Word) : fxAdd w a b = fxAdd w b a := by
  rw [fxAdd, fxAdd, add_comm]

theorem fxAdd_assoc (hw : w ≤ 64) (a b c : Word) :
    fxAdd w (fxAdd w a b) c = fxAdd w a (fxAdd w b c) := by
  simp only [fxAdd_eq_setWidth_add hw, setWidth_setWidth_slot hw, add_assoc]

theorem fxAdd_zero (ha : a.toNat < 2 ^ w) : fxAdd w a 0#64 = a := by
  rw [fxAdd, uint, uint, BitVec.toNat_ofNat, Nat.zero_mod, Nat.cast_zero, add_zero, ← uint, wrap_uint ha]

theorem fxAdd_fxNeg (hw : w ≤ 64) (a : Word) : fxAdd w a (fxNeg w a) = 0#64 := by
  rw [fxAdd_eq_setWidth_add hw, fxNeg_eq_setWidth_neg hw, setWidth_setWidth_slot hw, add_neg_cancel]
  exact BitVec.setWidth_zero ..

/-- Subtraction is addition of the negation (R145). -/
theorem fxSub_eq_fxAdd_fxNeg (hw : w ≤ 64) (a b : Word) : fxSub w a b = fxAdd w a (fxNeg w b) := by
  rw [fxSub_eq_setWidth_sub hw, fxAdd_eq_setWidth_add hw, fxNeg_eq_setWidth_neg hw, setWidth_setWidth_slot hw,
    BitVec.sub_eq_add_neg]

/-- Negation is the W-bit complement plus 1 (R147). -/
theorem fxNeg_eq_fxAdd_complement (hw : w ≤ 64) (a : Word) :
    fxNeg w a = fxAdd w (~~~a &&& BitVec.ofNat 64 (2 ^ w - 1)) 1#64 := by
  have hones : (BitVec.ofNat 64 (2 ^ w - 1)).setWidth w = BitVec.allOnes w :=
    (BitVec.setWidth_ofNat_of_le hw _).trans (BitVec.eq_of_toNat_eq (by simp))
  rw [fxNeg_eq_setWidth_neg hw, fxAdd_eq_setWidth_add hw, BitVec.setWidth_and, hones, BitVec.and_allOnes,
    BitVec.setWidth_not hw, BitVec.setWidth_ofNat_of_le hw, BitVec.neg_eq_not_add]

theorem fxNeg_zero (hw : w ≤ 64) : fxNeg w 0#64 = 0#64 := by
  simp [fxNeg_eq_setWidth_neg hw]

/-- The pattern at half of 2^W is its own negation (R147). -/
theorem fxNeg_eq_self (h : 2 * a.toNat = 2 ^ w) : fxNeg w a = a := by
  have hlt : a.toNat < 2 ^ w := by
    have := Nat.two_pow_pos w
    omega
  have hneg : ((2 ^ w : Nat) : Int) - uint a = uint a := by
    rw [uint]
    omega
  rw [fxNeg, hneg, wrap_uint hlt]

theorem fxNeg_fxNeg (hw : w ≤ 64) (ha : a.toNat < 2 ^ w) : fxNeg w (fxNeg w a) = a := by
  rw [fxNeg_eq_setWidth_neg hw, fxNeg_eq_setWidth_neg hw, setWidth_setWidth_slot hw, neg_neg,
    setWidth_setWidth_of_masked ha]

end Words

/-- Settles O28: on the low W bits the functions are the ring operations of W-bit vectors. -/
theorem subtractionAndNegation : Obligations.SubtractionAndNegation := by
  intro w a b hw hw62
  have hw64 : w ≤ 64 := by omega
  have hhalf : 2 * (BitVec.ofNat 64 (2 ^ (w - 1))).toNat = 2 ^ w := by
    have hlt : 2 ^ (w - 1) < 2 ^ 64 := Nat.pow_lt_pow_right one_lt_two (by omega)
    rw [BitVec.toNat_ofNat, Nat.mod_eq_of_lt hlt, ← pow_succ', Nat.sub_add_cancel hw]
  exact ⟨rfl, fxSub_eq_fxAdd_fxNeg hw64 a b, fxNeg_eq_fxAdd_complement hw64 a, rfl, fxNeg_zero hw64,
    fxNeg_eq_self hhalf, fxNeg_fxNeg hw64⟩

/-! ### The product -/

/-- sint_W in the words of bit vectors: the two's-complement reading of the low W bits (R13). -/
theorem sint_eq_toInt_setWidth {w : Nat} {a : Word} (ha : a.toNat < 2 ^ w) : sint w a = (a.setWidth w).toInt := by
  have hmsb : (a.setWidth w).msb = a.getLsbD (w - 1) := by
    rw [BitVec.msb_setWidth]
    obtain rfl | hw := Nat.eq_zero_or_pos w
    · have ha0 : a = 0#64 := BitVec.eq_of_toNat_eq (by simpa using ha)
      simp [ha0]
    · simp [hw]
  rw [BitVec.toInt_eq_msb_cond, hmsb, BitVec.toNat_setWidth, Nat.mod_eq_of_lt ha, sint]

/-- fx_mul wraps the floor of the exact quotient (R151). -/
theorem fxMul_eq_wrap_floor (t : Tag) (a b : Word) :
    fxMul t a b = wrap t.width ⌊(sint t.width a * sint t.width b : ℚ) / 2 ^ t.frac⌋ := by
  have hfloor := Rat.floor_intCast_div_natCast (sint t.width a * sint t.width b) (2 ^ t.frac)
  push_cast at hfloor
  rw [hfloor, fxMul]
  push_cast
  rfl

/-- fx_mulu wraps the floor of the exact quotient (R153). -/
theorem fxMulu_eq_wrap_floor (t : Tag) (a b : Word) :
    fxMulu t a b = wrap t.width ⌊(a.toNat * b.toNat : ℚ) / 2 ^ t.frac⌋ := by
  have hfloor := Rat.floor_intCast_div_natCast (a.toNat * b.toNat) (2 ^ t.frac)
  push_cast at hfloor
  rw [hfloor, fxMulu, uint, uint]
  push_cast
  rfl

/-- Twice the width holds the product of two W-bit numbers exactly. -/
theorem toInt_signExtend_mul_signExtend {w : Nat} (x y : BitVec w) :
    (x.signExtend (2 * w) * y.signExtend (2 * w)).toInt = x.toInt * y.toInt := by
  obtain rfl | hw := Nat.eq_zero_or_pos w
  · simp [BitVec.toInt_zero_length]
  have hle : w ≤ 2 * w := by omega
  have hpow : 2 ^ (2 * w) = 2 ^ (w * 2 - 2) * 2 ^ 2 := by
    rw [← pow_add]
    congr 1
    omega
  have hlower := BitVec.le_toInt_mul_toInt (x := x) (y := y)
  have hupper := BitVec.toInt_mul_toInt_le (x := x) (y := y)
  have hpos : (0 : Int) < 2 ^ (w * 2 - 2) := by positivity
  rw [BitVec.toInt_mul, BitVec.toInt_signExtend_of_le hle, BitVec.toInt_signExtend_of_le hle, hpow]
  apply Int.bmod_eq_of_le_mul_two
  · push_cast
    linarith
  · push_cast
    linarith

/-- A field of a vector is the floor of its two's-complement reading over a power of two, wrapped. -/
theorem extractLsb'_eq_ofInt_toInt_ediv {n w f : Nat} (h : f + w ≤ n) (x : BitVec n) :
    x.extractLsb' f w = BitVec.ofInt w (x.toInt / ((2 ^ f : Nat) : Int)) := by
  have hshift : x.extractLsb' f w = (x.sshiftRight f).setWidth w := by
    refine BitVec.eq_of_getLsbD_eq fun i hi => ?_
    have hfield : f + i < n := by omega
    rw [BitVec.getLsbD_extractLsb', BitVec.getLsbD_setWidth, BitVec.getLsbD_sshiftRight]
    simp [hi, hfield, show i < n by omega]
  have hle : w ≤ n := by omega
  rw [hshift, ← Int.shiftRight_eq_div_pow, ← BitVec.toInt_sshiftRight,
    ← BitVec.signExtend_eq_setWidth_of_le _ hle, BitVec.signExtend]

/-- Settles O29: the 2W-bit product is exact, and its field at F is its floor over 2^F. -/
theorem productKeepsMiddleBits : Obligations.ProductKeepsMiddleBits := by
  intro t a b ha hb product
  have hproduct : product.toInt = sint t.width a * sint t.width b := by
    rw [toInt_signExtend_mul_signExtend, sint_eq_toInt_setWidth ha, sint_eq_toInt_setWidth hb]
  refine ⟨hproduct, fxMul_eq_wrap_floor t a b, ?_⟩
  have hfield : t.frac + t.width ≤ 2 * t.width := by
    have := t.frac_le_width
    omega
  rw [extractLsb'_eq_ofInt_toInt_ediv hfield, hproduct, ← wrap_eq_setWidth_ofInt t.width_le_slot, fxMul]

theorem fxMul_comm (t : Tag) (a b : Word) : fxMul t a b = fxMul t b a := by
  rw [fxMul, fxMul, mul_comm]

theorem fxMul_zero (t : Tag) (a : Word) : fxMul t a 0#64 = 0#64 := by
  simp [fxMul, sint, wrap]

/-- 2^F reads as the number 1 when the sign bit lies above it (R157). -/
theorem fxMul_one {t : Tag} (ht : 2 ≤ t.iw.toNat) {a : Word} (ha : a.toNat < 2 ^ t.width) :
    fxMul t a (BitVec.ofNat 64 (2 ^ t.frac)) = a := by
  have hfrac : t.frac < t.width - 1 := by
    rw [Tag.width, Tag.frac]
    omega
  have hone : BitVec.ofNat 64 (2 ^ t.frac) = wrap t.width ((2 ^ t.frac : Nat) : Int) := by
    rw [wrap_natCast, Nat.mod_eq_of_lt (Nat.pow_lt_pow_right one_lt_two (by omega))]
  have hpos := pow_cast_pos t.frac
  have hlt : ((2 ^ t.frac : Nat) : Int) < ((2 ^ (t.width - 1) : Nat) : Int) := by
    exact_mod_cast Nat.pow_lt_pow_right one_lt_two hfrac
  rw [fxMul, hone, sint_wrap (by omega) t.width_le_slot (by omega) hlt, Int.mul_ediv_cancel _ hpos.ne',
    wrap_sint ha]

/-- Settles O27: the laws of addition hold of all words, those with an identity of masked ones; the
counterexamples are computed. -/
theorem fixedPointLaws : Obligations.FixedPointLaws := by
  refine ⟨fun t a b c ha _ _ => ?_, by decide⟩
  have hw := t.width_le_slot
  exact ⟨fxAdd_assoc hw a b c, fxAdd_comm a b, fxAdd_zero ha, fxAdd_fxNeg hw a, fxSub_eq_fxAdd_fxNeg hw a b,
    fxMul_comm t a b, fxMul_zero t a, fun ht => fxMul_one ht ha⟩

/-! ### The commands -/

section Commands

variable {s : State} {rd ra rb : Reg} {t : Tag} {a b r : Word}

/-- A two-operand command on operands of one tag writes its function's result at that tag (R144 to R155). -/
theorem finish_binary_writes {f : Tag → Word → Word → Check Word} (ha : s.reg ra = some { tag := t, raw := a })
    (hb : s.reg rb = some { tag := t, raw := b }) (hf : f t a b = .ok r) :
    ∃ u, finish s (s.binary rd ra rb f) = .next u ∧ wroteRegs s u [rd] ∧
      u.reg rd = some { tag := t, raw := r } := by
  refine ⟨_, finish_eq_next.2 (.inl ⟨_, binary_eq_ok.2 ⟨_, _, _, ha, hb, rfl, hf, rfl⟩, rfl⟩),
    wroteRegs_setReg_succeed _ _ _, ?_⟩
  rw [State.reg_succeed, State.reg_setReg_same]

/-- FXNEG on a written operand (R148). -/
theorem exec_fxneg (ha : s.reg ra = some { tag := t, raw := a }) :
    exec (.fxneg rd ra) s = .next (s.setReg rd (some { tag := t, raw := fxNeg t.width a })).succeed := by
  simp [exec, execFxneg, State.operand, ha]

end Commands

/-- Settles O24: the three functions are the operations of W-bit vectors, put through the commands' shapes. -/
theorem fxAddSubNegResults : Obligations.FxAddSubNegResults := by
  intro s rd ra rb t a b ha hb
  have hw := t.width_le_slot
  refine ⟨finish_binary_writes ha hb (congrArg _ (fxAdd_eq_setWidth_add hw a b)),
    finish_binary_writes ha hb (congrArg _ (fxSub_eq_setWidth_sub hw a b)),
    _, exec_fxneg ha, wroteRegs_setReg_succeed _ _ _, ?_⟩
  rw [State.reg_succeed, State.reg_setReg_same, fxNeg_eq_setWidth_neg hw]

/-- Settles O25: both functions wrap the floor of the quotient, put through the two-operand shape. -/
theorem fxMulResults : Obligations.FxMulResults := by
  intro s rd ra rb t a b ha hb hma hmb
  refine ⟨finish_binary_writes ha hb (congrArg _ ?_), finish_binary_writes ha hb (congrArg _ ?_)⟩
  · rw [fxMul_eq_wrap_floor, wrap_eq_setWidth_ofInt t.width_le_slot, sint_eq_toInt_setWidth hma,
      sint_eq_toInt_setWidth hmb]
  · rw [fxMulu_eq_wrap_floor, wrap_eq_setWidth_ofInt t.width_le_slot]

/-! ### The quantiser's roundings -/

section Rounding

variable {K : Type} [Field K] [LinearOrder K]

/-- What the quantiser adds before it takes the floor of a magnitude, in the field of the samples (R162). -/
def magnitudeShift (K : Type) [Field K] : Twq → K
  | .trunc => 0
  | .nearest => 1 / 2

/-- The error of a rounding, in units of the last place: below 1 under TRUNC, at most a half under NEAREST. -/
def WithinStep : Twq → K → Prop
  | .trunc, e => |e| < 1
  | .nearest, e => |e| ≤ 1 / 2

theorem WithinStep.neg {q : Twq} {e : K} (h : WithinStep q e) : WithinStep q (-e) := by
  cases q <;> simpa only [WithinStep, abs_neg] using h

variable [IsStrictOrderedRing K]

theorem WithinStep.neg_one_lt {q : Twq} {e : K} (h : WithinStep q e) : -1 < e := by
  cases q with
  | trunc => exact (abs_lt.1 h).1
  | nearest => linarith [(abs_le.1 h).1]

variable [FloorRing K]

theorem quantise_eq_wrap_floor (q : Twq) (t : Tag) {v : K} (hv : 0 ≤ v) :
    quantise q t v = wrap t.width ⌊v * 2 ^ t.frac + magnitudeShift K q⌋ := by
  cases q <;> simp [quantise, magnitudeShift, hv, abs_of_nonneg hv]

theorem quantise_eq_wrap_neg_floor (q : Twq) (t : Tag) {v : K} (hv : v < 0) :
    quantise q t v = wrap t.width (-⌊-(v * 2 ^ t.frac) + magnitudeShift K q⌋) := by
  cases q <;> simp [quantise, magnitudeShift, not_le.2 hv, abs_of_neg hv]

theorem withinStep_floor (q : Twq) (x : K) : WithinStep q (⌊x + magnitudeShift K q⌋ - x) := by
  have hle := Int.floor_le (x + magnitudeShift K q)
  have hlt := Int.lt_floor_add_one (x + magnitudeShift K q)
  cases q <;> simp only [magnitudeShift] at hle hlt ⊢
  case trunc => exact abs_lt.2 ⟨by linarith, by linarith⟩
  case nearest => exact abs_le.2 ⟨by linarith, by linarith⟩

/-- The quantiser wraps an integer within a step of the scaled number, on both sides of 0 (R162). -/
theorem exists_quantise_eq_wrap (q : Twq) (t : Tag) (v : K) :
    ∃ n : Int, quantise q t v = wrap t.width n ∧ WithinStep q ((n : K) - v * 2 ^ t.frac) := by
  obtain hv | hv := le_or_gt 0 v
  · exact ⟨_, quantise_eq_wrap_floor q t hv, withinStep_floor q _⟩
  · refine ⟨_, quantise_eq_wrap_neg_floor q t hv, ?_⟩
    have herror := (withinStep_floor q (-(v * 2 ^ t.frac))).neg
    rwa [sub_neg_eq_add, neg_add, ← Int.cast_neg, ← sub_eq_add_neg] at herror

/-- A number in the lower half of its unit is rounded down under TRUNC and NEAREST alike. -/
theorem floor_add_magnitudeShift (q : Twq) {x : K} {n : Int} (h1 : (n : K) ≤ x) (h2 : x < n + 1 / 2) :
    ⌊x + magnitudeShift K q⌋ = n := by
  rw [Int.floor_eq_iff]
  cases q <;> simp only [magnitudeShift] <;> constructor <;> linarith

/-- The source's examples (R163): every magnitude is in the lower half of its unit. -/
theorem quantise_examples (q : Twq) :
    let t : Tag := { iw := 8#5, fw := 8#5 }
    quantise q t (7 / 2 : K) = 0x0380#64 ∧ quantise q t (-7 / 2 : K) = 0xFC80#64 ∧
      quantise q t (0 : K) = 0x0000#64 ∧ quantise q t (799 / 100 : K) = 0x07FD#64 := by
  intro t
  have hfrac : t.frac = 8 := rfl
  refine ⟨?_, ?_, ?_, ?_⟩
  · rw [quantise_eq_wrap_floor q t (by norm_num), hfrac,
      floor_add_magnitudeShift q (n := 896) (by norm_num) (by norm_num)]
    decide
  · rw [quantise_eq_wrap_neg_floor q t (by norm_num), hfrac,
      floor_add_magnitudeShift q (n := 896) (by norm_num) (by norm_num)]
    decide
  · rw [quantise_eq_wrap_floor q t le_rfl, hfrac,
      floor_add_magnitudeShift q (n := 0) (by norm_num) (by norm_num)]
    decide
  · rw [quantise_eq_wrap_floor q t (by norm_num), hfrac,
      floor_add_magnitudeShift q (n := 2045) (by norm_num) (by norm_num)]
    decide

end Rounding

/-! ### The quantiser's round trip -/

section RoundTrip

variable {t : Tag} (ht : t.legal)
include ht

theorem Tag.one_le_width : 1 ≤ t.width := by
  obtain ⟨hiw, -⟩ := ht
  rw [Tag.width]
  omega

/-- The top of the signed range, in units of the last place. -/
theorem Tag.two_pow_width_pred {R : Type} [Semiring R] :
    (2 : R) ^ (t.width - 1) = 2 ^ (t.iw.toNat - 1) * 2 ^ t.frac := by
  obtain ⟨hiw, -⟩ := ht
  rw [← pow_add, Tag.width, Tag.frac]
  congr 1
  omega

/-- An integer of the signed range decodes to its quotient by 2^F (R140). -/
theorem valueS_wrap {n : Int} (h1 : -((2 ^ (t.width - 1) : Nat) : Int) ≤ n)
    (h2 : n < ((2 ^ (t.width - 1) : Nat) : Int)) : valueS t (wrap t.width n) = n / 2 ^ t.frac := by
  rw [valueS, sint_wrap (Tag.one_le_width ht) t.width_le_slot h1 h2]
  push_cast
  rfl

/-- 2^(W-1) wraps to the most negative pattern. -/
theorem valueS_wrap_top :
    valueS t (wrap t.width ((2 ^ (t.width - 1) : Nat) : Int)) = -(2 ^ (t.iw.toNat - 1)) := by
  have hpow : 2 ^ t.width = 2 ^ (t.width - 1) * 2 := by
    rw [← pow_succ, Nat.sub_add_cancel (Tag.one_le_width ht)]
  have hwrap : wrap t.width ((2 ^ (t.width - 1) : Nat) : Int) =
      wrap t.width (-((2 ^ (t.width - 1) : Nat) : Int)) := by
    refine wrap_congr (Int.emod_eq_emod_iff_emod_sub_eq_zero.2 (Int.emod_eq_zero_of_dvd ⟨1, ?_⟩))
    rw [hpow]
    push_cast
    ring
  have hpos := pow_cast_pos (t.width - 1)
  rw [hwrap, valueS_wrap ht le_rfl (by omega)]
  push_cast
  rw [Tag.two_pow_width_pred ht]
  field_simp

variable {K : Type} [Field K] [LinearOrder K] [IsStrictOrderedRing K] {v : K}

/-- A distance from the top, in units of the last place. -/
theorem Tag.top_sub_eq_mul (c : K) :
    2 ^ (t.width - 1) - c = (2 ^ (t.iw.toNat - 1) - c / 2 ^ t.frac) * 2 ^ t.frac := by
  rw [Tag.two_pow_width_pred ht, sub_mul, div_mul_cancel₀ _ (by positivity)]

theorem scaled_lt_top_sub_iff (c : K) :
    v * 2 ^ t.frac < 2 ^ (t.width - 1) - c ↔ v < 2 ^ (t.iw.toNat - 1) - c / 2 ^ t.frac := by
  rw [Tag.top_sub_eq_mul ht, mul_lt_mul_iff_left₀ (by positivity)]

theorem scaled_le_top_sub_iff (c : K) :
    v * 2 ^ t.frac ≤ 2 ^ (t.width - 1) - c ↔ v ≤ 2 ^ (t.iw.toNat - 1) - c / 2 ^ t.frac := by
  rw [Tag.top_sub_eq_mul ht, mul_le_mul_iff_left₀ (by positivity)]

variable [FloorRing K]

/-- A number that no rounding error takes out of the signed range comes back with the rounding error alone
(R163). -/
theorem exists_abs_valueS_quantise_sub {q : Twq} (hlower : -(2 ^ (t.iw.toNat - 1)) ≤ v)
    (hupper : ∀ e : K, WithinStep q e → v * 2 ^ t.frac + e < 2 ^ (t.width - 1)) :
    ∃ e : K, WithinStep q e ∧ |(valueS t (quantise q t v) : K) - v| = |e| / 2 ^ t.frac := by
  obtain ⟨n, hn, herror⟩ := exists_quantise_eq_wrap q t v
  have hpos : (0 : K) < 2 ^ t.frac := by positivity
  have hle : -((2 ^ (t.width - 1) : Nat) : Int) ≤ n := by
    have hscaled := mul_le_mul_of_nonneg_right hlower hpos.le
    rw [neg_mul, ← Tag.two_pow_width_pred ht] at hscaled
    have hlt : ((-((2 ^ (t.width - 1) : Nat) : Int) - 1 : Int) : K) < n := by
      push_cast
      linarith [herror.neg_one_lt]
    exact Int.sub_one_lt_iff.1 (Int.cast_lt.1 hlt)
  have hlt : n < ((2 ^ (t.width - 1) : Nat) : Int) := by
    have hcast := hupper _ herror
    rw [add_sub_cancel] at hcast
    exact_mod_cast hcast
  refine ⟨_, herror, ?_⟩
  rw [hn, valueS_wrap ht hle hlt, ← abs_of_pos hpos, ← abs_div, abs_of_pos hpos]
  push_cast
  rw [sub_div, mul_div_cancel_right₀ _ hpos.ne']

/-- TRUNC loses less than one unit of the last place. -/
theorem abs_valueS_quantise_trunc_sub_lt (hlower : -(2 ^ (t.iw.toNat - 1)) ≤ v)
    (hupper : v ≤ 2 ^ (t.iw.toNat - 1) - 1 / 2 ^ t.frac) :
    |(valueS t (quantise .trunc t v) : K) - v| < 1 / 2 ^ t.frac := by
  have hscaled := (scaled_le_top_sub_iff ht 1).2 hupper
  obtain ⟨e, he, habs⟩ := exists_abs_valueS_quantise_sub (q := .trunc) ht hlower
    fun e he => by linarith [(abs_lt.1 he).2]
  rw [habs]
  exact div_lt_div_of_pos_right he (by positivity)

/-- NEAREST loses at most half a unit of the last place, as long as it does not round up to the top. -/
theorem abs_valueS_quantise_nearest_sub_le (hlower : -(2 ^ (t.iw.toNat - 1)) ≤ v)
    (hupper : v < 2 ^ (t.iw.toNat - 1) - 1 / 2 / 2 ^ t.frac) :
    |(valueS t (quantise .nearest t v) : K) - v| ≤ 1 / 2 / 2 ^ t.frac := by
  have hscaled := (scaled_lt_top_sub_iff ht (1 / 2)).2 hupper
  obtain ⟨e, he, habs⟩ := exists_abs_valueS_quantise_sub (q := .nearest) ht hlower
    fun e he => by linarith [(abs_le.1 he).2]
  rw [habs]
  exact div_le_div_of_nonneg_right he (by positivity)

/-- NEAREST rounds the last half unit up to the top, which wraps. -/
theorem valueS_quantise_nearest_top (hlower : 2 ^ (t.iw.toNat - 1) - 1 / 2 / 2 ^ t.frac ≤ v)
    (hupper : v < 2 ^ (t.iw.toNat - 1)) :
    valueS t (quantise .nearest t v) = -(2 ^ (t.iw.toNat - 1)) := by
  have hge := mt (scaled_lt_top_sub_iff ht (1 / 2)).1 (not_lt.2 hlower)
  have hlt := (scaled_lt_top_sub_iff ht (v := v) 0).2 (by simpa using hupper)
  have hone : (1 : K) ≤ 2 ^ (t.width - 1) := one_le_pow₀ one_le_two
  have hscaled : 0 < v * 2 ^ t.frac := by linarith
  have hv : 0 ≤ v := (pos_of_mul_pos_left hscaled (by positivity)).le
  have hfloor : ⌊v * 2 ^ t.frac + magnitudeShift K .nearest⌋ = ((2 ^ (t.width - 1) : Nat) : Int) := by
    rw [Int.floor_eq_iff]
    simp only [magnitudeShift]
    push_cast
    constructor <;> linarith
  rw [quantise_eq_wrap_floor _ t hv, hfloor, valueS_wrap_top ht]

end RoundTrip

/-- Settles O30: below the top the rounding error is all that the round trip loses; at the top NEAREST
wraps. -/
theorem quantiserRoundTrip : Obligations.QuantiserRoundTrip := by
  intro K _ _ _ _
  refine ⟨fun t v ht hlower => ?_, fun q => quantise_examples q⟩
  have hhalf : (1 : K) / 2 ^ (t.frac + 1) = 1 / 2 / 2 ^ t.frac := by rw [pow_succ', div_div]
  rw [hhalf]
  exact ⟨abs_valueS_quantise_trunc_sub_lt ht hlower, abs_valueS_quantise_nearest_sub_le ht hlower,
    valueS_quantise_nearest_top ht⟩

end Sys2Proof.Machine
end

section
/-! PROOFS. The extractor: how large the power of a bin can be, its square root, and what SPECTRUM writes
in each mode (O48, O49). -/

namespace Sys2Proof.Machine

/-! ### The power of a bin and its root -/

/-- On the 128-bit numbers the bitwise search is the integer square root (R13). -/
theorem isqrt_eq_sqrt {n : Nat} (h : n < 2 ^ 128) : isqrt n = Nat.sqrt n := by
  obtain ⟨hle, hgreatest⟩ := isqrt_spec h
  refine Nat.eq_sqrt.2 ⟨hle, lt_of_not_ge fun hge => ?_⟩
  exact absurd (hgreatest _ hge) (Nat.not_succ_le_self _)

/-- The power is a sum of squares, so reading it as a natural number loses nothing (R171, R173). -/
theorem natCast_power (w : Nat) (c : Cx) :
    (power w c : Int) = sint w c.re * sint w c.re + sint w c.im * sint w c.im :=
  Int.toNat_of_nonneg (add_nonneg (mul_self_nonneg _) (mul_self_nonneg _))

/-- A masked pattern reads as at most half of 2^W in magnitude (R141); at width 0 it reads as 0. -/
theorem abs_two_mul_sint_le {w : Nat} {a : Word} (ha : a.toNat < 2 ^ w) : |2 * sint w a| ≤ 2 ^ w := by
  obtain rfl | hw := Nat.eq_zero_or_pos w
  · have hzero : a = 0#64 := BitVec.eq_of_toNat_eq (Nat.lt_one_iff.1 ha)
    simp [hzero, sint]
  · obtain ⟨hlower, hupper⟩ := sint_bounds hw ha
    have hpow : (2 : Int) ^ w = 2 * ((2 ^ (w - 1) : Nat) : Int) := by
      rw [Nat.cast_pow, Nat.cast_ofNat, mul_pow_sub_one hw.ne']
    rw [abs_le, hpow]
    omega

/-- Both components of the bin are masked to W bits (R31). -/
structure Cx.Masked (w : Nat) (c : Cx) : Prop where
  re : c.re.toNat < 2 ^ w
  im : c.im.toNat < 2 ^ w

section Masked

variable {w : Nat} {c : Cx} (hc : c.Masked w)
include hc

/-- Each square is at most a quarter of 2^(2W), so the power is at most half of it. -/
theorem Cx.Masked.two_mul_power_le : 2 * power w c ≤ 2 ^ w * 2 ^ w := by
  have hre := abs_le_iff_mul_self_le.1 ((abs_two_mul_sint_le hc.re).trans (le_abs_self _))
  have him := abs_le_iff_mul_self_le.1 ((abs_two_mul_sint_le hc.im).trans (le_abs_self _))
  zify
  rw [natCast_power]
  linarith

theorem Cx.Masked.power_lt_two_slots (hw : w ≤ 64) : power w c < 2 ^ 128 := by
  have hpow : 2 ^ w * 2 ^ w ≤ 2 ^ 64 * 2 ^ 64 :=
    Nat.mul_le_mul (Nat.pow_le_pow_right two_pos hw) (Nat.pow_le_pow_right two_pos hw)
  have hle := hc.two_mul_power_le
  omega

theorem Cx.Masked.power_le (hw : 1 ≤ w) :
    sint w c.re * sint w c.re + sint w c.im * sint w c.im ≤ 2 ^ (2 * w - 1) := by
  have hpow : 2 ^ w * 2 ^ w = 2 * 2 ^ (2 * w - 1) := by
    rw [mul_pow_sub_one (by omega), ← pow_add, two_mul]
  have hle := hc.two_mul_power_le
  have hpower : power w c ≤ 2 ^ (2 * w - 1) := by omega
  rw [← natCast_power]
  exact_mod_cast hpower

/-- The search finds the floor of the magnitude (R171). -/
theorem Cx.Masked.isqrt_power_bounds (hw : w ≤ 64) :
    (isqrt (power w c) * isqrt (power w c) : Int) ≤ sint w c.re * sint w c.re + sint w c.im * sint w c.im ∧
      sint w c.re * sint w c.re + sint w c.im * sint w c.im <
        (isqrt (power w c) + 1) * (isqrt (power w c) + 1) := by
  rw [isqrt_eq_sqrt (hc.power_lt_two_slots hw), ← natCast_power]
  exact ⟨mod_cast Nat.sqrt_le _, mod_cast Nat.lt_succ_sqrt _⟩

/-- The magnitude fits W bits (R171). -/
theorem Cx.Masked.isqrt_power_lt (hw : w ≤ 64) : isqrt (power w c) < 2 ^ w := by
  have hpos : 0 < 2 ^ w * 2 ^ w := by positivity
  have hle := hc.two_mul_power_le
  rw [isqrt_eq_sqrt (hc.power_lt_two_slots hw), Nat.sqrt_lt]
  omega

/-- The two words of POWER hold the halves of the power, and nothing of it lies above them (R173). -/
theorem Cx.Masked.power_halves (hw : w ≤ 64) :
    ((BitVec.ofNat 64 (power w c)).toNat + 2 ^ 64 * (BitVec.ofNat 64 (power w c / 2 ^ 64)).toNat : Int) =
      sint w c.re * sint w c.re + sint w c.im * sint w c.im := by
  have hlt := hc.power_lt_two_slots hw
  rw [← natCast_power]
  simp only [BitVec.toNat_ofNat]
  omega

end Masked

/-! ### The words of a bin, mode by mode -/

theorem binWords_mag (w : Nat) (c : Cx) :
    binWords 0#2 w c = (BitVec.ofNat 64 (isqrt (power w c)), 0#64) := rfl

theorem binWords_real (w : Nat) (c : Cx) : binWords 1#2 w c = (c.re, 0#64) := rfl

theorem binWords_power (w : Nat) (c : Cx) :
    binWords 2#2 w c = (BitVec.ofNat 64 (power w c), BitVec.ofNat 64 (power w c / 2 ^ 64)) := rfl

/-! ### The command -/

section Command

variable {s : State} (hv : s.cfg.valid = true) (h : blockReady s.outbuf (s.cfg.size / 2) s.cfg.tag)
include h

/-- The entries that SPECTRUM reads are masked to CFG's width, which is their tag's. -/
theorem masked_rawEntry_of_ready (hm : s.AllMasked) {k : Nat} (hk : k < s.cfg.size / 2) :
    (s.outbuf.rawEntry k).Masked s.cfg.tag.width := by
  obtain ⟨hre, him⟩ := holdsBlock_rawEntry h k hk
  exact ⟨of_decide_eq_true (hm.outbuf _ (Memory.get_mem hre)),
    of_decide_eq_true (hm.outbuf _ (Memory.get_mem him))⟩

include hv

/-- In a legal mode SPECTRUM completes and leaves in bins 0 to N/2 - 1 the words of the mode (R174). -/
theorem exists_exec_spectrum_writes {mode : BitVec 2} (hmode : legalMode mode = true) :
    ∃ t, exec (.spectrum mode) s = .next t ∧ wroteSpec s t (s.cfg.size / 2) ∧
      ∀ k, k < s.cfg.size / 2 →
        t.spec.get (reSlot k) = some (binWords mode s.cfg.tag.width (s.outbuf.rawEntry k)).1 ∧
        t.spec.get (imSlot k) = some (binWords mode s.cfg.tag.width (s.outbuf.rawEntry k)).2 := by
  have hexec : exec (.spectrum mode) s = .next { s with
      spec := spectrumBody mode s.cfg.tag.width s.cfg.size s.outbuf s.spec }.succeed := by
    simp [exec, execSpectrum, State.config, hmode, hv, checkBlock_of_ready h]
  obtain ⟨hbins, hother⟩ := get_spectrumBody mode s.cfg.tag.width s.cfg.size s.outbuf s.spec
  exact ⟨_, hexec, ⟨fun k hk => hother k (by omega), rfl⟩, hbins⟩

end Command

/-- Settles O48: MAG writes the square root of the power, which is less than 2^W since the power is less
than 2^(2W); REAL copies the real pattern. -/
theorem spectrumMagAndReal : Obligations.SpectrumMagAndReal := by
  intro s hv hready hmasked
  constructor
  · obtain ⟨t, hexec, hwrote, hbins⟩ := exists_exec_spectrum_writes (mode := 0#2) hv hready (by decide)
    refine ⟨t, hexec, hwrote, fun k hk => ?_⟩
    have hc := masked_rawEntry_of_ready hready hmasked hk
    have hw := s.cfg.tag.width_le_slot
    obtain ⟨hlo, hhi⟩ := hbins k hk
    rw [binWords_mag] at hlo hhi
    exact ⟨_, hlo, hhi, hc.isqrt_power_bounds hw, Nat.le_sub_one_of_lt (hc.isqrt_power_lt hw)⟩
  · simpa only [binWords_real, Memory.rawEntry] using exists_exec_spectrum_writes (mode := 1#2) hv hready (by decide)

/-- Settles O49: the power is at most 2^(2W-1), so its two halves fit the two words. -/
theorem spectrumPower : Obligations.SpectrumPower := by
  intro s hv hready hmasked hlegal
  obtain ⟨t, hexec, hwrote, hbins⟩ := exists_exec_spectrum_writes (mode := 2#2) hv hready (by decide)
  refine ⟨t, hexec, hwrote, fun k hk => ?_⟩
  have hc := masked_rawEntry_of_ready hready hmasked hk
  obtain ⟨hlo, hhi⟩ := hbins k hk
  rw [binWords_power] at hlo hhi
  exact ⟨_, _, hlo, hhi, hc.power_halves s.cfg.tag.width_le_slot, hc.power_le (Tag.one_le_width hlegal)⟩

end Sys2Proof.Machine
end

section
/-! PROOFS. NOP (O19), the failed SETCFG (O21), LDC and STC (O22, O23), and the error that a command reports
(O15). -/

namespace Sys2Proof.Machine

/-! ### NOP -/

theorem decodeWord_eq_nop {c : CmdWord} : decodeWord c = .ok .nop ↔ c = 0x00000000#32 := by
  constructor
  · intro h
    exact (encode_of_decodeWord h).2.symm
  · rintro rfl
    exact decodeWord_encode (i := .nop) rfl

/-- Settles O19: NOP's word is all 0, and its must-be-0 field refuses every other word of its opcode. -/
theorem nopOnlyClearsLasterr : Obligations.NopOnlyClearsLasterr := by
  refine ⟨fun s => rfl, fun c => decodeWord_eq_nop, fun c s hop hc => ?_⟩
  have hdecode : decodeWord c = zeroChecked c 0 26 .nop := by
    rw [decodeWord, hop]
    rfl
  have hfield : bits c 0 26 ≠ 0#26 := fun h =>
    hc (decodeWord_eq_nop.1 (hdecode.trans (zeroChecked_of_zero h _)))
  obtain ⟨e, he⟩ := zeroChecked_eq_error.2 hfield
  exact issue_of_error ((decodeData_zeroExtend c).trans (hdecode.trans he))

/-! ### The failed SETCFG -/

theorem exec_setcfg_badWidth {s : State} {n : BitVec 16} {iw fw : BitVec 5}
    (hn : sizeLegal s.params n.toNat = true) (hw : iw = 0#5 ∨ fw = 0#5) :
    exec (.setcfg n iw fw) s = .next ({ s with cfg := Cfg.unconfigured }.raise .invalidWidth) := by
  have hwidth : (iw != 0#5 && fw != 0#5) = false := by
    obtain rfl | rfl := hw
    · rfl
    · exact Bool.and_false _
  simp [exec, execSetcfg, hn, hwidth]

theorem exec_fft_unconfigured {s : State} (h : s.cfg.valid = false) :
    exec .fft s = .next (s.raise .notConfigured) := by
  simp [exec, execFft, State.config, h]

/-- Settles O21: either check's failure raises its code on the state with CFG cleared. -/
theorem failedSetcfgUnconfigures : Obligations.FailedSetcfgUnconfigures := by
  intro s n iw fw badSize h
  have hfft (e : ErrCode) := exec_fft_unconfigured (s := { s with cfg := Cfg.unconfigured }.raise e) rfl
  by_cases hbad : badSize
  · have hn : sizeLegal s.params n.toNat = false := Bool.eq_false_iff.2 (mt sizeLegal_iff.1 hbad)
    exact ⟨.invalidSize, _, _, fun _ => rfl, absurd hbad, exec_setcfg_badSize iw fw hn, rfl, hfft _, rfl, rfl⟩
  · have hn : sizeLegal s.params n.toNat = true := sizeLegal_iff.2 (not_not.1 hbad)
    exact ⟨.invalidWidth, _, _, (absurd · hbad), fun _ => rfl,
      exec_setcfg_badWidth hn (h.resolve_left hbad), rfl, hfft _, rfl, rfl⟩

/-! ### LDC and STC -/

section Entries

variable {s : State} {b : BufSel} {j : BitVec 16} {x y : TWord}

/-- LDC with CFG valid on a written entry below N: its three checks pass (R183). -/
theorem exec_ldc (p : PairNum) (hv : s.cfg.valid = true) (hj : j.toNat < s.cfg.size)
    (hx : (s.buffer b).get (reSlot j.toNat) = some x) (hy : (s.buffer b).get (imSlot j.toNat) = some y) :
    exec (.ldc p b j) s = .next (s.setPair p (some x) (some y)).succeed := by
  simp [exec, execLdc, State.config, hv, hj, writtenPair_eq_ok (x := (x, y)) |>.2 ⟨hx, hy⟩]

/-- STC with CFG valid on a written pair of one tag and an entry below N: its four checks pass (R184). -/
theorem exec_stc {p : PairNum} (b : BufSel) (hv : s.cfg.valid = true) (hj : j.toNat < s.cfg.size)
    (hx : s.reg (reReg p) = some x) (hy : s.reg (imReg p) = some y) (ht : x.tag = y.tag) :
    exec (.stc p b j) s =
      .next (s.setBuffer b ((s.buffer b).putEntry j.toNat (some x) (some y))).succeed := by
  simp [exec, execStc, State.config, hv, hj, pairOperand_eq_ok (x := (x, y)) |>.2 ⟨hx, hy⟩, commonTag, ht]

end Entries

theorem wroteRegs_setPair_succeed (s : State) (p : PairNum) (re im : Option TWord) :
    wroteRegs s (s.setPair p re im).succeed [reReg p, imReg p] := by
  refine ⟨fun r hr => ?_, rfl⟩
  obtain ⟨hre, him⟩ : r ≠ reReg p ∧ r ≠ imReg p := by simpa using hr
  exact State.reg_setPair_other s re im hre him

/-- Settles O22: the checks pass, and the write of a pair leaves the other registers. -/
theorem ldcLoadsEntry : Obligations.LdcLoadsEntry := by
  intro s p b j x y hv hj hx hy
  exact ⟨_, exec_ldc p hv hj hx hy, State.reg_setPair_re s p _ _, State.reg_setPair_im s p _ _,
    wroteRegs_setPair_succeed s p _ _⟩

theorem State.buffer_succeed (s : State) (b : BufSel) : s.succeed.buffer b = s.buffer b := by
  cases b <;> rfl

theorem State.succeed_setBuffer (s : State) (b : BufSel) (m : Memory TWord) :
    (s.setBuffer b m).succeed = { s.setBuffer b m with status := { s.status with lastErr := .ok } } := by
  cases b <;> rfl

/-- Settles O23: the checks pass, and the write of an entry leaves the other slots. -/
theorem stcStoresEntry : Obligations.StcStoresEntry := by
  intro s p b j x y hv hj hx hy ht
  refine ⟨_, exec_stc b hv hj hx hy ht, ?_⟩
  rw [State.buffer_succeed, State.buffer_setBuffer_same]
  exact ⟨(Memory.get_putEntry_some_re _ _ _ _ _).trans (if_pos rfl),
    (Memory.get_putEntry_some_im _ _ _ _ _).trans (if_pos rfl),
    Memory.get_putEntry_some_other _ _ _ _, State.succeed_setBuffer s b _⟩

/-! ### The errors of a check, in their order -/

/-- The check raises the code of the first condition that holds, and succeeds if none does: what `reports`
says of the code in LASTERR, said of a check (R202). -/
def RaisesFirst {α : Type} (r : Check α) : List (ErrCode × Prop) → Prop
  | [] => ∃ a, r = .ok a
  | (e, p) :: rest => (p ∧ r = .error e) ∨ (¬ p ∧ RaisesFirst r rest)

namespace RaisesFirst

variable {α β : Type} {x : Check α} {f : α → Check β} {c : ErrCode × Prop} {cs ds : List (ErrCode × Prop)}
  {e : ErrCode} {p q : Prop}

theorem pure {a : α} : RaisesFirst (pure a) [] := ⟨a, rfl⟩

/-- A check for one condition. -/
theorem single (herror : p → x = .error e) (hok : ¬ p → ∃ a, x = .ok a) : RaisesFirst x [(e, p)] := by
  by_cases h : p
  · exact .inl ⟨h, herror h⟩
  · exact .inr ⟨h, hok h⟩

theorem require {b : Bool} (h : b = true ↔ ¬ p) : RaisesFirst (require b e) [(e, p)] :=
  single (fun hp => require_eq_error.2 ⟨Bool.eq_false_iff.2 fun hb => h.1 hb hp, rfl⟩)
    fun hp => ⟨(), require_eq_ok.2 (h.2 hp)⟩

theorem require_lt {a b : Nat} : RaisesFirst (Machine.require (decide (a < b)) e) [(e, b ≤ a)] :=
  require (by rw [decide_eq_true_eq, not_le])

/-- One check after another: the conditions of the second follow those of the first. -/
theorem bind (hx : RaisesFirst x cs) (hf : ∀ a, x = .ok a → RaisesFirst (f a) ds) :
    RaisesFirst (x >>= f) (cs ++ ds) := by
  induction cs with
  | nil =>
    obtain ⟨a, rfl⟩ := hx
    exact hf a rfl
  | cons c cs ih =>
    obtain ⟨hp, rfl⟩ | ⟨hp, hx⟩ := hx
    · exact .inl ⟨hp, rfl⟩
    · exact .inr ⟨hp, ih hx⟩

theorem bind_one (hx : RaisesFirst x [c]) (hf : ∀ a, x = .ok a → RaisesFirst (f a) ds) :
    RaisesFirst (x >>= f) (c :: ds) :=
  bind hx hf

theorem bind_pure {g : α → β} (hx : RaisesFirst x cs) : RaisesFirst (x >>= fun a => Pure.pure (g a)) cs :=
  List.append_nil cs ▸ bind hx fun _ _ => pure

/-- Two checks in a row for one code are one check for either condition. -/
theorem merge (h : RaisesFirst x ((e, p) :: (e, q) :: ds)) : RaisesFirst x ((e, p ∨ q) :: ds) := by
  obtain ⟨hp, hx⟩ | ⟨hp, ⟨hq, hx⟩ | ⟨hq, hx⟩⟩ := h
  · exact .inl ⟨.inl hp, hx⟩
  · exact .inl ⟨.inr hq, hx⟩
  · exact .inr ⟨not_or.2 ⟨hp, hq⟩, hx⟩

/-- A command or a host data write reports what its check raises (R203). -/
theorem conclude {s : State} {r : Check State} (h : RaisesFirst r cs) :
    reports (s.conclude r).status.lastErr cs := by
  induction cs with
  | nil =>
    obtain ⟨t, rfl⟩ := h
    rfl
  | cons c cs ih =>
    obtain ⟨hp, rfl⟩ | ⟨hp, h⟩ := h
    · exact .inl ⟨hp, rfl⟩
    · exact .inr ⟨hp, ih h⟩

end RaisesFirst

theorem reports_of_finish {s t : State} {r : Check State} {cs : List (ErrCode × Prop)}
    (ht : finish s r = .next t) (h : RaisesFirst r cs) : reports t.status.lastErr cs :=
  Host.Outcome.next.inj ht ▸ h.conclude

/-! ### The shared checks -/

section Checks

variable {s : State}

theorem config_raisesFirst : RaisesFirst s.config [configCondition s] :=
  .single (fun h => config_eq_error.2 ⟨h, rfl⟩)
    fun h => ⟨s.cfg, config_eq_ok.2 ⟨Bool.not_eq_false _ ▸ h, rfl⟩⟩

/-- A command that needs CFG goes on with the CFG of the state (R25). -/
theorem config_bind_raisesFirst {β : Type} {f : Cfg → Check β} {ds : List (ErrCode × Prop)}
    (hf : RaisesFirst (f s.cfg) ds) : RaisesFirst (s.config >>= f) (configCondition s :: ds) :=
  config_raisesFirst.bind_one fun c hc => by
    obtain ⟨-, rfl⟩ := config_eq_ok.1 hc
    exact hf

theorem writtenPair_raisesFirst {re im : Option TWord} :
    RaisesFirst (writtenPair re im) [(.uninitializedOperand, re = none ∨ im = none)] := by
  refine .single (fun h => writtenPair_eq_error.2 ⟨h, rfl⟩) fun h => ?_
  obtain ⟨⟨a, ha⟩, ⟨b, hb⟩⟩ := (not_or.1 h).imp Option.ne_none_iff_exists'.1 Option.ne_none_iff_exists'.1
  exact ⟨(a, b), writtenPair_eq_ok.2 ⟨ha, hb⟩⟩

theorem someEmpty_append (rs rs' : List Reg) : someEmpty s (rs ++ rs') ↔ someEmpty s rs ∨ someEmpty s rs' := by
  simp only [someEmpty, List.mem_append, or_and_right, exists_or]

theorem operand_raisesFirst (r : Reg) :
    RaisesFirst (s.operand r) [(.uninitializedOperand, someEmpty s [r])] := by
  simp only [someEmpty, List.mem_singleton, exists_eq_left]
  exact .single (fun h => written_eq_error.2 ⟨h, rfl⟩)
    fun h => (Option.ne_none_iff_exists'.1 h).imp fun _ => written_eq_ok.2

theorem pairOperand_raisesFirst (p : PairNum) :
    RaisesFirst (s.pairOperand p) [(.uninitializedOperand, someEmpty s (pairRegs p))] := by
  simp only [someEmpty, pairRegs, List.mem_cons, List.not_mem_nil, or_false, exists_eq_or_imp, exists_eq_left]
  exact writtenPair_raisesFirst

/-- Operands read one after the other are checked as one list (R30). -/
theorem operands_bind_raisesFirst {α β : Type} {x : Check α} {f : α → Check β} {rs rs' : List Reg}
    {ds : List (ErrCode × Prop)} (hx : RaisesFirst x [(.uninitializedOperand, someEmpty s rs)])
    (hf : ∀ a, x = .ok a → RaisesFirst (f a) ((.uninitializedOperand, someEmpty s rs') :: ds)) :
    RaisesFirst (x >>= f) ((.uninitializedOperand, someEmpty s (rs ++ rs')) :: ds) := by
  rw [someEmpty_append]
  exact (hx.bind_one hf).merge

/-- Among registers that hold words, tags differ exactly if one differs from the first. -/
theorem tagsDiffer_iff {rs : List Reg} {w : TWord} {ws : List TWord}
    (h : rs.map s.reg = (w :: ws).map some) : tagsDiffer s rs ↔ ∃ x ∈ ws, x.tag ≠ w.tag := by
  have held (x : TWord) : (∃ r ∈ rs, s.reg r = some x) ↔ x ∈ w :: ws := by
    rw [← List.mem_map, h, List.mem_map_of_injective (Option.some_injective _)]
  constructor
  · rintro ⟨r, hr, r', hr', a, b, ha, hb, hab⟩
    by_contra! hall
    have first (x : TWord) (hx : x ∈ w :: ws) : x.tag = w.tag := (List.mem_cons.1 hx).elim (· ▸ rfl) (hall x)
    exact hab ((first a ((held a).1 ⟨r, hr, ha⟩)).trans (first b ((held b).1 ⟨r', hr', hb⟩)).symm)
  · rintro ⟨x, hx, hne⟩
    obtain ⟨r, hr, hrx⟩ := (held x).2 (List.mem_cons_of_mem _ hx)
    obtain ⟨r', hr', hrw⟩ := (held w).2 List.mem_cons_self
    exact ⟨r, hr, r', hr', x, w, hrx, hrw, hne⟩

theorem commonTag_raisesFirst {rs : List Reg} {w : TWord} {ws : List TWord}
    (h : rs.map s.reg = (w :: ws).map some) :
    RaisesFirst (commonTag w ws) [(.widthMismatch, tagsDiffer s rs)] := by
  rw [tagsDiffer_iff h]
  refine .single (fun hne => commonTag_eq_error.2 ⟨hne, rfl⟩) fun hne => ?_
  exact ⟨w.tag, commonTag_eq_ok.2 ⟨by simpa using hne, rfl⟩⟩

/-- The operand checks of a two-operand command, then those of its function (R155). -/
theorem binary_raisesFirst {rd ra rb : Reg} {f : Tag → Word → Word → Check Word}
    {ds : List (ErrCode × Prop)}
    (hf : ∀ a b, s.reg ra = some a → s.reg rb = some b → RaisesFirst (f a.tag a.raw b.raw) ds) :
    RaisesFirst (s.binary rd ra rb f) (operandConditions s [ra, rb] ++ ds) := by
  refine operands_bind_raisesFirst (rs := [ra]) (operand_raisesFirst ra) fun a ha => ?_
  refine (operand_raisesFirst rb).bind_one fun b hb => ?_
  have ha := written_eq_ok.1 ha
  have hb := written_eq_ok.1 hb
  refine (commonTag_raisesFirst (rs := [ra, rb]) (by simp [ha, hb])).bind_one fun t ht => ?_
  obtain ⟨-, rfl⟩ := commonTag_eq_ok.1 ht
  exact (hf a b ha hb).bind_pure

theorem fxSubu_raisesFirst (checked : Bool) (w : Nat) (a b : Word) :
    RaisesFirst (fxSubu checked w a b) [(.underflow, checked = true ∧ a.toNat < b.toNat)] := by
  refine .single (fun ⟨hc, hlt⟩ => hc ▸ fxSubu_eq_error hlt) fun h => ⟨_, fxSubu_eq_ok ?_⟩
  obtain hc | hle := not_and_or.1 h
  · exact .inr (Bool.eq_false_iff.2 hc)
  · exact .inl (not_lt.1 hle)

theorem allWritten_iff {m : Memory TWord} {n : Nat} : m.allWritten n = true ↔ ¬ ∃ j < n, entryEmpty m j := by
  simp [allWritten_eq_true, entryEmpty]

/-- In a block whose words are all written, a tag differs exactly if an entry is foreign. -/
theorem allTagged_iff {m : Memory TWord} {n : Nat} {t : Tag} (h : m.allWritten n = true) :
    m.allTagged n t = true ↔ ¬ ∃ j < n, entryForeign t m j := by
  simp only [allTagged_eq_true, not_exists, not_and]
  refine forall₂_congr fun j hj => ?_
  obtain ⟨⟨x, hx⟩, ⟨y, hy⟩⟩ := (allWritten_eq_true.1 h j hj).imp Option.ne_none_iff_exists'.1
    Option.ne_none_iff_exists'.1
  simp [entryForeign, hasTag, hx, hy]

theorem checkBlock_raisesFirst {m : Memory TWord} {n : Nat} {t : Tag} :
    RaisesFirst (checkBlock m n t) (blockConditions m n t) :=
  (RaisesFirst.require allWritten_iff).bind_one fun _ h => .require (allTagged_iff (require_eq_ok.1 h))

end Checks

/-! ### The error a command reports -/

theorem exec_reports {i : Instr} {s t : State} (h : exec i s = .next t) :
    reports t.status.lastErr (errorConditions s i) := by
  cases i with
  | nop => exact reports_of_finish h .pure
  | setcfg n iw fw =>
    exact reports_of_finish h (.bind_one (.require (by rw [sizeLegal_iff, not_not]))
      fun _ _ => (RaisesFirst.require (by simp)).bind_pure)
  | fxadd | fxsub | fxmul | fxmulu =>
    exact reports_of_finish h (binary_raisesFirst fun _ _ _ _ => .pure)
  | fxsubu rd ra rb =>
    refine reports_of_finish h (binary_raisesFirst fun a b ha hb => ?_)
    simp only [ha, hb, Option.some.injEq, exists_and_left, exists_eq_left']
    exact fxSubu_raisesFirst _ _ _ _
  | fxneg rd ra => exact reports_of_finish h (operand_raisesFirst ra).bind_pure
  | cmul p1 p2 p3 =>
    refine reports_of_finish h (operands_bind_raisesFirst (pairOperand_raisesFirst p2) fun x hx =>
      (pairOperand_raisesFirst p3).bind_one fun y hy => (commonTag_raisesFirst ?_).bind_pure)
    simp [pairRegs, pairOperand_eq_ok.1 hx, pairOperand_eq_ok.1 hy]
  | bfly p1 p2 p3 =>
    rw [errorConditions, List.append_assoc]
    refine reports_of_finish h (operands_bind_raisesFirst (pairOperand_raisesFirst p1) fun a ha =>
      operands_bind_raisesFirst (pairOperand_raisesFirst p2) fun b hb =>
      (pairOperand_raisesFirst p3).bind_one fun w hw => (commonTag_raisesFirst ?_).bind_pure)
    simp [pairRegs, pairOperand_eq_ok.1 ha, pairOperand_eq_ok.1 hb, pairOperand_eq_ok.1 hw]
  | bitrev w j =>
    rw [errorConditions, ← or_assoc]
    refine reports_of_finish h (.merge (.bind_one (.require ?_) fun _ _ => RaisesFirst.require_lt.bind_pure))
    simp only [Bool.and_eq_true, decide_eq_true_eq]
    omega
  | addrgen st i =>
    exact reports_of_finish h (config_bind_raisesFirst
      (.merge (.bind_one .require_lt fun _ _ => RaisesFirst.require_lt.bind_pure)))
  | twid p k =>
    exact reports_of_finish h (config_bind_raisesFirst RaisesFirst.require_lt.bind_pure)
  | ldc p b j =>
    exact reports_of_finish h (config_bind_raisesFirst (.bind_one .require_lt
      fun _ _ => writtenPair_raisesFirst.bind_pure))
  | stc p b j =>
    refine reports_of_finish h (config_bind_raisesFirst (.bind_one .require_lt fun _ _ =>
      (pairOperand_raisesFirst p).bind_one fun x hx => (commonTag_raisesFirst ?_).bind_pure))
    simp [pairRegs, pairOperand_eq_ok.1 hx]
  | permute | fft => exact reports_of_finish h (config_bind_raisesFirst checkBlock_raisesFirst.bind_pure)
  | stage st =>
    exact reports_of_finish h (config_bind_raisesFirst (.bind_one .require_lt
      fun _ _ => checkBlock_raisesFirst.bind_pure))
  | spectrum mode =>
    exact reports_of_finish h (.bind_one (.require (by simp [legalMode]))
      fun _ _ => config_bind_raisesFirst checkBlock_raisesFirst.bind_pure)

theorem dataWrite_reports (s : State) (d : Word) (store : TWord → State) :
    reports (s.dataWrite d store).status.lastErr [configCondition s] :=
  config_raisesFirst.bind_pure.conclude

/-- Settles O15: each command's checks, one after the other, are those of its row of R201. -/
theorem commandsReportTheFirstError : Obligations.CommandsReportTheFirstError :=
  ⟨fun _ _ _ => exec_reports, fun s d => ⟨fun _ => dataWrite_reports s d _, fun _ => dataWrite_reports s d _,
    fun _ => dataWrite_reports s d _⟩⟩

end Sys2Proof.Machine
end

section
/-! PROOFS. The idle step (O7), what a failure leaves (O13) and how it is reported (O14). -/

namespace Sys2Proof.Machine

/-! ### The idle step -/

/-- Settles O7: with no action pending a transition answers the state it began in. -/
theorem idleCoreHoldsItsState : Obligations.IdleCoreHoldsItsState := by
  intro s h
  rw [step, transition, h]

/-! ### How every command ends -/

/-- The state that a command's failure is raised on: for SETCFG the one with CFG cleared (R182, R204). -/
def State.onFailure (s : State) (i : Instr) : State :=
  if i.isSetcfg then { s with cfg := Cfg.unconfigured } else s

theorem State.onFailure_status (s : State) (i : Instr) : (s.onFailure i).status = s.status := by
  unfold State.onFailure
  split <;> rfl

/-- Every command ends as R203 says, and its body does not touch STATUS. -/
theorem exec_eq_conclude (i : Instr) (s : State) :
    ∃ r, exec i s = .next ((s.onFailure i).conclude r) ∧ Ensures r fun u => u.status = s.status := by
  cases i with
  | nop => exact ⟨_, rfl, .pure rfl⟩
  | fxadd | fxsub | fxmul | fxsubu | fxmulu => exact ⟨_, rfl, .binary fun _ => rfl⟩
  | fxneg => exact ⟨_, rfl, .bind fun _ _ => .pure rfl⟩
  | setcfg | bitrev | twid | permute | fft => exact ⟨_, rfl, .bind fun _ _ => .bind fun _ _ => .pure rfl⟩
  | cmul | addrgen | ldc | stage | spectrum =>
    exact ⟨_, rfl, .bind fun _ _ => .bind fun _ _ => .bind fun _ _ => .pure rfl⟩
  | bfly =>
    exact ⟨_, rfl, .bind fun _ _ => .bind fun _ _ => .bind fun _ _ => .bind fun _ _ => .pure rfl⟩
  | stc =>
    exact ⟨_, rfl, .bind fun _ _ => .bind fun _ _ => .bind fun _ _ => .bind fun _ _ =>
      .pure (State.setBuffer_status _ _ _)⟩

/-! ### A failure changes only STATUS -/

theorem conclude_of_lastErr_ne_ok {s : State} {r : Check State} (h : (s.conclude r).status.lastErr ≠ .ok) :
    s.conclude r = { s with status := (s.conclude r).status } := by
  cases r with
  | ok u => exact absurd rfl h
  | error e => rfl

theorem exec_of_lastErr_ne_ok {i : Instr} {s t : State} (h : exec i s = .next t)
    (hne : t.status.lastErr ≠ .ok) : t = { s.onFailure i with status := t.status } := by
  obtain ⟨r, hr, -⟩ := exec_eq_conclude i s
  obtain rfl := Host.Outcome.next.inj (hr.symm.trans h)
  exact conclude_of_lastErr_ne_ok hne

/-- A data write fails as a command does, and every other write changes at most STATUS (R27, R54, R186). -/
theorem writeLocation_of_lastErr_ne_ok {s : State} {d : Word} {loc : Location}
    (h : (s.writeLocation d loc).status.lastErr ≠ .ok) :
    s.writeLocation d loc = { s with status := (s.writeLocation d loc).status } := by
  cases loc with
  | v | inbuf | outbuf => exact conclude_of_lastErr_ne_ok h
  | status =>
    rw [writeLocation_status]
    split <;> rfl
  | cmd | cfg | res0 | res1 | res2 | vtag | spec | reserved => rfl

/-- Settles O13: each command, illegal word and data write ends as R203 says, and a failure raises its
code on the state it began in, or for SETCFG on that state with CFG cleared. -/
theorem failingCommandChangesOnlyStatus : Obligations.FailingCommandChangesOnlyStatus := by
  refine ⟨fun i s t h hne => ?_, fun s d e he => ⟨_, issue_of_error he, rfl⟩,
    fun s d loc => writeLocation_of_lastErr_ne_ok⟩
  calc
    t = { s.onFailure i with status := t.status } := exec_of_lastErr_ne_ok h hne
    _ = _ := apply_ite (fun u : State => { u with status := t.status }) _ _ _

/-! ### Errors are reported in STATUS -/

/-- The report of R203 on what began in `s` and ended in `t`: LASTERR takes the outcome, FIRSTERR takes a
code if it was 0. -/
def Reported (s t : State) : Prop :=
  t.status.busy = s.status.busy ∧
    ((t.status.lastErr = .ok ∧ t.status.firstErr = s.status.firstErr) ∨
      (t.status.lastErr ≠ .ok ∧
        t.status.firstErr = if s.status.firstErr = .ok then t.status.lastErr else s.status.firstErr))

namespace Reported

variable {s s₀ u : State}

theorem succeed (h : u.status = s.status) : Reported s u.succeed :=
  ⟨u.succeed_busy.trans (congrArg _ h), .inl ⟨rfl, u.succeed_firstErr.trans (congrArg _ h)⟩⟩

/-- Raising the code 0 would report a success. -/
theorem raise (h : s₀.status = s.status) (e : ErrCode) : Reported s (s₀.raise e) := by
  refine ⟨(s₀.raise_busy e).trans (congrArg _ h), ?_⟩
  rw [State.raise_lastErr, State.raise_firstErr, h]
  by_cases he : e = .ok
  · subst he
    exact .inl ⟨rfl, ite_eq_right_iff.2 Eq.symm⟩
  · exact .inr ⟨he, rfl⟩

theorem conclude {r : Check State} (h₀ : s₀.status = s.status) (hr : Ensures r fun u => u.status = s.status) :
    Reported s (s₀.conclude r) := by
  cases r with
  | ok u => exact succeed (hr u rfl)
  | error e => exact raise h₀ e

theorem dataWrite {store : TWord → State} (h : ∀ w, (store w).status = s.status) (d : Word) :
    Reported s (s.dataWrite d store) :=
  conclude rfl (.bind fun _ _ => .pure (h _))

end Reported

theorem exec_reported {i : Instr} {s t : State} (h : exec i s = .next t) : Reported s t := by
  obtain ⟨r, hr, hstatus⟩ := exec_eq_conclude i s
  obtain rfl := Host.Outcome.next.inj (hr.symm.trans h)
  exact .conclude (s.onFailure_status i) hstatus

theorem issue_reported {d : Word} {s t : State} (h : issue d s = .next t) : Reported s t := by
  cases hd : decodeData d with
  | ok i => exact exec_reported (issue_of_ok hd ▸ h)
  | error e =>
    obtain rfl := Host.Outcome.next.inj ((issue_of_error hd).symm.trans h)
    exact .raise rfl _

theorem writeLocation_reported (s : State) (d : Word) :
    (∀ r, Reported s (s.writeLocation d (.v r))) ∧ (∀ k, Reported s (s.writeLocation d (.inbuf k))) ∧
      ∀ k, Reported s (s.writeLocation d (.outbuf k)) :=
  ⟨fun r => .dataWrite (fun _ => s.setReg_status r _) d,
    fun _ => .dataWrite (fun _ => s.setBuffer_status .inbuf _) d,
    fun _ => .dataWrite (fun _ => s.setBuffer_status .outbuf _) d⟩

/-- Settles O14: the end that commands, illegal words and data writes share reports as R203 says. -/
theorem errorsAreReportedInStatus : Obligations.ErrorsAreReportedInStatus :=
  ⟨fun _ _ _ => exec_reported, fun _ _ _ => issue_reported, writeLocation_reported⟩

end Sys2Proof.Machine
end
